-- ==== Sys2Proof/Word.lean ====
section
/-! DEFINITION. The widths of the block's values (R11, 00_scope.md): bytes, two-byte words, byte sequences. -/

namespace Sys2Proof

/-- `u8` (R11). -/
abbrev Byte := BitVec 8

/-- `u16`, a two-byte word (R7, R11). -/
abbrev Word := BitVec 16

/-- A finite sequence of `u8` (R11). -/
abbrev Bytes := List Byte

/-- The bytes of a Text (R21): its length in bytes is the length of the list. -/
abbrev Text := List Byte

/-- A register wide enough for `PACKET_MAX`: 29 bits (R33, R37). -/
abbrev Offset := BitVec 29

end Sys2Proof
end

