-- ==== Sys2Proof/Config.lean ====
section
/-! DEFINITION. The constants the source fixes (R7, R8, 00_scope.md) and the named parameters of a build (R9): type codes, CONNACK padding, capacities, error numbers. A build is plain data and is held in State, where no operation writes it. -/

namespace Sys2Proof

/-- `RL_MAX` = 2^28 - 1, the largest remaining-length value (R7). -/
def rlMax : Nat := 268435455

/-- `TEXT_MAX`, the largest length a two-byte prefix can announce (R8). -/
def textMax : Nat := 65535

/-- `PACKET_MAX` = 1 + 4 + `RL_MAX`, the longest packet (R8). -/
def packetMax : Nat := 268435460

/-- The 14 packet types (R15, R20; 14 and not 13 by 90_conflicts.md C1). -/
inductive Tag where
  | connect | connack | publish | puback | pubrec | pubrel | pubcomp
  | subscribe | suback | unsubscribe | unsuback | pingreq | pingresp | disconnect
deriving DecidableEq, Repr

/-- The tags in the order of the source's listing, which is the default code order (R80). -/
def allTags : List Tag :=
  [.connect, .connack, .publish, .puback, .pubrec, .pubrel, .pubcomp,
   .subscribe, .suback, .unsubscribe, .unsuback, .pingreq, .pingresp, .disconnect]

/-- The eight error kinds (R200, 60_exceptions.md). -/
inductive ErrKind where
  | unknownPacketType | truncatedInput | invalidEncoding | missingRequiredField
  | malformedRemainingLength | reservedQoS | lengthOutOfRange | capacityExceeded
deriving DecidableEq, Repr

/-- The `ERRCODE` number of each kind (R200); a parameter of the build (R9, D4). -/
structure ErrNumbers where
  unknownPacketType : BitVec 4
  truncatedInput : BitVec 4
  invalidEncoding : BitVec 4
  missingRequiredField : BitVec 4
  malformedRemainingLength : BitVec 4
  reservedQoS : BitVec 4
  lengthOutOfRange : BitVec 4
  capacityExceeded : BitVec 4
deriving DecidableEq, Repr

/-- The default numbers, the table of R200. -/
def ErrNumbers.default : ErrNumbers := ⟨1, 2, 3, 4, 5, 6, 7, 8⟩

/-- `code(kind)` of R193. -/
def ErrNumbers.code (n : ErrNumbers) : ErrKind → BitVec 4
  | .unknownPacketType => n.unknownPacketType
  | .truncatedInput => n.truncatedInput
  | .invalidEncoding => n.invalidEncoding
  | .missingRequiredField => n.missingRequiredField
  | .malformedRemainingLength => n.malformedRemainingLength
  | .reservedQoS => n.reservedQoS
  | .lengthOutOfRange => n.lengthOutOfRange
  | .capacityExceeded => n.capacityExceeded

def ErrNumbers.toList (n : ErrNumbers) : List (BitVec 4) :=
  [n.unknownPacketType, n.truncatedInput, n.invalidEncoding, n.missingRequiredField,
   n.malformedRemainingLength, n.reservedQoS, n.lengthOutOfRange, n.capacityExceeded]

/-- The named parameters of R9 that are fixed when the block is built.
`typeCode` is the table `TYPE_CODE` (R80) as the 14 tags in the order of their codes 1..14;
`listCap = none` is an unbounded list register. `CFG.RL_STRICT` is a register, not a field of this. -/
structure Build where
  typeCode : List Tag
  connackPad : Fin 2
  ibCap : Nat
  obCap : Nat
  listCap : Option Nat
  errNumbers : ErrNumbers
deriving DecidableEq, Repr

/-- The defaults of R9. -/
def Build.default : Build where
  typeCode := allTags
  connackPad := 0
  ibCap := packetMax
  obCap := packetMax
  listCap := none
  errNumbers := ErrNumbers.default

/-- `TYPE_CODE` is a bijection between the 14 tags and 1..14, and code 1 is connect (R80, R130). -/
def typeCodeWf (tc : List Tag) : Bool :=
  tc.length == 14 && decide tc.Nodup && allTags.all (fun t => decide (t ∈ tc)) && tc.head? == some .connect

/-- A build the spec admits: a lawful type-code table, capacities of at most `PACKET_MAX`
(R9: the default is "no limit beyond the format's own"), error numbers distinct and none of them 0,
which R36 keeps for "no error" (log entry 2, DEDUCED). -/
def Build.wf (b : Build) : Bool :=
  typeCodeWf b.typeCode && decide (b.ibCap ≤ packetMax) && decide (b.obCap ≤ packetMax)
    && decide ((0 :: b.errNumbers.toList).Nodup)

end Sys2Proof
end

