-- ==== Sys2Proof/Syntax.lean ====
section
/-! DEFINITION. The instructions: one constructor for each of the 58 rows of spec/opcode_table.json. An operand the spec passes as an argument is a field; IB, PKT, CFG and the cursors are read from State. -/

namespace Sys2Proof

/-- Bits 3:0 of the header byte, format FH (R73): the three flags every packet has. -/
structure Hdr where
  dup : Bool
  qos : BitVec 2
  retain : Bool
deriving DecidableEq, Repr

/-- The connect-flags byte as its named bits, format CF (R78); bit 0 is reserved and not held. -/
structure ConnFlags where
  uf : Bool
  pf : Bool
  wr : Bool
  wq : BitVec 2
  wf : Bool
  cs : Bool
deriving DecidableEq, Repr

/-- One operand `(value, hi, lo)` of `INSERT` (R101). -/
structure BitField where
  value : Byte
  hi : Fin 8
  lo : Fin 8
deriving DecidableEq, Repr

/-- The rows of the opcode table, in its order. A row of a type code carries the header byte's flag
bits; the row's rule is named after it. -/
inductive Instr where
  /-- INVALID_TYPE_0: type code 0 (R202). -/
  | invalidType0 (h : Hdr)
  /-- BD_CONNECT: R151. -/
  | bdConnect (h : Hdr)
  /-- BE_CONNECT: R172. -/
  | beConnect (h : Hdr)
  /-- BD_CONNACK: R152. -/
  | bdConnack (h : Hdr)
  /-- BE_CONNACK: R173. -/
  | beConnack (h : Hdr)
  /-- BD_PUBLISH: R153. -/
  | bdPublish (h : Hdr)
  /-- BE_PUBLISH: R174. -/
  | bePublish (h : Hdr)
  /-- BD_PUBACK: R154. -/
  | bdPuback (h : Hdr)
  /-- BE_PUBACK: R175. -/
  | bePuback (h : Hdr)
  /-- BD_PUBREC: R155. -/
  | bdPubrec (h : Hdr)
  /-- BE_PUBREC: R176. -/
  | bePubrec (h : Hdr)
  /-- BD_PUBREL: R156. -/
  | bdPubrel (h : Hdr)
  /-- BE_PUBREL: R177. -/
  | bePubrel (h : Hdr)
  /-- BD_PUBCOMP: R157. -/
  | bdPubcomp (h : Hdr)
  /-- BE_PUBCOMP: R178. -/
  | bePubcomp (h : Hdr)
  /-- BD_SUBSCRIBE: R158. -/
  | bdSubscribe (h : Hdr)
  /-- BE_SUBSCRIBE: R179. -/
  | beSubscribe (h : Hdr)
  /-- BD_SUBACK: R159. -/
  | bdSuback (h : Hdr)
  /-- BE_SUBACK: R180. -/
  | beSuback (h : Hdr)
  /-- BD_UNSUBSCRIBE: R160. -/
  | bdUnsubscribe (h : Hdr)
  /-- BE_UNSUBSCRIBE: R181. -/
  | beUnsubscribe (h : Hdr)
  /-- BD_UNSUBACK: R161. -/
  | bdUnsuback (h : Hdr)
  /-- BE_UNSUBACK: R182. -/
  | beUnsuback (h : Hdr)
  /-- BD_PINGREQ: R162. -/
  | bdPingreq (h : Hdr)
  /-- BE_PINGREQ: R183. -/
  | bePingreq (h : Hdr)
  /-- BD_PINGRESP: R163. -/
  | bdPingresp (h : Hdr)
  /-- BE_PINGRESP: R184. -/
  | bePingresp (h : Hdr)
  /-- BD_DISCONNECT: R164. -/
  | bdDisconnect (h : Hdr)
  /-- BE_DISCONNECT: R185. -/
  | beDisconnect (h : Hdr)
  /-- INVALID_TYPE_15: type code 15 (R202). -/
  | invalidType15 (h : Hdr)
  /-- CMD_RESERVED_0: CMD = 0 (R34). -/
  | cmdReserved0
  /-- DECODE: CMD = 1 (R190, R193). -/
  | decode
  /-- ENCODE: CMD = 2 (R191, R193). -/
  | encode
  /-- CMD_RESERVED_3: CMD = 3 (R34). -/
  | cmdReserved3
  /-- EXTRACT: R100. -/
  | extract (b : Byte) (hi : Fin 8) (lo : Fin 8)
  /-- INSERT: R101. -/
  | insert (fs : List BitField)
  /-- DEC_BYTE: R102. -/
  | decByte
  /-- DEC_WORD: R103. -/
  | decWord
  /-- DEC_TEXT: R104. -/
  | decText
  /-- DEC_REST: R105. -/
  | decRest
  /-- UTF8_OK: R106. -/
  | utf8Ok (t : Bytes)
  /-- ENC_BYTE: R107. -/
  | encByte (v : Byte)
  /-- ENC_WORD: R108. -/
  | encWord (v : Word)
  /-- ENC_TEXT: R109. -/
  | encText (t : Bytes)
  /-- ENC_REST: R110. -/
  | encRest (t : Bytes)
  /-- RL_DEC: R120. -/
  | rlDec
  /-- RL_DEC_STRICT: R121. -/
  | rlDecStrict
  /-- RL_ENC: R122. -/
  | rlEnc (x : Nat)
  /-- TAG_OF: R130. -/
  | tagOf (code : BitVec 4)
  /-- CODE_OF: R130. -/
  | codeOf (t : Tag)
  /-- FH_DEC: R131. -/
  | fhDec
  /-- FH_ENC: R132: the body is the image built so far. -/
  | fhEnc (t : Tag) (h : Hdr)
  /-- CF_DEC: R140. -/
  | cfDec (f : Byte)
  /-- CF_ENC: R141. -/
  | cfEnc (fl : ConnFlags)
  /-- CF_DERIVE: R142. -/
  | cfDerive
  /-- BODY_DEC: R150. -/
  | bodyDec (t : Tag) (qos : BitVec 2)
  /-- BODY_ENC: R170. -/
  | bodyEnc (t : Tag)
  /-- REQ_CHECK: R171. -/
  | reqCheck (t : Tag)
deriving DecidableEq, Repr

end Sys2Proof
end

