-- ==== Sys2Proof/WellFormed.lean ====
section
/-! DEFINITION. Which instructions are well formed: the operand ranges the rules state (R100, R101, R130, R131, R132). -/

namespace Sys2Proof

/-- The three legal values of the header's qos field; 3 is illegal (R27, R73, R82). -/
def Hdr.legal (h : Hdr) : Bool := h.qos != 3

/-- `hi >= lo` (R100). -/
def rangeOk (hi lo : Fin 8) : Bool := decide (lo ≤ hi)

/-- The value fits its range, `value < 2^(hi-lo+1)` (R101). -/
def BitField.fits (f : BitField) : Bool :=
  rangeOk f.hi f.lo && decide (f.value.toNat < 2 ^ (f.hi.val - f.lo.val + 1))

/-- Two bit ranges share no bit (R101). -/
def BitField.disjoint (f g : BitField) : Bool := decide (f.hi < g.lo) || decide (g.hi < f.lo)

/-- The ranges of an `INSERT` are pairwise disjoint (R101). -/
def fieldsDisjoint : List BitField → Bool
  | [] => true
  | f :: fs => fs.all f.disjoint && fieldsDisjoint fs

/-- The operand ranges of the rules: a legal qos on every type row and header operation, an ordered
bit range, disjoint fitting insert fields, and a code 1..14 for `TAG_OF` ("defined for codes 1..14 only"). -/
def Instr.wellFormed : Instr → Bool
  | .invalidType0 _ => true
  | .bdConnect h => h.legal
  | .beConnect h => h.legal
  | .bdConnack h => h.legal
  | .beConnack h => h.legal
  | .bdPublish h => h.legal
  | .bePublish h => h.legal
  | .bdPuback h => h.legal
  | .bePuback h => h.legal
  | .bdPubrec h => h.legal
  | .bePubrec h => h.legal
  | .bdPubrel h => h.legal
  | .bePubrel h => h.legal
  | .bdPubcomp h => h.legal
  | .bePubcomp h => h.legal
  | .bdSubscribe h => h.legal
  | .beSubscribe h => h.legal
  | .bdSuback h => h.legal
  | .beSuback h => h.legal
  | .bdUnsubscribe h => h.legal
  | .beUnsubscribe h => h.legal
  | .bdUnsuback h => h.legal
  | .beUnsuback h => h.legal
  | .bdPingreq h => h.legal
  | .bePingreq h => h.legal
  | .bdPingresp h => h.legal
  | .bePingresp h => h.legal
  | .bdDisconnect h => h.legal
  | .beDisconnect h => h.legal
  | .invalidType15 _ => true
  | .cmdReserved0 => true
  | .decode => true
  | .encode => true
  | .cmdReserved3 => true
  | .extract _ hi lo => rangeOk hi lo
  | .insert fs => fs.all BitField.fits && fieldsDisjoint fs
  | .decByte => true
  | .decWord => true
  | .decText => true
  | .decRest => true
  | .utf8Ok _ => true
  | .encByte _ => true
  | .encWord _ => true
  | .encText _ => true
  | .encRest _ => true
  | .rlDec => true
  | .rlDecStrict => true
  | .rlEnc _ => true
  | .tagOf code => code != 0 && code != 15
  | .codeOf _ => true
  | .fhDec => true
  | .fhEnc _ h => h.legal
  | .cfDec _ => true
  | .cfEnc _ => true
  | .cfDerive => true
  | .bodyDec _ qos => qos != 3
  | .bodyEnc _ => true
  | .reqCheck _ => true

end Sys2Proof
end

