-- ==== Sys2Proof/Decode.lean ====
section
/-! DEFINITION. The decoder and the encoder of instruction words: the bit-field extractor (R100, R101), the header byte (R73), the type-code lookups (R130), the CMD codes (R85), and the three places where the block finds a code: CMD, byte 0 of IB, PKT.type. -/

namespace Sys2Proof

/-- `EXTRACT(b, hi, lo)` = `(b div 2^lo) mod 2^(hi-lo+1)` (R12, R100), zero-extended to a byte. -/
def extractBits (b : Byte) (hi lo : Nat) : Byte :=
  BitVec.ofNat 8 ((b.toNat / 2 ^ lo) % 2 ^ (hi - lo + 1))

/-- `INSERT(fields)` = the sum of `value * 2^lo` (R101). -/
def insertBits (fs : List BitField) : Byte :=
  BitVec.ofNat 8 ((fs.map fun f => f.value.toNat * 2 ^ f.lo.val).sum)

/-- `bool` is `u1` with 1 = true (R11). -/
def bitOf (b : Bool) : Byte := if b then 1 else 0

/-- A one-bit field as a bool (R11, R100). -/
def flagAt (b : Byte) (i : Nat) : Bool := extractBits b i i == 1

/-- `TAG_OF(code)` (R130): the tag of a code 1..14, nothing for the others. -/
def lookupTag (tc : List Tag) (code : BitVec 4) : Option Tag :=
  if code = 0 then none else tc[code.toNat - 1]?

/-- `CODE_OF(tag)` (R130). -/
def lookupCode (tc : List Tag) (t : Tag) : BitVec 4 := BitVec.ofNat 4 (tc.idxOf t + 1)

/-- Bits 7:4 of the header byte (R73). -/
def headerCode (b : Byte) : BitVec 4 := (extractBits b 7 4).setWidth 4

/-- Bits 3:0 of the header byte: dup bit 3, qos bits 2:1, retain bit 0 (R73). -/
def headerFlags (b : Byte) : Hdr where
  dup := flagAt b 3
  qos := (extractBits b 2 1).setWidth 2
  retain := flagAt b 0

/-- The header byte of a code and flags (R73, R132). -/
def headerByte (code : BitVec 4) (h : Hdr) : Byte :=
  insertBits [⟨code.setWidth 8, 7, 4⟩, ⟨bitOf h.dup, 3, 3⟩, ⟨h.qos.setWidth 8, 2, 1⟩, ⟨bitOf h.retain, 0, 0⟩]

/-- Where the block finds a code (R86): the host's write of `CMD`, byte 0 of `IB` inside a DECODE,
the type register inside an ENCODE (with the flags that byte 0 of the image will carry). -/
inductive Port where
  | cmd | inputByte | typeReg
deriving DecidableEq, Repr

/-- Why a byte at a port is no instruction. -/
inductive DecodeError where
  /-- qos bits `11` on a type code 1..14: the block raises `ReservedQoS` instead of selecting a body procedure (R131, R191). -/
  | reservedQoS
  /-- A code above 3: `CMD` has two bits (R34). -/
  | cmdTooWide
deriving DecidableEq, Repr

/-- The body decoder a tag selects (R150). -/
def bdOf : Tag → Hdr → Instr
  | .connect, h => .bdConnect h
  | .connack, h => .bdConnack h
  | .publish, h => .bdPublish h
  | .puback, h => .bdPuback h
  | .pubrec, h => .bdPubrec h
  | .pubrel, h => .bdPubrel h
  | .pubcomp, h => .bdPubcomp h
  | .subscribe, h => .bdSubscribe h
  | .suback, h => .bdSuback h
  | .unsubscribe, h => .bdUnsubscribe h
  | .unsuback, h => .bdUnsuback h
  | .pingreq, h => .bdPingreq h
  | .pingresp, h => .bdPingresp h
  | .disconnect, h => .bdDisconnect h

/-- The body encoder a tag selects (R170). -/
def beOf : Tag → Hdr → Instr
  | .connect, h => .beConnect h
  | .connack, h => .beConnack h
  | .publish, h => .bePublish h
  | .puback, h => .bePuback h
  | .pubrec, h => .bePubrec h
  | .pubrel, h => .bePubrel h
  | .pubcomp, h => .bePubcomp h
  | .subscribe, h => .beSubscribe h
  | .suback, h => .beSuback h
  | .unsubscribe, h => .beUnsubscribe h
  | .unsuback, h => .beUnsuback h
  | .pingreq, h => .bePingreq h
  | .pingresp, h => .bePingresp h
  | .disconnect, h => .beDisconnect h

/-- The row of a `CMD` value (R34, R85). -/
def decodeCmd (c : BitVec 2) : Instr :=
  if c = 0 then .cmdReserved0 else if c = 1 then .decode else if c = 2 then .encode else .cmdReserved3

/-- The row of a header byte: codes 0 and 15 are invalid (R202), qos bits `11` select nothing (R131). -/
def decodeHeader (sel : Tag → Hdr → Instr) (tc : List Tag) (b : Byte) : Except DecodeError Instr :=
  let code := headerCode b
  let h := headerFlags b
  match lookupTag tc code with
  | some t => if h.legal then .ok (sel t h) else .error .reservedQoS
  | none => if code = 0 then .ok (.invalidType0 h) else .ok (.invalidType15 h)

/-- The decoder: the instruction a byte selects at a port, with the build's type-code table. -/
def decodeAt (tc : List Tag) (p : Port) (b : Byte) : Except DecodeError Instr :=
  match p with
  | .cmd => if b.toNat < 4 then .ok (decodeCmd (b.setWidth 2)) else .error .cmdTooWide
  | .inputByte => decodeHeader bdOf tc b
  | .typeReg => decodeHeader beOf tc b

/-- The encoder: the port and the byte of an instruction that has a bit pattern; none for an internal
operation, which has no encoding of its own (R86). -/
def encodeAt (tc : List Tag) : Instr → Option (Port × Byte)
  | .invalidType0 h => some (.inputByte, headerByte 0 h)
  | .bdConnect h => some (.inputByte, headerByte (lookupCode tc .connect) h)
  | .beConnect h => some (.typeReg, headerByte (lookupCode tc .connect) h)
  | .bdConnack h => some (.inputByte, headerByte (lookupCode tc .connack) h)
  | .beConnack h => some (.typeReg, headerByte (lookupCode tc .connack) h)
  | .bdPublish h => some (.inputByte, headerByte (lookupCode tc .publish) h)
  | .bePublish h => some (.typeReg, headerByte (lookupCode tc .publish) h)
  | .bdPuback h => some (.inputByte, headerByte (lookupCode tc .puback) h)
  | .bePuback h => some (.typeReg, headerByte (lookupCode tc .puback) h)
  | .bdPubrec h => some (.inputByte, headerByte (lookupCode tc .pubrec) h)
  | .bePubrec h => some (.typeReg, headerByte (lookupCode tc .pubrec) h)
  | .bdPubrel h => some (.inputByte, headerByte (lookupCode tc .pubrel) h)
  | .bePubrel h => some (.typeReg, headerByte (lookupCode tc .pubrel) h)
  | .bdPubcomp h => some (.inputByte, headerByte (lookupCode tc .pubcomp) h)
  | .bePubcomp h => some (.typeReg, headerByte (lookupCode tc .pubcomp) h)
  | .bdSubscribe h => some (.inputByte, headerByte (lookupCode tc .subscribe) h)
  | .beSubscribe h => some (.typeReg, headerByte (lookupCode tc .subscribe) h)
  | .bdSuback h => some (.inputByte, headerByte (lookupCode tc .suback) h)
  | .beSuback h => some (.typeReg, headerByte (lookupCode tc .suback) h)
  | .bdUnsubscribe h => some (.inputByte, headerByte (lookupCode tc .unsubscribe) h)
  | .beUnsubscribe h => some (.typeReg, headerByte (lookupCode tc .unsubscribe) h)
  | .bdUnsuback h => some (.inputByte, headerByte (lookupCode tc .unsuback) h)
  | .beUnsuback h => some (.typeReg, headerByte (lookupCode tc .unsuback) h)
  | .bdPingreq h => some (.inputByte, headerByte (lookupCode tc .pingreq) h)
  | .bePingreq h => some (.typeReg, headerByte (lookupCode tc .pingreq) h)
  | .bdPingresp h => some (.inputByte, headerByte (lookupCode tc .pingresp) h)
  | .bePingresp h => some (.typeReg, headerByte (lookupCode tc .pingresp) h)
  | .bdDisconnect h => some (.inputByte, headerByte (lookupCode tc .disconnect) h)
  | .beDisconnect h => some (.typeReg, headerByte (lookupCode tc .disconnect) h)
  | .invalidType15 h => some (.inputByte, headerByte 15 h)
  | .cmdReserved0 => some (.cmd, 0)
  | .decode => some (.cmd, 1)
  | .encode => some (.cmd, 2)
  | .cmdReserved3 => some (.cmd, 3)
  | .extract _ _ _ => none
  | .insert _ => none
  | .decByte => none
  | .decWord => none
  | .decText => none
  | .decRest => none
  | .utf8Ok _ => none
  | .encByte _ => none
  | .encWord _ => none
  | .encText _ => none
  | .encRest _ => none
  | .rlDec => none
  | .rlDecStrict => none
  | .rlEnc _ => none
  | .tagOf _ => none
  | .codeOf _ => none
  | .fhDec => none
  | .fhEnc _ _ => none
  | .cfDec _ => none
  | .cfEnc _ => none
  | .cfDerive => none
  | .bodyDec _ _ => none
  | .bodyEnc _ => none
  | .reqCheck _ => none

/-- The words of an instruction under the default type-code table: one byte, or none. -/
def encode (i : Instr) : List Byte :=
  match encodeAt allTags i with
  | some (_, b) => [b]
  | none => []

/-- The instruction of a table word, under the default type-code table. The table gives two rows to one
byte (the decoder and the encoder of a type), and the `CMD` codes 0..3 are also header bytes of code 0:
a value below 4 is read as a `CMD` code and any other byte as byte 0 of `IB` (log entry 7). -/
def decodeTableWord (nbits w : Nat) : Option Instr :=
  if 8 < nbits ∨ 256 ≤ w then none
  else
    match decodeAt allTags (if w < 4 then .cmd else .inputByte) (BitVec.ofNat 8 w) with
    | .ok i => some i
    | .error _ => none

end Sys2Proof
end

