-- ==== Sys2Proof/Machine/State.lean ====
section
/-! DEFINITION. The machine's state as plain data (R41, 10_state.md): the packet register file, the two buffers, the control and status registers, the pending CMD write, the build, and the working state of a command under way; the outcomes that are no step; the state after reset (R42). -/

namespace Sys2Proof.Machine

/-- The packet register file `PKT` (R22). A register with a valid bit is an `Option`: `none` is valid bit 0,
and such a register holds no value at all (R22: "a model must not give such a register a value"). -/
structure Pkt where
  ptype : Option (BitVec 4)
  dup : Bool
  qos : BitVec 2
  retain : Bool
  protoName : Option Text
  protoVer : Option Byte
  cleanSession : Option Bool
  keepAlive : Option Word
  clientId : Option Text
  willTopic : Option Text
  willMessage : Option Text
  willQos : Option (BitVec 2)
  willRetain : Option Bool
  username : Option Text
  password : Option Text
  returnCode : Option Byte
  topic : Option Text
  msgId : Option Word
  payload : Option Bytes
  subs : Option (List (Text × Byte))
  granted : Option (List Byte)
  topics : Option (List Text)
deriving DecidableEq, Repr

/-- All valid bits 0 and the three flag registers 0 (R42); also the shadow packet a DECODE starts with (R190). -/
def Pkt.empty : Pkt where
  ptype := none
  dup := false
  qos := 0
  retain := false
  protoName := none
  protoVer := none
  cleanSession := none
  keepAlive := none
  clientId := none
  willTopic := none
  willMessage := none
  willQos := none
  willRetain := none
  username := none
  password := none
  returnCode := none
  topic := none
  msgId := none
  payload := none
  subs := none
  granted := none
  topics := none

/-- The results of `FH_DEC` (R131): tag, flags, fixed-header length and remaining length. -/
structure Header where
  tag : Tag
  flags : Hdr
  h : Nat
  n : Nat
deriving DecidableEq, Repr

/-- The value an internal operation returned last (the working variables of R13); `none` before the first. -/
inductive Val where
  | none
  | byte (b : Byte)
  | word (w : Word)
  | text (t : Bytes)
  | bool (b : Bool)
  | length (n : Nat)
  | tag (t : Tag)
  | code (c : BitVec 4)
  | flags (f : ConnFlags)
  | header (h : Header)
deriving DecidableEq, Repr

/-- The working state of a command under way (R28, R29, R39): the read cursor and its bound, the
remaining-length accumulator, multiplier and byte count, the shadow packet `PKT'`, the shadow image `OB'`,
and the model's latch for the last value returned (log entry 5). -/
structure Work where
  cur : Nat
  lim : Nat
  acc : Nat
  mult : Nat
  count : Nat
  shadow : Pkt
  image : Bytes
  result : Val
deriving DecidableEq, Repr

/-- `wp`, the number of bytes appended to the image so far (R29). -/
def Work.wp (w : Work) : Nat := w.image.length

/-- A byte buffer: the listed bytes by offset, offsets rising (R31, R32, R58). -/
abbrev Mem := List Host.Cell

/-- The architectural state of R41, the build (R9), the `CMD` write the block has not taken up yet (R34),
and the working state, which exists only inside a command (R30, R39). -/
structure State where
  pkt : Pkt
  ib : Mem
  ibLen : Offset
  ob : Mem
  obLen : Offset
  consumed : Offset
  status : BitVec 3
  errcode : BitVec 4
  errpos : Offset
  cfg : BitVec 1
  cmd : Option (BitVec 2)
  work : Option Work
  build : Build
deriving DecidableEq, Repr

/-- Why the machine stops at an address that does not exist. -/
inductive Fault where
  /-- Raised by a decode-side operation whose bound lies beyond `IB_LEN`, or when `IB_LEN` exceeds `IB_CAP`: the rules
  never read there (R31, R59). Safe: the model stops where the block has no byte. -/
  | inputBeyondBuffer
  /-- Raised by the host port for an offset or a length beyond a buffer's capacity (R31). Safe. -/
  | beyondCapacity
deriving DecidableEq, Repr

/-- Why an input has no meaning. -/
inductive Refusal where
  /-- Raised by `exec`'s arm of an instruction without a meaning. Safe. -/
  | notModelled (mnemonic : String)
  /-- Raised by a write of 0 or 3 to `CMD`: "a model gives it no step (refuses it)" (R34). Safe. -/
  | reservedCommand (code : BitVec 2)
  /-- Raised by an encode-side internal operation run on its own that would read a register whose valid bit is 0;
  no rule reads such a register (R22). Safe; ENCODE never raises it. -/
  | invalidRegister
  /-- Raised by `TAG_OF` on a code outside its table: it "is defined for codes 1..14 only" (R130). Safe. -/
  | codeWithoutTag
  /-- Raised by the host port for a write to `IB`, `IB_LEN`, `PKT` or `CFG` while a command is under way, which has no meaning (R241). Safe. -/
  | hostWriteWhileBusy
  /-- Raised by the host port for a value wider than its register (R23). Safe. -/
  | valueTooWide
deriving DecidableEq, Repr

/-- The state after reset of a block built with `b`: the table of R42. Nothing is listed in the buffers,
whose contents R42 leaves unspecified (log entry 1). -/
def State.resetOf (b : Build) : State where
  pkt := Pkt.empty
  ib := []
  ibLen := 0
  ob := []
  obLen := 0
  consumed := 0
  status := 0
  errcode := 0
  errpos := 0
  cfg := 0
  cmd := none
  work := none
  build := b

/-- The state after reset of the block with the default parameters of R9. -/
def State.reset : State := State.resetOf Build.default

end Sys2Proof.Machine
end

