-- ==== Sys2Proof/Machine/Flags.lean ====
section
/-! DEFINITION. The flag computations: the STATUS bits (R35, 10_state.md) and the connect-flags byte (R78, R140 to R146, 43_connect_flags.md). -/

namespace Sys2Proof.Machine

/-- `STATUS` from its bits: BUSY bit 0, DONE bit 1, ERR bit 2 (R35). -/
def statusOf (busy done err : Bool) : BitVec 3 :=
  (if err then 4 else 0) + (if done then 2 else 0) + (if busy then 1 else 0)

/-- `STATUS.BUSY` (R35). -/
def State.busy (s : State) : Bool := s.status.getLsbD 0

/-- `STATUS.DONE` (R35). -/
def State.done (s : State) : Bool := s.status.getLsbD 1

/-- `STATUS.ERR` (R35). -/
def State.err (s : State) : Bool := s.status.getLsbD 2

/-- `CFG.RL_STRICT` (R38). -/
def State.strict (s : State) : Bool := s.cfg == 1

/-- `CF_DEC(f)` (R140): bit 0 is not looked at (R143). -/
def cfDec (f : Byte) : ConnFlags where
  uf := flagAt f 7
  pf := flagAt f 6
  wr := flagAt f 5
  wq := (extractBits f 4 3).setWidth 2
  wf := flagAt f 2
  cs := flagAt f 1

/-- `CF_ENC` (R141): bit 0 is 0. -/
def cfEnc (fl : ConnFlags) : Byte :=
  insertBits [⟨bitOf fl.uf, 7, 7⟩, ⟨bitOf fl.pf, 6, 6⟩, ⟨bitOf fl.wr, 5, 5⟩, ⟨fl.wq.setWidth 8, 4, 3⟩,
    ⟨bitOf fl.wf, 2, 2⟩, ⟨bitOf fl.cs, 1, 1⟩]

/-- Why an encode-side operation ends without a value: it raises a kind (the position of an ENCODE error is
always 0, R37), or it would read a register whose valid bit is 0. -/
inductive EncStop where
  | raise (k : ErrKind)
  | invalidRegister
deriving DecidableEq, Repr

/-- A read of a register with a valid bit (R13, R22). -/
def readReg {α : Type} (r : Option α) : Except EncStop α :=
  match r with
  | some v => .ok v
  | none => .error .invalidRegister

/-- "a non-empty username is present" (R142). -/
def nonEmpty (r : Option Text) : Bool :=
  match r with
  | some t => !t.isEmpty
  | none => false

/-- "both will-topic and will-message are present" (R142). -/
def willPresent (p : Pkt) : Bool := p.willTopic.isSome && p.willMessage.isSome

/-- `CF_DERIVE(PKT)` (R142): will-retain and will-qos are 0 without a will (R145). -/
def cfDerive (p : Pkt) : Except EncStop ConnFlags := do
  let wr ← if willPresent p then readReg p.willRetain else pure false
  let wq ← if willPresent p then readReg p.willQos else pure 0
  let cs ← readReg p.cleanSession
  return { uf := nonEmpty p.username, pf := nonEmpty p.password, wr := wr, wq := wq, wf := willPresent p, cs := cs }

end Sys2Proof.Machine
end

