-- ==== Sys2Proof/Machine/Operands.lean ====
section
/-! DEFINITION. The field formats: UTF-8 well-formedness (R106) and the primitive decoders and encoders BYTE, WORD, TEXT, REST (R102 to R105, R107 to R110, 40_primitives.md) as functions over byte sequences. -/

namespace Sys2Proof.Machine

/-- What `raise E(pos)` carries (R13, R200). -/
structure Err where
  kind : ErrKind
  pos : Nat
deriving DecidableEq, Repr

/-- The table of well-formed UTF-8 byte sequences (R106): each row is the range of each byte in turn. -/
def utf8Rows : List (List (Byte × Byte)) :=
  [ [(0x00, 0x7F)],
    [(0xC2, 0xDF), (0x80, 0xBF)],
    [(0xE0, 0xE0), (0xA0, 0xBF), (0x80, 0xBF)],
    [(0xE1, 0xEC), (0x80, 0xBF), (0x80, 0xBF)],
    [(0xED, 0xED), (0x80, 0x9F), (0x80, 0xBF)],
    [(0xEE, 0xEF), (0x80, 0xBF), (0x80, 0xBF)],
    [(0xF0, 0xF0), (0x90, 0xBF), (0x80, 0xBF), (0x80, 0xBF)],
    [(0xF1, 0xF3), (0x80, 0xBF), (0x80, 0xBF), (0x80, 0xBF)],
    [(0xF4, 0xF4), (0x80, 0x8F), (0x80, 0xBF), (0x80, 0xBF)] ]

/-- What is left of `s` after a row of the table, if `s` begins with one sequence of that row. -/
def stripRow : List (Byte × Byte) → Bytes → Option Bytes
  | [], s => some s
  | _ :: _, [] => none
  | (lo, hi) :: r, b :: s => if lo.toNat ≤ b.toNat ∧ b.toNat ≤ hi.toNat then stripRow r s else none

/-- What is left of `s` after its first character; none where no row of the table fits. -/
def stripChar (s : Bytes) : Option Bytes := utf8Rows.findSome? (fun r => stripRow r s)

/-- `UTF8_OK` with at most `fuel` characters; every character has at least one byte. -/
def utf8From : Nat → Bytes → Bool
  | _, [] => true
  | 0, _ :: _ => false
  | fuel + 1, b :: s =>
    match stripChar (b :: s) with
    | some rest => utf8From fuel rest
    | none => false

/-- `UTF8_OK(s)` (R106): `s` is a concatenation of sequences each matching one row of the table. -/
def utf8Ok (s : Bytes) : Bool := utf8From s.length s

/-- `IB[a]` (R13). -/
def byteAt (buf : Bytes) (a : Nat) : Byte := buf.getD a 0

/-- `MemRead(IB, a, n)` (R13, R55). -/
def slice (buf : Bytes) (a n : Nat) : Bytes := (buf.drop a).take n

/-- The big-endian word at `a` (R50, R81). -/
def wordAt (buf : Bytes) (a : Nat) : Word := byteAt buf a ++ byteAt buf (a + 1)

/-- `DEC_BYTE` (R102). -/
def decByte (buf : Bytes) (cur lim : Nat) : Except Err (Byte × Nat) :=
  if lim - cur < 1 then .error ⟨.truncatedInput, cur⟩
  else .ok (byteAt buf cur, cur + 1)

/-- `DEC_WORD` (R103). -/
def decWord (buf : Bytes) (cur lim : Nat) : Except Err (Word × Nat) :=
  if lim - cur < 2 then .error ⟨.truncatedInput, cur⟩
  else .ok (wordAt buf cur, cur + 2)

/-- `DEC_TEXT` (R104): the length test comes before the UTF-8 test. -/
def decText (buf : Bytes) (cur lim : Nat) : Except Err (Text × Nat) :=
  if lim - cur < 2 then .error ⟨.truncatedInput, cur⟩
  else
    let l := (wordAt buf cur).toNat
    if lim - cur < 2 + l then .error ⟨.truncatedInput, cur⟩
    else
      let t := slice buf (cur + 2) l
      if utf8Ok t then .ok (t, cur + 2 + l) else .error ⟨.invalidEncoding, cur⟩

/-- `DEC_REST` (R105). -/
def decRest (buf : Bytes) (cur lim : Nat) : Except Err (Bytes × Nat) :=
  let t := slice buf cur (lim - cur)
  if utf8Ok t then .ok (t, lim) else .error ⟨.invalidEncoding, cur⟩

/-- `ENC_BYTE` (R107). -/
def encByte (v : Byte) : Bytes := [v]

/-- `ENC_WORD` (R108): `[v div 256, v mod 256]`. -/
def encWord (v : Word) : Bytes := [BitVec.ofNat 8 (v.toNat / 256), BitVec.ofNat 8 (v.toNat % 256)]

/-- `ENC_TEXT` (R109). -/
def encText (t : Bytes) : Except EncStop Bytes :=
  if t.length > textMax then .error (.raise .lengthOutOfRange)
  else if utf8Ok t then .ok (encWord (BitVec.ofNat 16 t.length) ++ t)
  else .error (.raise .invalidEncoding)

/-- `ENC_REST` (R110). -/
def encRest (t : Bytes) : Except EncStop Bytes :=
  if utf8Ok t then .ok t else .error (.raise .invalidEncoding)

end Sys2Proof.Machine
end

