-- ==== Sys2Proof/Machine/Ops.lean ====
section
/-! DEFINITION. The named operations over buffers and registers that every meaning shares: reading and writing a buffer (R55 to R59, 20_memory.md), starting a command (R35, R212), taking an error (R210, 60_exceptions.md), the two commits (R193, 46_commands.md), and one step of an internal operation. -/

namespace Sys2Proof.Machine

/-- What an offset that is not listed reads as (log entry 1, DESIGN CHOICE: the contents are unspecified, R42). -/
def Mem.unlisted : Byte := 0

/-- Read one byte (R55). -/
def Mem.read : Mem → Nat → Byte
  | [], _ => Mem.unlisted
  | (k, v) :: m, a => if k = a then v else Mem.read m a

/-- Write one byte: the offsets stay rising and no listed byte equals what an unlisted offset reads as. -/
def Mem.write : Mem → Nat → Byte → Mem
  | [], a, b => if b = Mem.unlisted then [] else [(a, b)]
  | (k, v) :: m, a, b =>
    if a < k then (if b = Mem.unlisted then (k, v) :: m else (a, b) :: (k, v) :: m)
    else if a = k then (if b = Mem.unlisted then m else (a, b) :: m)
    else (k, v) :: Mem.write m a b

/-- `MemWrite(OB, a, n, v)` (R13). -/
def Mem.writeBytes : Mem → Nat → Bytes → Mem
  | m, _, [] => m
  | m, a, b :: bs => Mem.writeBytes (Mem.write m a b) (a + 1) bs

/-- `MemRead(IB, a, n)` (R13). -/
def Mem.readBytes (m : Mem) : Nat → Nat → Bytes
  | _, 0 => []
  | a, n + 1 => Mem.read m a :: Mem.readBytes m (a + 1) n

/-- The offsets rise strictly from `low` on and lie below `cap`, and no listed byte equals what an
unlisted offset reads as. -/
def Mem.wfFrom (cap : Nat) : Nat → Mem → Bool
  | _, [] => true
  | low, (k, v) :: m => decide (low ≤ k) && decide (k < cap) && decide (v ≠ Mem.unlisted) && Mem.wfFrom cap (k + 1) m

/-- The canonical form of a buffer of capacity `cap`. -/
def Mem.wf (cap : Nat) (m : Mem) : Bool := Mem.wfFrom cap 0 m

/-- `IB[0 .. IB_LEN)`, the input of a DECODE (R31, R193). -/
def State.input (s : State) : Bytes := s.ib.readBytes 0 s.ibLen.toNat

/-- `OB[0 .. OB_LEN)`, what the host reads after an ENCODE (R32, R234). -/
def State.output (s : State) : Bytes := s.ob.readBytes 0 s.obLen.toNat

/-- A bound the block may read up to: at most `IB_LEN`, which is at most `IB_CAP` (R28, R31, R59). -/
def State.inputOk (s : State) (lim : Nat) : Bool :=
  decide (lim ≤ s.ibLen.toNat) && decide (s.ibLen.toNat ≤ s.build.ibCap)

/-- The working state a command starts with: `cur = 0`, `lim = IB_LEN` (R28), `acc`, `mult`, `i` as R120
sets them, all shadow valid bits 0 (R190), an empty image (R29). -/
def Work.start (s : State) : Work where
  cur := 0
  lim := s.ibLen.toNat
  acc := 0
  mult := 1
  count := 0
  shadow := Pkt.empty
  image := []
  result := .none

/-- The working state an internal operation works on: that of the command under way, or, where none is,
the one a command starts with (log entry 5). -/
def State.working (s : State) : Work := s.work.getD (Work.start s)

/-- Keep a working state. -/
def State.setWork (s : State) (w : Work) : State := { s with work := some w }

/-- The host's write of `CMD` (R34), held until the next step takes it up (log entry 4). A write of 1 or 2 clears DONE
and ERR (R35, R212); `ERRCODE` and `ERRPOS` stay as written until the command ends (R36, R212). BUSY is not shown: "a
model never shows `BUSY = 1` to the host" (R35). A write of 0 or 3 starts nothing and clears nothing (R34, R212). -/
def State.writeCmd (s : State) (c : BitVec 2) : State :=
  { s with cmd := some c, status := if c = 1 ∨ c = 2 then statusOf false false false else s.status }

/-- The start of a DECODE or an ENCODE, inside its step: BUSY is set, DONE and ERR are cleared (R35, R212), the working state is fresh (R39). -/
def State.startCommand (s : State) : State :=
  { s with status := statusOf true false false, work := some (Work.start s) }

/-- Taking an error, `raise E(pos)` (R210), as one update: the working state is thrown away; `ERRPOS` is the
position in a DECODE and 0 in an ENCODE. Control goes nowhere: the block is idle again, and nothing else changes. -/
def State.enterError (s : State) (inDecode : Bool) (e : Err) : State :=
  { s with
    status := statusOf false true true
    errcode := s.build.errNumbers.code e.kind
    errpos := if inDecode then BitVec.ofNat 29 e.pos else 0
    work := none }

/-- The commit of a DECODE (R193, R25): `PKT'` replaces `PKT` whole, `CONSUMED` is `h + N`. -/
def State.commitDecode (s : State) (p : Pkt) (n : Nat) : State :=
  { s with
    pkt := p
    consumed := BitVec.ofNat 29 n
    status := statusOf false true false
    errcode := 0
    errpos := 0
    work := none }

/-- The commit of an ENCODE (R193, R32): `OB[0 .. len(image))` and `OB_LEN` are written. -/
def State.commitEncode (s : State) (image : Bytes) : State :=
  { s with
    ob := s.ob.writeBytes 0 image
    obLen := BitVec.ofNat 29 image.length
    status := statusOf false true false
    errcode := 0
    errpos := 0
    work := none }

/-- One decode-side internal operation: it reads `IB` below `bound` and updates the working state, or raises (R13, R86). -/
def State.decStep (s : State) (bound : Nat) (op : Bytes → Work → Except Err Work) : Host.Outcome State Fault Refusal :=
  if s.inputOk bound then
    match op s.input s.working with
    | .ok w => .next (s.setWork w)
    | .error e => .next (s.enterError true e)
  else .fault .inputBeyondBuffer

/-- One encode-side internal operation: it reads `PKT` and updates the working state, or raises (R13, R86). -/
def State.encStep (s : State) (op : Pkt → Work → Except EncStop Work) : Host.Outcome State Fault Refusal :=
  match op s.pkt s.working with
  | .ok w => .next (s.setWork w)
  | .error (.raise k) => .next (s.enterError false ⟨k, 0⟩)
  | .error .invalidRegister => .refused .invalidRegister

/-- One internal operation that only computes a value: it raises nothing and reads neither buffer nor PKT. -/
def State.valStep (s : State) (v : Val) : Host.Outcome State Fault Refusal :=
  .next (s.setWork { s.working with result := v })

end Sys2Proof.Machine
end

