-- ==== Sys2Proof/Machine/BodyDecode.lean ====
section
/-! DEFINITION. The fourteen body decoders and their dispatch (R150 to R166, 44_body_decode.md), and their meanings. -/

namespace Sys2Proof.Machine

/-- What a body decoder returns: the cursor after it and the shadow packet (the shape `BD_X(IB, cur, lim, qos) -> cur'`). -/
abbrev BodyResult := Except Err (Nat × Pkt)

/-- Two texts, will-topic and will-message, and the two will fields of the flags byte, iff `wf` (R151, R145). -/
def decWill (fl : ConnFlags) (buf : Bytes) (cur lim : Nat) (p : Pkt) : BodyResult :=
  if fl.wf then do
    let (topic, cur) ← decText buf cur lim
    let (message, cur) ← decText buf cur lim
    return (cur, { p with willTopic := some topic, willMessage := some message, willQos := some fl.wq, willRetain := some fl.wr })
  else .ok (cur, p)

/-- The username, iff `uf` (R151). -/
def decUsername (fl : ConnFlags) (buf : Bytes) (cur lim : Nat) (p : Pkt) : BodyResult :=
  if fl.uf then do
    let (t, cur) ← decText buf cur lim
    return (cur, { p with username := some t })
  else .ok (cur, p)

/-- The password, iff `pf` (R151). -/
def decPassword (fl : ConnFlags) (buf : Bytes) (cur lim : Nat) (p : Pkt) : BodyResult :=
  if fl.pf then do
    let (t, cur) ← decText buf cur lim
    return (cur, { p with password := some t })
  else .ok (cur, p)

/-- `BD_CONNECT` (R151). -/
def bdConnect (buf : Bytes) (cur lim : Nat) (p : Pkt) : BodyResult := do
  let (name, cur) ← decText buf cur lim
  let (ver, cur) ← decByte buf cur lim
  let (f, cur) ← decByte buf cur lim
  let (ka, cur) ← decWord buf cur lim
  let (cid, cur) ← decText buf cur lim
  let (cur, p) ← decWill (cfDec f) buf cur lim
    { p with protoName := some name, protoVer := some ver, cleanSession := some (cfDec f).cs, keepAlive := some ka, clientId := some cid }
  let (cur, p) ← decUsername (cfDec f) buf cur lim p
  decPassword (cfDec f) buf cur lim p

/-- Reserved bytes, read and dropped (R152). -/
def decSkip (buf : Bytes) (lim : Nat) : Nat → Nat → Except Err Nat
  | 0, cur => .ok cur
  | n + 1, cur => do
    let (_, cur) ← decByte buf cur lim
    decSkip buf lim n cur

/-- `BD_CONNACK` (R152). -/
def bdConnack (pad : Fin 2) (buf : Bytes) (cur lim : Nat) (p : Pkt) : BodyResult := do
  let cur ← decSkip buf lim pad.val cur
  let (b, cur) ← decByte buf cur lim
  return (cur, { p with returnCode := some b })

/-- The message-id of a publish, iff `qos != 0` (R153). -/
def decPublishId (qos : BitVec 2) (buf : Bytes) (cur lim : Nat) (p : Pkt) : BodyResult :=
  if qos != 0 then do
    let (w, cur) ← decWord buf cur lim
    return (cur, { p with msgId := some w })
  else .ok (cur, p)

/-- `BD_PUBLISH` (R153). -/
def bdPublish (qos : BitVec 2) (buf : Bytes) (cur lim : Nat) (p : Pkt) : BodyResult := do
  let (t, cur) ← decText buf cur lim
  let (cur, p) ← decPublishId qos buf cur lim { p with topic := some t }
  let (pl, cur) ← decRest buf cur lim
  return (cur, { p with payload := some pl })

/-- A body that is one message-id (R154). -/
def decMsgId (buf : Bytes) (cur lim : Nat) (p : Pkt) : BodyResult := do
  let (w, cur) ← decWord buf cur lim
  return (cur, { p with msgId := some w })

/-- `len(l) = LIST_CAP` (R158). -/
def listFull (cap : Option Nat) (n : Nat) : Bool := cap == some n

/-- The loop of `BD_SUBSCRIBE` (R158); every pass that does not raise moves the cursor, so `lim - cur` passes are enough. -/
def decSubs (cap : Option Nat) (buf : Bytes) (lim : Nat) : Nat → Nat → List (Text × Byte) → Except Err (List (Text × Byte) × Nat)
  | 0, cur, l => .ok (l, cur)
  | passes + 1, cur, l =>
    if cur < lim then
      if listFull cap l.length then .error ⟨.capacityExceeded, cur⟩
      else do
        let (t, cur) ← decText buf cur lim
        let (q, cur) ← decByte buf cur lim
        decSubs cap buf lim passes cur (l ++ [(t, q)])
    else .ok (l, cur)

/-- The loop of `BD_SUBACK` (R159). -/
def decGranted (cap : Option Nat) (buf : Bytes) (lim : Nat) : Nat → Nat → List Byte → Except Err (List Byte × Nat)
  | 0, cur, l => .ok (l, cur)
  | passes + 1, cur, l =>
    if cur < lim then
      if listFull cap l.length then .error ⟨.capacityExceeded, cur⟩
      else do
        let (q, cur) ← decByte buf cur lim
        decGranted cap buf lim passes cur (l ++ [q])
    else .ok (l, cur)

/-- The loop of `BD_UNSUBSCRIBE` (R160). -/
def decTopics (cap : Option Nat) (buf : Bytes) (lim : Nat) : Nat → Nat → List Text → Except Err (List Text × Nat)
  | 0, cur, l => .ok (l, cur)
  | passes + 1, cur, l =>
    if cur < lim then
      if listFull cap l.length then .error ⟨.capacityExceeded, cur⟩
      else do
        let (t, cur) ← decText buf cur lim
        decTopics cap buf lim passes cur (l ++ [t])
    else .ok (l, cur)

/-- `BD_SUBSCRIBE` (R158). -/
def bdSubscribe (cap : Option Nat) (buf : Bytes) (cur lim : Nat) (p : Pkt) : BodyResult := do
  let (w, cur) ← decWord buf cur lim
  let (l, cur) ← decSubs cap buf lim (lim - cur) cur []
  return (cur, { p with msgId := some w, subs := some l })

/-- `BD_SUBACK` (R159). -/
def bdSuback (cap : Option Nat) (buf : Bytes) (cur lim : Nat) (p : Pkt) : BodyResult := do
  let (w, cur) ← decWord buf cur lim
  let (l, cur) ← decGranted cap buf lim (lim - cur) cur []
  return (cur, { p with msgId := some w, granted := some l })

/-- `BD_UNSUBSCRIBE` (R160). -/
def bdUnsubscribe (cap : Option Nat) (buf : Bytes) (cur lim : Nat) (p : Pkt) : BodyResult := do
  let (w, cur) ← decWord buf cur lim
  let (l, cur) ← decTopics cap buf lim (lim - cur) cur []
  return (cur, { p with msgId := some w, topics := some l })

/-- The no-op body codec of pingreq, pingresp and disconnect (R162). -/
def bdEmpty (cur : Nat) (p : Pkt) : BodyResult := .ok (cur, p)

/-- `BODY_DEC` (R150): the dispatch over the 14 tags, no default arm. -/
def bodyDec (b : Build) (tag : Tag) (buf : Bytes) (cur lim : Nat) (qos : BitVec 2) (p : Pkt) : BodyResult :=
  match tag with
  | .connect => bdConnect buf cur lim p
  | .connack => bdConnack b.connackPad buf cur lim p
  | .publish => bdPublish qos buf cur lim p
  | .puback => decMsgId buf cur lim p
  | .pubrec => decMsgId buf cur lim p
  | .pubrel => decMsgId buf cur lim p
  | .pubcomp => decMsgId buf cur lim p
  | .subscribe => bdSubscribe b.listCap buf cur lim p
  | .suback => bdSuback b.listCap buf cur lim p
  | .unsubscribe => bdUnsubscribe b.listCap buf cur lim p
  | .unsuback => decMsgId buf cur lim p
  | .pingreq => bdEmpty cur p
  | .pingresp => bdEmpty cur p
  | .disconnect => bdEmpty cur p

/-- One body decoder run on the working state: it reads from the cursor up to `lim` and writes the shadow packet. -/
def State.bodyStep (s : State) (op : Bytes → Nat → Nat → Pkt → BodyResult) : Host.Outcome State Fault Refusal :=
  s.decStep s.working.lim fun buf w => do
    let (cur, p) ← op buf w.cur w.lim w.shadow
    return { w with cur := cur, shadow := p }

/-- `BD_CONNECT` (R151). -/
def execBdConnect (_h : Hdr) (s : State) : Host.Outcome State Fault Refusal :=
  s.bodyStep bdConnect

/-- `BD_CONNACK` (R152). -/
def execBdConnack (_h : Hdr) (s : State) : Host.Outcome State Fault Refusal :=
  s.bodyStep (bdConnack s.build.connackPad)

/-- `BD_PUBLISH` (R153). -/
def execBdPublish (h : Hdr) (s : State) : Host.Outcome State Fault Refusal :=
  s.bodyStep (bdPublish h.qos)

/-- `BD_PUBACK` (R154). -/
def execBdPuback (_h : Hdr) (s : State) : Host.Outcome State Fault Refusal :=
  s.bodyStep decMsgId

/-- `BD_PUBREC` (R155). -/
def execBdPubrec (_h : Hdr) (s : State) : Host.Outcome State Fault Refusal :=
  s.bodyStep decMsgId

/-- `BD_PUBREL` (R156). -/
def execBdPubrel (_h : Hdr) (s : State) : Host.Outcome State Fault Refusal :=
  s.bodyStep decMsgId

/-- `BD_PUBCOMP` (R157). -/
def execBdPubcomp (_h : Hdr) (s : State) : Host.Outcome State Fault Refusal :=
  s.bodyStep decMsgId

/-- `BD_SUBSCRIBE` (R158). -/
def execBdSubscribe (_h : Hdr) (s : State) : Host.Outcome State Fault Refusal :=
  s.bodyStep (bdSubscribe s.build.listCap)

/-- `BD_SUBACK` (R159). -/
def execBdSuback (_h : Hdr) (s : State) : Host.Outcome State Fault Refusal :=
  s.bodyStep (bdSuback s.build.listCap)

/-- `BD_UNSUBSCRIBE` (R160). -/
def execBdUnsubscribe (_h : Hdr) (s : State) : Host.Outcome State Fault Refusal :=
  s.bodyStep (bdUnsubscribe s.build.listCap)

/-- `BD_UNSUBACK` (R161). -/
def execBdUnsuback (_h : Hdr) (s : State) : Host.Outcome State Fault Refusal :=
  s.bodyStep decMsgId

/-- `BD_PINGREQ` (R162). -/
def execBdPingreq (_h : Hdr) (s : State) : Host.Outcome State Fault Refusal :=
  s.bodyStep fun _ cur _ p => bdEmpty cur p

/-- `BD_PINGRESP` (R163). -/
def execBdPingresp (_h : Hdr) (s : State) : Host.Outcome State Fault Refusal :=
  s.bodyStep fun _ cur _ p => bdEmpty cur p

/-- `BD_DISCONNECT` (R164). -/
def execBdDisconnect (_h : Hdr) (s : State) : Host.Outcome State Fault Refusal :=
  s.bodyStep fun _ cur _ p => bdEmpty cur p

/-- `BODY_DEC` (R150). -/
def execBodyDec (t : Tag) (qos : BitVec 2) (s : State) : Host.Outcome State Fault Refusal :=
  s.bodyStep fun buf cur lim p => bodyDec s.build t buf cur lim qos p

end Sys2Proof.Machine
end

