-- ==== Sys2Proof/Machine/BodyEncode.lean ====
section
/-! DEFINITION. The required-field check, the fourteen body encoders and their dispatch (R170 to R186, 45_body_encode.md), and their meanings. -/

namespace Sys2Proof.Machine

/-- The four will registers are all valid or all invalid (R171). -/
def willAllOrNone (p : Pkt) : Bool :=
  (p.willTopic.isSome && p.willMessage.isSome && p.willQos.isSome && p.willRetain.isSome)
    || !(p.willTopic.isSome || p.willMessage.isSome || p.willQos.isSome || p.willRetain.isSome)

/-- The registers of a type that must be valid are valid: the table of R171. -/
def reqOk (t : Tag) (p : Pkt) : Bool :=
  match t with
  | .connect => p.protoName.isSome && p.protoVer.isSome && p.cleanSession.isSome && p.keepAlive.isSome && p.clientId.isSome
      && willAllOrNone p
  | .connack => p.returnCode.isSome
  | .publish => p.topic.isSome && p.payload.isSome && (p.qos == 0 || p.msgId.isSome)
  | .puback => p.msgId.isSome
  | .pubrec => p.msgId.isSome
  | .pubrel => p.msgId.isSome
  | .pubcomp => p.msgId.isSome
  | .subscribe => p.msgId.isSome && p.subs.isSome
  | .suback => p.msgId.isSome && p.granted.isSome
  | .unsubscribe => p.msgId.isSome && p.topics.isSome
  | .unsuback => p.msgId.isSome
  | .pingreq => true
  | .pingresp => true
  | .disconnect => true

/-- `REQ_CHECK` (R171). -/
def reqCheck (t : Tag) (p : Pkt) : Except EncStop Unit :=
  if reqOk t p then .ok () else .error (.raise .missingRequiredField)

/-- The register's text in format TEXT. -/
def encTextReg (r : Option Text) : Except EncStop Bytes := do
  let t ← readReg r
  encText t

/-- The register's text in format TEXT where its flag is set, else nothing (R172). -/
def encTextIf (present : Bool) (r : Option Text) : Except EncStop Bytes :=
  if present then encTextReg r else .ok []

/-- `BE_CONNECT` (R172). -/
def beConnect (p : Pkt) : Except EncStop Bytes := do
  let fl ← cfDerive p
  let name ← encTextReg p.protoName
  let ver ← readReg p.protoVer
  let ka ← readReg p.keepAlive
  let cid ← encTextReg p.clientId
  let wt ← encTextIf fl.wf p.willTopic
  let wm ← encTextIf fl.wf p.willMessage
  let un ← encTextIf fl.uf p.username
  let pw ← encTextIf fl.pf p.password
  return name ++ encByte ver ++ encByte (cfEnc fl) ++ encWord ka ++ cid ++ wt ++ wm ++ un ++ pw

/-- `BE_CONNACK` (R173): reserved bytes are written 0. -/
def beConnack (pad : Fin 2) (p : Pkt) : Except EncStop Bytes := do
  let rc ← readReg p.returnCode
  return List.replicate pad.val 0 ++ encByte rc

/-- The message-id of a publish, iff `qos != 0`; with qos 0 the register is not read (R174). -/
def encPublishId (p : Pkt) : Except EncStop Bytes :=
  if p.qos != 0 then do
    let w ← readReg p.msgId
    return encWord w
  else .ok []

/-- `BE_PUBLISH` (R174). -/
def bePublish (p : Pkt) : Except EncStop Bytes := do
  let topic ← encTextReg p.topic
  let mid ← encPublishId p
  let pl ← readReg p.payload
  let rest ← encRest pl
  return topic ++ mid ++ rest

/-- A body that is one message-id (R175). -/
def encMsgId (p : Pkt) : Except EncStop Bytes := do
  let w ← readReg p.msgId
  return encWord w

/-- The loop of `BE_SUBSCRIBE` (R179), first entry first. -/
def encSubs : List (Text × Byte) → Except EncStop Bytes
  | [] => .ok []
  | (t, q) :: l => do
    let b ← encText t
    let rest ← encSubs l
    return b ++ encByte q ++ rest

/-- `BE_SUBSCRIBE` (R179). -/
def beSubscribe (p : Pkt) : Except EncStop Bytes := do
  let w ← readReg p.msgId
  let l ← readReg p.subs
  let rest ← encSubs l
  return encWord w ++ rest

/-- `BE_SUBACK` (R180): one byte per entry. -/
def beSuback (p : Pkt) : Except EncStop Bytes := do
  let w ← readReg p.msgId
  let l ← readReg p.granted
  return encWord w ++ l.flatMap encByte

/-- The loop of `BE_UNSUBSCRIBE` (R181), first entry first. -/
def encTopics : List Text → Except EncStop Bytes
  | [] => .ok []
  | t :: l => do
    let b ← encText t
    let rest ← encTopics l
    return b ++ rest

/-- `BE_UNSUBSCRIBE` (R181). -/
def beUnsubscribe (p : Pkt) : Except EncStop Bytes := do
  let w ← readReg p.msgId
  let l ← readReg p.topics
  let rest ← encTopics l
  return encWord w ++ rest

/-- The no-op body codec of pingreq, pingresp and disconnect (R183). -/
def beEmpty : Except EncStop Bytes := .ok []

/-- `BODY_ENC` (R170): the dispatch over the 14 tags, no default arm. -/
def bodyEnc (b : Build) (tag : Tag) (p : Pkt) : Except EncStop Bytes :=
  match tag with
  | .connect => beConnect p
  | .connack => beConnack b.connackPad p
  | .publish => bePublish p
  | .puback => encMsgId p
  | .pubrec => encMsgId p
  | .pubrel => encMsgId p
  | .pubcomp => encMsgId p
  | .subscribe => beSubscribe p
  | .suback => beSuback p
  | .unsubscribe => beUnsubscribe p
  | .unsuback => encMsgId p
  | .pingreq => beEmpty
  | .pingresp => beEmpty
  | .disconnect => beEmpty

/-- One body encoder run on the working state: the body is appended to the image (R29). -/
def State.imageStep (s : State) (op : Pkt → Except EncStop Bytes) : Host.Outcome State Fault Refusal :=
  s.encStep fun p w => do
    let body ← op p
    return { w with image := w.image ++ body }

/-- `BE_CONNECT` (R172). -/
def execBeConnect (_h : Hdr) (s : State) : Host.Outcome State Fault Refusal :=
  s.imageStep beConnect

/-- `BE_CONNACK` (R173). -/
def execBeConnack (_h : Hdr) (s : State) : Host.Outcome State Fault Refusal :=
  s.imageStep (beConnack s.build.connackPad)

/-- `BE_PUBLISH` (R174). -/
def execBePublish (_h : Hdr) (s : State) : Host.Outcome State Fault Refusal :=
  s.imageStep bePublish

/-- `BE_PUBACK` (R175). -/
def execBePuback (_h : Hdr) (s : State) : Host.Outcome State Fault Refusal :=
  s.imageStep encMsgId

/-- `BE_PUBREC` (R176). -/
def execBePubrec (_h : Hdr) (s : State) : Host.Outcome State Fault Refusal :=
  s.imageStep encMsgId

/-- `BE_PUBREL` (R177). -/
def execBePubrel (_h : Hdr) (s : State) : Host.Outcome State Fault Refusal :=
  s.imageStep encMsgId

/-- `BE_PUBCOMP` (R178). -/
def execBePubcomp (_h : Hdr) (s : State) : Host.Outcome State Fault Refusal :=
  s.imageStep encMsgId

/-- `BE_SUBSCRIBE` (R179). -/
def execBeSubscribe (_h : Hdr) (s : State) : Host.Outcome State Fault Refusal :=
  s.imageStep beSubscribe

/-- `BE_SUBACK` (R180). -/
def execBeSuback (_h : Hdr) (s : State) : Host.Outcome State Fault Refusal :=
  s.imageStep beSuback

/-- `BE_UNSUBSCRIBE` (R181). -/
def execBeUnsubscribe (_h : Hdr) (s : State) : Host.Outcome State Fault Refusal :=
  s.imageStep beUnsubscribe

/-- `BE_UNSUBACK` (R182). -/
def execBeUnsuback (_h : Hdr) (s : State) : Host.Outcome State Fault Refusal :=
  s.imageStep encMsgId

/-- `BE_PINGREQ` (R183). -/
def execBePingreq (_h : Hdr) (s : State) : Host.Outcome State Fault Refusal :=
  s.imageStep fun _ => beEmpty

/-- `BE_PINGRESP` (R184). -/
def execBePingresp (_h : Hdr) (s : State) : Host.Outcome State Fault Refusal :=
  s.imageStep fun _ => beEmpty

/-- `BE_DISCONNECT` (R185). -/
def execBeDisconnect (_h : Hdr) (s : State) : Host.Outcome State Fault Refusal :=
  s.imageStep fun _ => beEmpty

/-- `BODY_ENC` (R170). -/
def execBodyEnc (t : Tag) (s : State) : Host.Outcome State Fault Refusal :=
  s.imageStep (bodyEnc s.build t)

/-- `REQ_CHECK` (R171): it raises `MissingRequiredField(0)` or changes nothing. -/
def execReqCheck (t : Tag) (s : State) : Host.Outcome State Fault Refusal :=
  if reqOk t s.pkt then .next s else .next (s.enterError false ⟨.missingRequiredField, 0⟩)

end Sys2Proof.Machine
end

