-- ==== Sys2Proof/Machine/RemainingLength.lean ====
section
/-! DEFINITION. The remaining-length decoder, lax and strict, and encoder (R120 to R122, 41_remaining_length.md), and their meanings. -/

namespace Sys2Proof.Machine

/-- The loop variables of `RL_DEC` (R120). -/
structure RlState where
  cur : Nat
  acc : Nat
  mult : Nat
  count : Nat
deriving DecidableEq, Repr

/-- The variables after the byte at the cursor has been read (R120): the low 7 bits times `mult` are added. -/
def rlNext (buf : Bytes) (st : RlState) : RlState where
  cur := st.cur + 1
  acc := st.acc + (extractBits (byteAt buf st.cur) 6 0).toNat * st.mult
  mult := st.mult * 128
  count := st.count + 1

/-- The loop of `RL_DEC` with the passes that are left: it stops at a byte with bit 7 clear, or after the
4th byte, where strict mode raises (R120, R121). No 5th byte is read. -/
def rlLoop (buf : Bytes) (lim start : Nat) (strict : Bool) : Nat → RlState → Except Err RlState
  | 0, st => .ok st
  | passes + 1, st =>
    if lim - st.cur < 1 then .error ⟨.truncatedInput, start⟩
    else if flagAt (byteAt buf st.cur) 7 = false then .ok (rlNext buf st)
    else if passes = 0 then
      if strict then .error ⟨.malformedRemainingLength, start⟩ else .ok (rlNext buf st)
    else rlLoop buf lim start strict passes (rlNext buf st)

/-- `RL_DEC(IB, cur, lim, strict)` (R120): at most 4 passes. -/
def rlDec (buf : Bytes) (cur lim : Nat) (strict : Bool) : Except Err RlState :=
  rlLoop buf lim cur strict 4 ⟨cur, 0, 1, 0⟩

/-- The emission loop of `RL_ENC` (R122), with the passes that are left after this one. -/
def rlDigits : Nat → Nat → Bytes
  | passes, x =>
    if x / 128 > 0 then
      match passes with
      | 0 => []
      | p + 1 => BitVec.ofNat 8 (x % 128 + 128) :: rlDigits p (x / 128)
    else [BitVec.ofNat 8 (x % 128)]

/-- `RL_ENC(x)` (R122): 1 to 4 bytes, an operand above `RL_MAX` raises. -/
def rlEnc (x : Nat) : Except EncStop Bytes :=
  if x > rlMax then .error (.raise .lengthOutOfRange) else .ok (rlDigits 3 x)

/-- The working state after `RL_DEC`: the loop variables, and the value returned. -/
def Work.withRl (w : Work) (st : RlState) : Work :=
  { w with cur := st.cur, acc := st.acc, mult := st.mult, count := st.count, result := .length st.acc }

/-- `RL_DEC` (R120) at the cursor, strict as `CFG.RL_STRICT` says. -/
def execRlDec (s : State) : Host.Outcome State Fault Refusal :=
  s.decStep s.working.lim fun buf w => do
    let st ← rlDec buf w.cur w.lim s.strict
    return w.withRl st

/-- `RL_DEC_STRICT`: `RL_DEC` with `RL_STRICT` = 1 (R121). -/
def execRlDecStrict (s : State) : Host.Outcome State Fault Refusal :=
  s.decStep s.working.lim fun buf w => do
    let st ← rlDec buf w.cur w.lim true
    return w.withRl st

/-- `RL_ENC` (R122): the field is appended to the image. -/
def execRlEnc (x : Nat) (s : State) : Host.Outcome State Fault Refusal :=
  s.encStep fun _ w => do
    let b ← rlEnc x
    return { w with image := w.image ++ b }

end Sys2Proof.Machine
end

