-- ==== Sys2Proof/Machine/FixedHeader.lean ====
section
/-! DEFINITION. The type-code lookups, the fixed-header decoder and encoder and the invalid type codes (R130 to R132, 42_fixed_header.md; R202, 60_exceptions.md), and their meanings. -/

namespace Sys2Proof.Machine

/-- `FH_DEC(IB, IB_LEN, strict)` (R131), the tests in the order of its pseudocode. The type codes outside the
table are 0 and 15 (R80). -/
def fhDec (tc : List Tag) (strict : Bool) (buf : Bytes) : Except Err Header :=
  if buf.length < 1 then .error ⟨.truncatedInput, 0⟩
  else
    match lookupTag tc (headerCode (byteAt buf 0)) with
    | none => .error ⟨.unknownPacketType, 0⟩
    | some tag =>
      if (headerFlags (byteAt buf 0)).qos = 3 then .error ⟨.reservedQoS, 0⟩
      else
        match rlDec buf 1 buf.length strict with
        | .error e => .error e
        | .ok rl =>
          if buf.length - rl.cur < rl.acc then .error ⟨.truncatedInput, rl.cur⟩
          else .ok ⟨tag, headerFlags (byteAt buf 0), rl.cur, rl.acc⟩

/-- `FH_ENC(tag, dup, qos, retain, body)` (R132). -/
def fhEnc (tc : List Tag) (tag : Tag) (flags : Hdr) (body : Bytes) : Except EncStop Bytes := do
  let rl ← rlEnc body.length
  return headerByte (lookupCode tc tag) flags :: (rl ++ body)

/-- Type code 0: raise `UnknownPacketType(0)` (R202). -/
def execInvalidType0 (_h : Hdr) (s : State) : Host.Outcome State Fault Refusal :=
  .next (s.enterError true ⟨.unknownPacketType, 0⟩)

/-- Type code 15: raise `UnknownPacketType(0)` (R202). -/
def execInvalidType15 (_h : Hdr) (s : State) : Host.Outcome State Fault Refusal :=
  .next (s.enterError true ⟨.unknownPacketType, 0⟩)

/-- `TAG_OF(code)` (R130): defined for the codes of the table only. -/
def execTagOf (code : BitVec 4) (s : State) : Host.Outcome State Fault Refusal :=
  match lookupTag s.build.typeCode code with
  | some t => s.valStep (.tag t)
  | none => .refused .codeWithoutTag

/-- `CODE_OF(tag)` (R130): total. -/
def execCodeOf (t : Tag) (s : State) : Host.Outcome State Fault Refusal :=
  s.valStep (.code (lookupCode s.build.typeCode t))

/-- `FH_DEC` (R131): from offset 0, bounded by `IB_LEN`; the cursor goes to `h` (R28). -/
def execFhDec (s : State) : Host.Outcome State Fault Refusal :=
  s.decStep s.ibLen.toNat fun buf w => do
    let hd ← fhDec s.build.typeCode s.strict buf
    return { w with cur := hd.h, result := .header hd }

/-- `FH_ENC` (R132): the image built so far is the body; the header is put before it (R29). -/
def execFhEnc (t : Tag) (h : Hdr) (s : State) : Host.Outcome State Fault Refusal :=
  s.encStep fun _ w => do
    let image ← fhEnc s.build.typeCode t h w.image
    return { w with image := image }

end Sys2Proof.Machine
end

