-- ==== Sys2Proof/Machine/Commands.lean ====
section
/-! DEFINITION. The pure functions decode and encode (R190, R191) and the commands as state transitions (R193, 46_commands.md), with the reserved CMD values (R34). -/

namespace Sys2Proof.Machine

/-- The shadow packet at the entry of the body (R190): all valid bits 0, then the type and the flags of the header. -/
def shadowOf (tc : List Tag) (hd : Header) : Pkt :=
  { Pkt.empty with ptype := some (lookupCode tc hd.tag), dup := hd.flags.dup, qos := hd.flags.qos, retain := hd.flags.retain }

/-- `decode(buf, cfg)` (R190): the register file `PKT'` and the number of bytes consumed, `lim = h + N` (R192). -/
def decodePacket (b : Build) (strict : Bool) (buf : Bytes) : Except Err (Pkt × Nat) := do
  let hd ← fhDec b.typeCode strict buf
  let (_, p) ← bodyDec b hd.tag buf hd.h (hd.h + hd.n) hd.flags.qos (shadowOf b.typeCode hd)
  return (p, hd.h + hd.n)

/-- The body and the image of a tag whose required registers have been checked (R191, its last lines). -/
def encodeChecked (b : Build) (tag : Tag) (p : Pkt) : Except EncStop Bytes := do
  let body ← bodyEnc b tag p
  if body.length > rlMax then .error (.raise .lengthOutOfRange)
  else
    let image ← fhEnc b.typeCode tag ⟨p.dup, p.qos, p.retain⟩ body
    if image.length > b.obCap then .error (.raise .capacityExceeded) else .ok image

/-- `encode(PKT, cfg)` (R191), the tests in the order of its pseudocode. -/
def encodePacket (b : Build) (p : Pkt) : Except EncStop Bytes :=
  match p.ptype with
  | none => .error (.raise .missingRequiredField)
  | some code =>
    match lookupTag b.typeCode code with
    | none => .error (.raise .unknownPacketType)
    | some tag =>
      if p.qos = 3 then .error (.raise .reservedQoS)
      else do
        reqCheck tag p
        encodeChecked b tag p

/-- A DECODE from its start to its end (R193): the commit, or the error entry. -/
def State.runDecode (s : State) : State :=
  match decodePacket s.build s.strict s.input with
  | .ok (p, n) => s.commitDecode p n
  | .error e => s.enterError true e

/-- An ENCODE from its start to its end (R193). -/
def State.runEncode (s : State) : Host.Outcome State Fault Refusal :=
  match encodePacket s.build s.pkt with
  | .ok image => .next (s.commitEncode image)
  | .error (.raise k) => .next (s.enterError false ⟨k, 0⟩)
  | .error .invalidRegister => .refused .invalidRegister

/-- `CMD` = 0: reserved, no step (R34). -/
def execCmdReserved0 (_s : State) : Host.Outcome State Fault Refusal := .refused (.reservedCommand 0)

/-- `CMD` = 1, DECODE (R190, R193). A write while BUSY is ignored (R240; log entry 6). -/
def execDecode (s : State) : Host.Outcome State Fault Refusal :=
  if s.busy then .next s
  else if s.inputOk s.ibLen.toNat then .next s.startCommand.runDecode
  else .fault .inputBeyondBuffer

/-- `CMD` = 2, ENCODE (R191, R193). A write while BUSY is ignored (R240; log entry 6). -/
def execEncode (s : State) : Host.Outcome State Fault Refusal :=
  if s.busy then .next s else s.startCommand.runEncode

/-- `CMD` = 3: reserved, no step (R34). -/
def execCmdReserved3 (_s : State) : Host.Outcome State Fault Refusal := .refused (.reservedCommand 3)

end Sys2Proof.Machine
end

