-- ==== Sys2Proof/Machine/ConnectFlags.lean ====
section
/-! DEFINITION. The meanings of the connect-flags operations (R140 to R142, 43_connect_flags.md); the computations stand in Flags.lean. -/

namespace Sys2Proof.Machine

/-- `CF_DEC(f)` (R140): the flags are returned; every byte decodes. -/
def execCfDec (f : Byte) (s : State) : Host.Outcome State Fault Refusal :=
  s.valStep (.flags (cfDec f))

/-- `CF_ENC` (R141): the byte is returned. -/
def execCfEnc (fl : ConnFlags) (s : State) : Host.Outcome State Fault Refusal :=
  s.valStep (.byte (cfEnc fl))

/-- `CF_DERIVE(PKT)` (R142): the flags are returned. -/
def execCfDerive (s : State) : Host.Outcome State Fault Refusal :=
  s.encStep fun p w => do
    let fl ← cfDerive p
    return { w with result := .flags fl }

end Sys2Proof.Machine
end

