-- ==== Sys2Proof/Machine/Primitives.lean ====
section
/-! DEFINITION. The meanings of the primitive field operations and of the bit-field extractor (R100 to R110, 40_primitives.md). -/

namespace Sys2Proof.Machine

/-- `EXTRACT` (R100): the value is returned; total. -/
def execExtract (b : Byte) (hi lo : Fin 8) (s : State) : Host.Outcome State Fault Refusal :=
  s.valStep (.byte (extractBits b hi.val lo.val))

/-- `INSERT` (R101): the value is returned; total. -/
def execInsert (fs : List BitField) (s : State) : Host.Outcome State Fault Refusal :=
  s.valStep (.byte (insertBits fs))

/-- `DEC_BYTE` (R102) at the cursor. -/
def execDecByte (s : State) : Host.Outcome State Fault Refusal :=
  s.decStep s.working.lim fun buf w => do
    let (v, cur) ← decByte buf w.cur w.lim
    return { w with cur := cur, result := .byte v }

/-- `DEC_WORD` (R103) at the cursor. -/
def execDecWord (s : State) : Host.Outcome State Fault Refusal :=
  s.decStep s.working.lim fun buf w => do
    let (v, cur) ← decWord buf w.cur w.lim
    return { w with cur := cur, result := .word v }

/-- `DEC_TEXT` (R104) at the cursor. -/
def execDecText (s : State) : Host.Outcome State Fault Refusal :=
  s.decStep s.working.lim fun buf w => do
    let (t, cur) ← decText buf w.cur w.lim
    return { w with cur := cur, result := .text t }

/-- `DEC_REST` (R105) at the cursor. -/
def execDecRest (s : State) : Host.Outcome State Fault Refusal :=
  s.decStep s.working.lim fun buf w => do
    let (t, cur) ← decRest buf w.cur w.lim
    return { w with cur := cur, result := .text t }

/-- `UTF8_OK` (R106): the boolean is returned; total. -/
def execUtf8Ok (t : Bytes) (s : State) : Host.Outcome State Fault Refusal :=
  s.valStep (.bool (utf8Ok t))

/-- `ENC_BYTE` (R107): the byte is appended to the image (R29). -/
def execEncByte (v : Byte) (s : State) : Host.Outcome State Fault Refusal :=
  s.encStep fun _ w => .ok { w with image := w.image ++ encByte v }

/-- `ENC_WORD` (R108): the word is appended to the image. -/
def execEncWord (v : Word) (s : State) : Host.Outcome State Fault Refusal :=
  s.encStep fun _ w => .ok { w with image := w.image ++ encWord v }

/-- `ENC_TEXT` (R109): the length and the bytes are appended to the image. -/
def execEncText (t : Bytes) (s : State) : Host.Outcome State Fault Refusal :=
  s.encStep fun _ w => do
    let b ← encText t
    return { w with image := w.image ++ b }

/-- `ENC_REST` (R110): the bytes are appended to the image. -/
def execEncRest (t : Bytes) (s : State) : Host.Outcome State Fault Refusal :=
  s.encStep fun _ w => do
    let b ← encRest t
    return { w with image := w.image ++ b }

end Sys2Proof.Machine
end

