-- ==== Sys2Proof/Machine/Dispatch.lean ====
section
/-! DEFINITION. exec: one arm per instruction, one direct call of its meaning. -/

namespace Sys2Proof.Machine

def exec (i : Instr) (s : State) : Host.Outcome State Fault Refusal :=
  match i with
  | .invalidType0 h => Sys2Proof.Machine.execInvalidType0 h s
  | .bdConnect h => Sys2Proof.Machine.execBdConnect h s
  | .beConnect h => Sys2Proof.Machine.execBeConnect h s
  | .bdConnack h => Sys2Proof.Machine.execBdConnack h s
  | .beConnack h => Sys2Proof.Machine.execBeConnack h s
  | .bdPublish h => Sys2Proof.Machine.execBdPublish h s
  | .bePublish h => Sys2Proof.Machine.execBePublish h s
  | .bdPuback h => Sys2Proof.Machine.execBdPuback h s
  | .bePuback h => Sys2Proof.Machine.execBePuback h s
  | .bdPubrec h => Sys2Proof.Machine.execBdPubrec h s
  | .bePubrec h => Sys2Proof.Machine.execBePubrec h s
  | .bdPubrel h => Sys2Proof.Machine.execBdPubrel h s
  | .bePubrel h => Sys2Proof.Machine.execBePubrel h s
  | .bdPubcomp h => Sys2Proof.Machine.execBdPubcomp h s
  | .bePubcomp h => Sys2Proof.Machine.execBePubcomp h s
  | .bdSubscribe h => Sys2Proof.Machine.execBdSubscribe h s
  | .beSubscribe h => Sys2Proof.Machine.execBeSubscribe h s
  | .bdSuback h => Sys2Proof.Machine.execBdSuback h s
  | .beSuback h => Sys2Proof.Machine.execBeSuback h s
  | .bdUnsubscribe h => Sys2Proof.Machine.execBdUnsubscribe h s
  | .beUnsubscribe h => Sys2Proof.Machine.execBeUnsubscribe h s
  | .bdUnsuback h => Sys2Proof.Machine.execBdUnsuback h s
  | .beUnsuback h => Sys2Proof.Machine.execBeUnsuback h s
  | .bdPingreq h => Sys2Proof.Machine.execBdPingreq h s
  | .bePingreq h => Sys2Proof.Machine.execBePingreq h s
  | .bdPingresp h => Sys2Proof.Machine.execBdPingresp h s
  | .bePingresp h => Sys2Proof.Machine.execBePingresp h s
  | .bdDisconnect h => Sys2Proof.Machine.execBdDisconnect h s
  | .beDisconnect h => Sys2Proof.Machine.execBeDisconnect h s
  | .invalidType15 h => Sys2Proof.Machine.execInvalidType15 h s
  | .cmdReserved0 => Sys2Proof.Machine.execCmdReserved0 s
  | .decode => Sys2Proof.Machine.execDecode s
  | .encode => Sys2Proof.Machine.execEncode s
  | .cmdReserved3 => Sys2Proof.Machine.execCmdReserved3 s
  | .extract b hi lo => Sys2Proof.Machine.execExtract b hi lo s
  | .insert fs => Sys2Proof.Machine.execInsert fs s
  | .decByte => Sys2Proof.Machine.execDecByte s
  | .decWord => Sys2Proof.Machine.execDecWord s
  | .decText => Sys2Proof.Machine.execDecText s
  | .decRest => Sys2Proof.Machine.execDecRest s
  | .utf8Ok t => Sys2Proof.Machine.execUtf8Ok t s
  | .encByte v => Sys2Proof.Machine.execEncByte v s
  | .encWord v => Sys2Proof.Machine.execEncWord v s
  | .encText t => Sys2Proof.Machine.execEncText t s
  | .encRest t => Sys2Proof.Machine.execEncRest t s
  | .rlDec => Sys2Proof.Machine.execRlDec s
  | .rlDecStrict => Sys2Proof.Machine.execRlDecStrict s
  | .rlEnc x => Sys2Proof.Machine.execRlEnc x s
  | .tagOf code => Sys2Proof.Machine.execTagOf code s
  | .codeOf t => Sys2Proof.Machine.execCodeOf t s
  | .fhDec => Sys2Proof.Machine.execFhDec s
  | .fhEnc t h => Sys2Proof.Machine.execFhEnc t h s
  | .cfDec f => Sys2Proof.Machine.execCfDec f s
  | .cfEnc fl => Sys2Proof.Machine.execCfEnc fl s
  | .cfDerive => Sys2Proof.Machine.execCfDerive s
  | .bodyDec t qos => Sys2Proof.Machine.execBodyDec t qos s
  | .bodyEnc t => Sys2Proof.Machine.execBodyEnc t s
  | .reqCheck t => Sys2Proof.Machine.execReqCheck t s

end Sys2Proof.Machine
end

