-- ==== Sys2Proof/Machine/Fetch.lean ====
section
/-! DEFINITION. Where a step finds what it runs: the pending CMD write (R34, R85), and how a table word is placed for the next step (log entry 7). -/

namespace Sys2Proof.Machine

/-- The instruction the pending `CMD` write selects (R34, R85). -/
def State.fetch (s : State) : Option Instr := s.cmd.map decodeCmd

/-- The block has taken up the `CMD` write. -/
def State.takeCommand (s : State) : State := { s with cmd := none }

/-- The `n` low bytes of a table word, bits 7:0 first. -/
def tableBytes : Nat → Nat → Bytes
  | 0, _ => []
  | n + 1, w => BitVec.ofNat 8 (w % 256) :: tableBytes n (w / 256)

/-- The state in which the next step runs a table word: a value below 4 is a `CMD` code; any other is byte 0
of a packet image whose further bytes are 0 (a remaining length of 0), run by a DECODE. -/
def State.placeWord (s : State) (nbits w : Nat) : State :=
  if w < 4 then s.writeCmd (BitVec.ofNat 2 w)
  else
    let image := tableBytes (max 2 ((nbits + 7) / 8)) w
    State.writeCmd { s with ib := s.ib.writeBytes 0 image, ibLen := BitVec.ofNat 29 image.length } 1

end Sys2Proof.Machine
end

