-- ==== Sys2Proof/Machine/HostPort.lean ====
section
/-! DEFINITION. The host's side of the block: its writes of registers and buffers with their access rights (R25, R34, R38, R41, 10_state.md), the hazards while BUSY (R240, R241), and reset at any time (R230, 70_reset_and_hazards.md). These are inputs of the machine, not instructions. -/

namespace Sys2Proof.Machine

/-- A write of one packet register; `none` clears its valid bit (R25). -/
inductive PktWrite where
  | ptype (v : Option (BitVec 4))
  | dup (v : Bool)
  | qos (v : BitVec 2)
  | retain (v : Bool)
  | protoName (v : Option Text)
  | protoVer (v : Option Byte)
  | cleanSession (v : Option Bool)
  | keepAlive (v : Option Word)
  | clientId (v : Option Text)
  | willTopic (v : Option Text)
  | willMessage (v : Option Text)
  | willQos (v : Option (BitVec 2))
  | willRetain (v : Option Bool)
  | username (v : Option Text)
  | password (v : Option Text)
  | returnCode (v : Option Byte)
  | topic (v : Option Text)
  | msgId (v : Option Word)
  | payload (v : Option Bytes)
  | subs (v : Option (List (Text × Byte)))
  | granted (v : Option (List Byte))
  | topics (v : Option (List Text))
deriving DecidableEq, Repr

/-- Everything the host may write (R41). `STATUS`, `ERRCODE`, `ERRPOS`, `CONSUMED`, `OB` and `OB_LEN` are read-only to it. -/
inductive HostWrite where
  | reg (w : PktWrite)
  | ib (a : Nat) (b : Byte)
  | ibLen (n : Offset)
  | cfg (v : BitVec 1)
  | cmd (code : BitVec 2)
  | reset
deriving DecidableEq, Repr

/-- A Text register holds at most 65535 bytes (R23). -/
def textFits (t : Text) : Bool := decide (t.length ≤ textMax)

/-- A list register holds at most `LIST_CAP` entries (R23). -/
def countFits (cap : Option Nat) (n : Nat) : Bool :=
  match cap with
  | some c => decide (n ≤ c)
  | none => true

/-- The value fits its register (R23). -/
def PktWrite.fits (cap : Option Nat) : PktWrite → Bool
  | .ptype _ | .dup _ | .qos _ | .retain _ | .protoVer _ | .cleanSession _ | .keepAlive _ | .willQos _ | .willRetain _
  | .returnCode _ | .msgId _ => true
  | .protoName v | .clientId v | .willTopic v | .willMessage v | .username v | .password v | .topic v => v.all textFits
  | .payload v => v.all fun t => decide (t.length ≤ rlMax)
  | .subs v => v.all fun l => countFits cap l.length && l.all fun e => textFits e.1
  | .granted v => v.all fun l => countFits cap l.length
  | .topics v => v.all fun l => countFits cap l.length && l.all textFits

/-- The register file after the write. -/
def PktWrite.apply (w : PktWrite) (p : Pkt) : Pkt :=
  match w with
  | .ptype v => { p with ptype := v }
  | .dup v => { p with dup := v }
  | .qos v => { p with qos := v }
  | .retain v => { p with retain := v }
  | .protoName v => { p with protoName := v }
  | .protoVer v => { p with protoVer := v }
  | .cleanSession v => { p with cleanSession := v }
  | .keepAlive v => { p with keepAlive := v }
  | .clientId v => { p with clientId := v }
  | .willTopic v => { p with willTopic := v }
  | .willMessage v => { p with willMessage := v }
  | .willQos v => { p with willQos := v }
  | .willRetain v => { p with willRetain := v }
  | .username v => { p with username := v }
  | .password v => { p with password := v }
  | .returnCode v => { p with returnCode := v }
  | .topic v => { p with topic := v }
  | .msgId v => { p with msgId := v }
  | .payload v => { p with payload := v }
  | .subs v => { p with subs := v }
  | .granted v => { p with granted := v }
  | .topics v => { p with topics := v }

/-- A host write while no command is under way (R41); a write of 1 or 2 to `CMD` clears DONE and ERR at once (R35, R212). -/
def State.hostWriteIdle (s : State) (w : HostWrite) : Host.Outcome State Fault Refusal :=
  match w with
  | .reg r => if r.fits s.build.listCap then .next { s with pkt := r.apply s.pkt } else .refused .valueTooWide
  | .ib a b => if a < s.build.ibCap then .next { s with ib := s.ib.write a b } else .fault .beyondCapacity
  | .ibLen n => if n.toNat ≤ s.build.ibCap then .next { s with ibLen := n } else .fault .beyondCapacity
  | .cfg v => .next { s with cfg := v }
  | .cmd c => .next (s.writeCmd c)
  | .reset => .next (State.resetOf s.build)

/-- A command is under way: BUSY is 1, or a `CMD` write waits for the next step (R35: BUSY is 1 from the write of
`CMD` until the command ends; log entry 4). -/
def State.underWay (s : State) : Bool := s.busy || s.cmd.isSome

/-- A host write: while a command is under way, a reset is taken (R230), a write of `CMD` is ignored (R240; log entry 6),
and any other write has no meaning (R241). -/
def State.hostWrite (s : State) (w : HostWrite) : Host.Outcome State Fault Refusal :=
  if s.underWay then
    match w with
    | .reset => .next (State.resetOf s.build)
    | .cmd _ => .next s
    | .reg _ | .ib _ _ | .ibLen _ | .cfg _ => .refused .hostWriteWhileBusy
  else s.hostWriteIdle w

end Sys2Proof.Machine
end

