-- ==== Sys2Proof/Machine/Step.lean ====
section
/-! DEFINITION. One step of the block: it takes up the host's CMD write, if there is one, and runs that command to its end (R17, R34, R193). withFetchWord sets up a table word so that the next step runs it. -/

namespace Sys2Proof.Machine

/-- One step. Without a `CMD` write the block is idle and does nothing (R231); with one, it runs the
instruction that `CMD` selects (R85) as one indivisible step (R193). -/
def step (s : State) : Host.Outcome State Fault Refusal :=
  match s.fetch with
  | none => .next s
  | some i => exec i s.takeCommand

/-- Store the instruction of a table word where the next step fetches it (log entry 7): a `CMD` code becomes
the pending `CMD` write; a header byte becomes byte 0 of a packet image in `IB`, with a DECODE pending, so that the
DECODE's dispatch runs the row's procedure. -/
def State.withFetchWord (s : State) (nbits w : Nat) : State := s.placeWord nbits w

end Sys2Proof.Machine
end

