-- ==== Sys2Proof/Machine/Packet.lean ====
section
/-! DEFINITION. The Packet as an algebraic value (R20, R21, 10_state.md), its relation to the register file (R26), its well-formedness (R27) and the canonical form an encode gives it (R194, 46_commands.md). -/

namespace Sys2Proof.Machine

/-- The four will attributes, one optional unit (R21; 90_conflicts.md C4). -/
structure Will where
  topic : Text
  message : Text
  qos : BitVec 2
  retain : Bool
deriving DecidableEq, Repr

/-- The variant fields of a Packet (R21). -/
inductive Body where
  | connect (protoName : Text) (protoVer : Byte) (cleanSession : Bool) (keepAlive : Word) (clientId : Text)
      (will : Option Will) (username password : Option Text)
  | connack (returnCode : Byte)
  | publish (topic : Text) (msgId : Option Word) (payload : Bytes)
  | msgIdOnly (msgId : Word)
  | subscribe (msgId : Word) (subs : List (Text × Byte))
  | suback (msgId : Word) (granted : List Byte)
  | unsubscribe (msgId : Word) (topics : List Text)
  | empty
deriving DecidableEq, Repr

/-- A Packet (R20, R21). -/
structure Packet where
  tag : Tag
  dup : Bool
  qos : BitVec 2
  retain : Bool
  body : Body
deriving DecidableEq, Repr

/-- `will = Some` iff all four will registers are valid (R26). -/
def willOf (p : Pkt) : Option Will :=
  match p.willTopic, p.willMessage, p.willQos, p.willRetain with
  | some t, some m, some q, some r => some ⟨t, m, q, r⟩
  | _, _, _, _ => none

/-- The body built from a type's registers (R26). -/
def bodyOf (t : Tag) (p : Pkt) : Option Body :=
  match t with
  | .connect => do
    let name ← p.protoName
    let ver ← p.protoVer
    let cs ← p.cleanSession
    let ka ← p.keepAlive
    let cid ← p.clientId
    return .connect name ver cs ka cid (willOf p) p.username p.password
  | .connack => p.returnCode.map .connack
  | .publish => do
    let topic ← p.topic
    let pl ← p.payload
    return .publish topic (if p.qos = 0 then none else p.msgId) pl
  | .puback => p.msgId.map .msgIdOnly
  | .pubrec => p.msgId.map .msgIdOnly
  | .pubrel => p.msgId.map .msgIdOnly
  | .pubcomp => p.msgId.map .msgIdOnly
  | .subscribe => do
    let m ← p.msgId
    let l ← p.subs
    return .subscribe m l
  | .suback => do
    let m ← p.msgId
    let l ← p.granted
    return .suback m l
  | .unsubscribe => do
    let m ← p.msgId
    let l ← p.topics
    return .unsubscribe m l
  | .unsuback => p.msgId.map .msgIdOnly
  | .pingreq => some .empty
  | .pingresp => some .empty
  | .disconnect => some .empty

/-- `packet_of(PKT)` (R26): defined when the type is valid and in the table, qos is not 3 and the required
registers of the type are valid. -/
def packetOf (b : Build) (p : Pkt) : Option Packet := do
  let code ← p.ptype
  let tag ← lookupTag b.typeCode code
  if p.qos ≠ 3 ∧ reqOk tag p = true then
    let body ← bodyOf tag p
    return ⟨tag, p.dup, p.qos, p.retain, body⟩
  else none

/-- A present, empty text becomes absent (R142, R194). -/
def dropEmpty (t : Option Text) : Option Text :=
  match t with
  | some [] => none
  | _ => t

/-- `canon` (R194): an empty username or password of a connect becomes absent. -/
def Packet.canon (p : Packet) : Packet :=
  match p.body with
  | .connect n v c k i w u pw => { p with body := .connect n v c k i w (dropEmpty u) (dropEmpty pw) }
  | .connack _ | .publish _ _ _ | .msgIdOnly _ | .subscribe _ _ | .suback _ _ | .unsubscribe _ _ | .empty => p

/-- A Text is well-formed UTF-8 of at most 65535 bytes (R27). -/
def textWf (t : Text) : Bool := decide (t.length ≤ textMax) && utf8Ok t

/-- The fields of a body are well-formed (R27), and the constructor is the one of the tag (R20, R21). -/
def Packet.wf (p : Packet) : Bool :=
  p.qos != 3 &&
  match p.tag, p.body with
  | .connect, .connect n _ _ _ i w u pw =>
    textWf n && textWf i && w.all (fun x => textWf x.topic && textWf x.message) && u.all textWf && pw.all textWf
  | .connack, .connack _ => true
  | .publish, .publish t m pl => textWf t && utf8Ok pl && decide (pl.length ≤ rlMax) && (m.isSome == (p.qos != 0))
  | .puback, .msgIdOnly _ => true
  | .pubrec, .msgIdOnly _ => true
  | .pubrel, .msgIdOnly _ => true
  | .pubcomp, .msgIdOnly _ => true
  | .subscribe, .subscribe _ l => l.all fun e => textWf e.1
  | .suback, .suback _ _ => true
  | .unsubscribe, .unsubscribe _ l => l.all textWf
  | .unsuback, .msgIdOnly _ => true
  | .pingreq, .empty => true
  | .pingresp, .empty => true
  | .disconnect, .empty => true
  | _, _ => false

/-- The register file of a Packet (R26 read from right to left): only the type's registers are valid. -/
def Packet.regs (b : Build) (p : Packet) : Pkt :=
  let base : Pkt := { Pkt.empty with ptype := some (lookupCode b.typeCode p.tag), dup := p.dup, qos := p.qos, retain := p.retain }
  match p.body with
  | .connect n v c k i w u pw =>
    { base with
      protoName := some n, protoVer := some v, cleanSession := some c, keepAlive := some k, clientId := some i
      willTopic := w.map (·.topic), willMessage := w.map (·.message), willQos := w.map (·.qos), willRetain := w.map (·.retain)
      username := u, password := pw }
  | .connack r => { base with returnCode := some r }
  | .publish t m pl => { base with topic := some t, msgId := m, payload := some pl }
  | .msgIdOnly m => { base with msgId := some m }
  | .subscribe m l => { base with msgId := some m, subs := some l }
  | .suback m l => { base with msgId := some m, granted := some l }
  | .unsubscribe m l => { base with msgId := some m, topics := some l }
  | .empty => base

end Sys2Proof.Machine
end

