-- ==== Sys2Proof/Safety.lean ====
section
/-! DEFINITION. What a sound state of the block is: the invariant of every reachable state, and the widths of the packet registers (R23). -/

namespace Sys2Proof.Machine

/-- The write of 1 or 2 to `CMD` has cleared DONE (R35); `ERR` is written together with `DONE`, and with it the code is the
number of a kind; without it `ERRCODE` and `ERRPOS` are 0, but for a pending command, which keeps what the command before
left in them (R36, R37, R212). -/
abbrev State.StatusSound (s : State) : Prop :=
  (s.cmd = some 1 ∨ s.cmd = some 2 → s.done = false) ∧
  (s.err = true → s.done = true ∧ s.errcode ∈ s.build.errNumbers.toList) ∧
  (s.err = false → s.cmd ≠ some 1 → s.cmd ≠ some 2 → s.errcode = 0 ∧ s.errpos = 0) ∧
  (s.errcode = 0 ∨ s.errcode ∈ s.build.errNumbers.toList)

/-- A sound state between commands: a lawful build, canonical buffers within their capacities (R31, R32, R58),
lengths within the capacities, no command under way (R30, R35), a sound status, and offsets that never wrapped (R28, R33). -/
abbrev State.Sound (s : State) : Prop :=
  s.build.wf = true ∧ s.ib.wf s.build.ibCap = true ∧ s.ob.wf s.build.obCap = true ∧
  s.ibLen.toNat ≤ s.build.ibCap ∧ s.obLen.toNat ≤ s.build.obCap ∧
  s.busy = false ∧ s.work = none ∧ s.StatusSound ∧
  s.consumed.toNat ≤ packetMax ∧ s.errpos.toNat ≤ packetMax

/-- Every packet register holds a value of its width (R23). -/
def Pkt.fits (cap : Option Nat) (p : Pkt) : Bool :=
  p.protoName.all textFits && p.clientId.all textFits && p.willTopic.all textFits && p.willMessage.all textFits
    && p.username.all textFits && p.password.all textFits && p.topic.all textFits
    && p.payload.all (fun t => decide (t.length ≤ rlMax))
    && p.subs.all (fun l => countFits cap l.length && l.all fun e => textFits e.1)
    && p.granted.all (fun l => countFits cap l.length)
    && p.topics.all (fun l => countFits cap l.length && l.all textFits)

/-- A two-byte word on the wire: high byte first (R50, R75). -/
def wireWord (w : Word) : Bytes := [BitVec.ofNat 8 (w.toNat / 256), BitVec.ofNat 8 (w.toNat % 256)]

/-- A text on the wire: its length in bytes as a word, then its bytes (R76). -/
def wireText (t : Text) : Bytes := wireWord (BitVec.ofNat 16 t.length) ++ t

/-- A subscribe entry on the wire (R79). -/
def wireEntry (e : Text × Byte) : Bytes := wireText e.1 ++ [e.2]

/-- The fields of a connect body on the wire (R79): the will, username and password fields stand there iff bits
2, 7 and 6 of the flags byte `f` are set. -/
def wireConnect (name : Text) (ver f : Byte) (ka : Word) (cid wt wm un pw : Text) : Bytes :=
  wireText name ++ [ver, f] ++ wireWord ka ++ wireText cid
    ++ (if f.getLsbD 2 then wireText wt ++ wireText wm else [])
    ++ (if f.getLsbD 7 then wireText un else []) ++ (if f.getLsbD 6 then wireText pw else [])

/-- One field of a body on the wire (R71, R79). -/
inductive WireField where
  | byte (b : Byte)
  | word (w : Word)
  | text (t : Text)
deriving DecidableEq, Repr

/-- The bytes of a field (R75, R76). -/
def WireField.bytes : WireField → Bytes
  | .byte b => [b]
  | .word w => wireWord w
  | .text t => wireText t

/-- A field that its decoder accepts: only a text can be refused for its contents (R102 to R104). -/
def WireField.Ok : WireField → Prop
  | .byte _ => True
  | .word _ => True
  | .text t => t.length ≤ textMax ∧ utf8Ok t = true

/-- The bytes of fields in wire order, without padding (R52). -/
def wireFields (fs : List WireField) : Bytes := fs.flatMap WireField.bytes

/-- The fields of a connect body in wire order (R79, R151). -/
def connectFields (name : Text) (ver f : Byte) (ka : Word) (cid wt wm un pw : Text) : List WireField :=
  [.text name, .byte ver, .byte f, .word ka, .text cid]
    ++ (if f.getLsbD 2 then [.text wt, .text wm] else [])
    ++ (if f.getLsbD 7 then [.text un] else []) ++ (if f.getLsbD 6 then [.text pw] else [])

/-- The fields of a publish body before its payload (R79, R153). -/
def publishFields (q : BitVec 2) (t : Text) (m : Word) : List WireField := .text t :: if q = 0 then [] else [.word m]

/-- The fields of a subscribe body (R79, R158). -/
def subscribeFields (m : Word) (l : List (Text × Byte)) : List WireField :=
  .word m :: l.flatMap fun e => [.text e.1, .byte e.2]

/-- The fields of an unsubscribe body (R79, R160). -/
def unsubscribeFields (m : Word) (l : List Text) : List WireField := .word m :: l.map .text

/-- The value of a remaining-length field: the sum of `digit_j * 128^j` (R74). -/
def rlValue : Bytes → Nat
  | [] => 0
  | b :: f => b.toNat % 128 + 128 * rlValue f

/-- Every byte has its continuation bit set (R74). -/
def allContinue (f : Bytes) : Bool := f.all fun b => decide (128 ≤ b.toNat)

/-- A field that ends at its first byte with bit 7 clear (R74). -/
def rlEnds : Bytes → Bool
  | [] => false
  | [b] => decide (b.toNat < 128)
  | b :: c :: f => decide (128 ≤ b.toNat) && rlEnds (c :: f)

/-- The bytes `bs` stand in `IB` from offset `a` on. -/
def State.Holds (s : State) (a : Nat) (bs : Bytes) : Prop :=
  ∀ i, i < bs.length → s.ib.read (a + i) = bs.getD i 0

/-- The bytes `bs` stand in `IB` from the cursor on, all of them below the bound (R28, R59). -/
def State.InputAt (s : State) (bs : Bytes) : Prop :=
  s.inputOk s.working.lim = true ∧ s.working.cur + bs.length ≤ s.working.lim ∧ s.Holds s.working.cur bs

/-- The bytes `bs` stand in `IB` from the cursor up to the bound, that is, they are the rest of the slice (R77). -/
def State.InputRest (s : State) (bs : Bytes) : Prop :=
  s.InputAt bs ∧ s.working.cur + bs.length = s.working.lim

/-- The field at offset `a` cannot be decoded: it crosses the bound, `TruncatedInput`, or it is a text that fits and is
ill-formed, `InvalidEncoding` (R102 to R104). Of a field that crosses the bound only its kind plays a part. -/
def State.FieldFails (s : State) (a : Nat) (x : WireField) (k : ErrKind) : Prop :=
  match x with
  | .byte _ => k = .truncatedInput ∧ s.working.lim < a + 1
  | .word _ => k = .truncatedInput ∧ s.working.lim < a + 2
  | .text t =>
    (k = .truncatedInput ∧ (s.working.lim < a + 2 ∨ ∃ l : Word, s.Holds a (wireWord l) ∧ s.working.lim < a + 2 + l.toNat)) ∨
    (k = .invalidEncoding ∧ t.length ≤ textMax ∧ utf8Ok t = false ∧ s.Holds a (wireText t) ∧ a + 2 + t.length ≤ s.working.lim)

/-- The fields `fs` of a body fail at the field `x`: those before it, `pre`, stand in the input from the cursor on and are
accepted, and `x` behind them is not, with kind `k` (R209, item 6 of the DECODE order). -/
def State.FailsAt (s : State) (fs pre : List WireField) (x : WireField) (k : ErrKind) : Prop :=
  (∃ post, fs = pre ++ x :: post) ∧ (∀ y ∈ pre, y.Ok) ∧ s.InputAt (wireFields pre) ∧
  s.FieldFails (s.working.cur + (wireFields pre).length) x k

/-- The first text of `ts` in wire order that an encoder refuses is `t` (R172, R179, R181). -/
def firstBad (ts : List Text) (t : Text) : Prop :=
  ∃ pre post, ts = pre ++ t :: post ∧ ∀ u ∈ pre, u.length ≤ textMax ∧ utf8Ok u = true

/-- A byte sequence matches one row of the UTF-8 table (R106): as many bytes as the row has ranges, each in its range. -/
def matchesRow (row : List (Byte × Byte)) (c : Bytes) : Prop :=
  List.Forall₂ (fun r b => r.1.toNat ≤ b.toNat ∧ b.toNat ≤ r.2.toNat) row c

/-- What `decode` gives as a Packet (R190): the Packet of the register file, and the bytes consumed. -/
def decodedPacket (b : Build) (strict : Bool) (buf : Bytes) : Option (Packet × Nat) :=
  match decodePacket b strict buf with
  | .ok (p, n) => (packetOf b p).map fun q => (q, n)
  | .error _ => none

/-- Canonical bytes: an image that ENCODE can produce from a well-formed Packet within the registers' widths (R197). -/
def Canonical (b : Build) (bs : Bytes) : Prop :=
  ∃ q : Packet, q.wf = true ∧ (q.regs b).fits b.listCap = true ∧ encodePacket b (q.regs b) = .ok bs

/-- The conditions under which decoded bytes are canonical, item by item (R197): (a) the remaining-length field is
minimal; (b) the flags byte of a connect is the one its fields call for; (c) no body byte is left over; (d) no byte follows
the packet; (e) the reserved byte of a connack is 00. -/
def CanonicalForm (b : Build) (strict : Bool) (bs : Bytes) : Prop :=
  ∃ hd cur p, fhDec b.typeCode strict bs = .ok hd ∧
    bodyDec b hd.tag bs hd.h (hd.h + hd.n) hd.flags.qos (shadowOf b.typeCode hd) = .ok (cur, p) ∧
    ((byteAt bs (hd.h - 1)).toNat < 128 ∧ (hd.h = 2 ∨ byteAt bs (hd.h - 1) ≠ 0)) ∧
    (hd.tag = .connect → ∀ name f, p.protoName = some name → f = byteAt bs (hd.h + 2 + name.length + 1) →
      f.getLsbD 0 = false ∧ (f.getLsbD 2 = false → f.getLsbD 5 = false ∧ f.toNat / 8 % 4 = 0) ∧
      (f.getLsbD 7 = true → p.username ≠ some []) ∧ (f.getLsbD 6 = true → p.password ≠ some [])) ∧
    cur = hd.h + hd.n ∧ bs.length = hd.h + hd.n ∧
    (hd.tag = .connack → b.connackPad = 1 → byteAt bs hd.h = 0)

end Sys2Proof.Machine
end

