-- ==== Sys2Proof/Certificates/Slice0/Obligations.lean ====
section
/-! DEFINITION. The statements for the provers. Each docstring names the rules of spec/ it formalises. -/

open Sys2Proof Sys2Proof.Machine

/-! ### Instruction words -/

/-- Every well-formed instruction that has a bit pattern is read back from the byte the encoder gives it, at the
port where the block finds it (R73, R80, R85, R130), for every lawful type-code table. -/
def Obligations.DecodeOfEncodeIsTheInstruction : Prop :=
  ∀ (tc : List Tag) (i : Instr) (p : Port) (b : Byte),
    typeCodeWf tc = true → i.wellFormed = true → encodeAt tc i = some (p, b) → decodeAt tc p b = .ok i

/-- A byte that decodes at a port is the byte the encoder gives its instruction: no bit of an encoding is dropped. The
two invalid type codes are encoded at `inputByte` only, though the type register can hold them too (R202). -/
def Obligations.EncodeOfDecodeIsTheByte : Prop :=
  ∀ (tc : List Tag) (p : Port) (b : Byte) (i : Instr), typeCodeWf tc = true → decodeAt tc p b = .ok i →
    i.wellFormed = true ∧
    ∃ q, encodeAt tc i = some (q, b) ∧ (q = p ∨ (p = .typeReg ∧ ((∃ h, i = .invalidType0 h) ∨ ∃ h, i = .invalidType15 h)))

/-- Words written out from the encoding tables (R73, R80, R85) decode to the instructions they stand for; `1D` is the
source's own example (V2). -/
def Obligations.TableWordsDecodeToTheirRows : Prop :=
  decodeAt allTags .inputByte 0x1D = .ok (.bdConnect ⟨true, 2, true⟩) ∧
  decodeAt allTags .inputByte 0x3D = .ok (.bdPublish ⟨true, 2, true⟩) ∧
  decodeAt allTags .inputByte 0x82 = .ok (.bdSubscribe ⟨false, 1, false⟩) ∧
  decodeAt allTags .typeReg 0xE0 = .ok (.beDisconnect ⟨false, 0, false⟩) ∧
  decodeAt allTags .inputByte 0xF6 = .ok (.invalidType15 ⟨false, 3, false⟩) ∧
  decodeAt allTags .inputByte 0x16 = .error .reservedQoS ∧
  decodeAt allTags .cmd 0x01 = .ok .decode ∧ decodeAt allTags .cmd 0x02 = .ok .encode

/-- The header byte as a number, and its round trip in both directions (R133, R73): encoding then decoding gives the
same four values for every tag, dup, retain and legal qos; for every byte with code 1..14 and qos not `11`, re-encoding
the four values gives the byte; 168 bytes are legal, 32 have code 0 or 15, 56 have a legal code and qos bits `11`. -/
def Obligations.HeaderByteRoundTrip : Prop :=
  ∀ tc : List Tag, typeCodeWf tc = true →
    (∀ (t : Tag) (h : Hdr), h.qos ≠ 3 →
      (headerByte (lookupCode tc t) h).toNat
        = (lookupCode tc t).toNat * 16 + h.dup.toNat * 8 + h.qos.toNat * 2 + h.retain.toNat ∧
      lookupTag tc (headerCode (headerByte (lookupCode tc t) h)) = some t ∧ headerFlags (headerByte (lookupCode tc t) h) = h) ∧
    (∀ (b : Byte) (t : Tag), lookupTag tc (headerCode b) = some t → (headerFlags b).qos ≠ 3 →
      headerByte (lookupCode tc t) (headerFlags b) = b) ∧
    ((List.range 256).countP fun n => (lookupTag tc (headerCode (BitVec.ofNat 8 n))).isSome
      && (headerFlags (BitVec.ofNat 8 n)).qos != 3) = 168 ∧
    ((List.range 256).countP fun n => (lookupTag tc (headerCode (BitVec.ofNat 8 n))).isNone) = 32 ∧
    ((List.range 256).countP fun n => (lookupTag tc (headerCode (BitVec.ofNat 8 n))).isSome
      && (headerFlags (BitVec.ofNat 8 n)).qos == 3) = 56

/-- The two lookups are inverse on the 14 tags and the codes 1..14, and undefined at 0 and 15 (R130); the two lookup
operations complete on them with the value returned. -/
def Obligations.TypeCodeLookupsAreInverse : Prop :=
  ∀ s : State, typeCodeWf s.build.typeCode = true →
    (∀ t : Tag, lookupTag s.build.typeCode (lookupCode s.build.typeCode t) = some t ∧
      exec (.codeOf t) s
        = .next { s with work := some { s.working with result := .code (lookupCode s.build.typeCode t) } }) ∧
    (∀ c : BitVec 4, c ≠ 0 → c ≠ 15 → ∃ t : Tag, lookupTag s.build.typeCode c = some t ∧
      lookupCode s.build.typeCode t = c ∧
      exec (.tagOf c) s = .next { s with work := some { s.working with result := .tag t } }) ∧
    lookupTag s.build.typeCode 0 = none ∧ lookupTag s.build.typeCode 15 = none

/-! ### The bit-field extractor, the connect flags and UTF-8 -/

/-- `EXTRACT` (R100) and `INSERT` (R101) complete in every state, with the value the rule gives, and change nothing
but the value returned; extracting a range of an insert gives back the value put there (R101). -/
def Obligations.ExtractAndInsertReturnTheirFields : Prop :=
  ∀ s : State,
    (∀ (b : Byte) (hi lo : Fin 8), lo ≤ hi → ∃ v : Byte,
      exec (.extract b hi lo) s = .next { s with work := some { s.working with result := .byte v } } ∧
      v.toNat = (b.toNat / 2 ^ lo.val) % 2 ^ (hi.val - lo.val + 1)) ∧
    (∀ fs : List BitField, (Instr.insert fs).wellFormed = true → ∃ v : Byte,
      exec (.insert fs) s = .next { s with work := some { s.working with result := .byte v } } ∧
      v.toNat = (fs.map fun f => f.value.toNat * 2 ^ f.lo.val).sum ∧
      ∀ f ∈ fs, extractBits v f.hi.val f.lo.val = f.value)

/-- `CF_DEC` (R140) and `CF_ENC` (R141) complete in every state, each flag at its bit (R78); they are inverse but for
bit 0, which decode ignores and encode writes 0 (R143). -/
def Obligations.ConnectFlagsRoundTrip : Prop :=
  ∀ s : State,
    (∀ f : Byte, ∃ fl : ConnFlags,
      exec (.cfDec f) s = .next { s with work := some { s.working with result := .flags fl } } ∧
      fl.uf = f.getLsbD 7 ∧ fl.pf = f.getLsbD 6 ∧ fl.wr = f.getLsbD 5 ∧ fl.wq.toNat = f.toNat / 8 % 4 ∧
      fl.wf = f.getLsbD 2 ∧ fl.cs = f.getLsbD 1 ∧ (cfEnc fl = f ↔ f.getLsbD 0 = false)) ∧
    (∀ fl : ConnFlags, ∃ f : Byte,
      exec (.cfEnc fl) s = .next { s with work := some { s.working with result := .byte f } } ∧
      f.toNat = fl.uf.toNat * 128 + fl.pf.toNat * 64 + fl.wr.toNat * 32 + fl.wq.toNat * 8 + fl.wf.toNat * 4 + fl.cs.toNat * 2 ∧
      cfDec f = fl)

/-- `CF_DERIVE` (R142) completes on every register file the required-field check of a connect accepts (R171), with the
flags the rule computes from the registers; without a will, will-retain and will-qos are 0 (R145). -/
def Obligations.ConnectFlagsAreDerived : Prop :=
  ∀ s : State, reqOk .connect s.pkt = true → ∃ fl : ConnFlags,
    exec .cfDerive s = .next { s with work := some { s.working with result := .flags fl } } ∧
    (fl.uf = true ↔ ∃ b t, s.pkt.username = some (b :: t)) ∧ (fl.pf = true ↔ ∃ b t, s.pkt.password = some (b :: t)) ∧
    (fl.wf = true ↔ s.pkt.willTopic ≠ none ∧ s.pkt.willMessage ≠ none) ∧ some fl.cs = s.pkt.cleanSession ∧
    (fl.wf = true → some fl.wr = s.pkt.willRetain ∧ some fl.wq = s.pkt.willQos) ∧
    (fl.wf = false → fl.wr = false ∧ fl.wq = 0)

/-- `UTF8_OK` (R106) completes in every state and returns true iff the bytes are a concatenation of sequences each
matching one row of the table. -/
def Obligations.Utf8OkIffSequencesOfTheTable : Prop :=
  ∀ (s : State) (t : Bytes), ∃ v : Bool,
    exec (.utf8Ok t) s = .next { s with work := some { s.working with result := .bool v } } ∧
    (v = true ↔ ∃ cs : List Bytes, t = cs.flatten ∧ ∀ c ∈ cs, ∃ row ∈ utf8Rows, matchesRow row c)

/-! ### The primitive decoders and encoders -/

/-- `DEC_BYTE` (R102): the byte at the cursor is returned and the cursor moves by 1; with no byte left before the bound it
raises `TruncatedInput` at the cursor. -/
def Obligations.DecByteReadsAtTheCursor : Prop :=
  ∀ s : State,
    (∀ v : Byte, s.InputAt [v] →
      exec .decByte s = .next { s with work := some { s.working with cur := s.working.cur + 1, result := .byte v } }) ∧
    (s.inputOk s.working.lim = true → s.working.lim < s.working.cur + 1 →
      exec .decByte s = .next (s.enterError true ⟨.truncatedInput, s.working.cur⟩))

/-- `DEC_WORD` (R103): the two bytes at the cursor are returned as a big-endian word (R50) and the cursor moves by 2; with
fewer than 2 bytes left it raises `TruncatedInput` at the cursor. -/
def Obligations.DecWordIsBigEndian : Prop :=
  ∀ s : State,
    (∀ hi lo : Byte, s.InputAt [hi, lo] → ∃ w : Word, w.toNat = hi.toNat * 256 + lo.toNat ∧
      exec .decWord s = .next { s with work := some { s.working with cur := s.working.cur + 2, result := .word w } }) ∧
    (s.inputOk s.working.lim = true → s.working.lim < s.working.cur + 2 →
      exec .decWord s = .next (s.enterError true ⟨.truncatedInput, s.working.cur⟩))

/-- `DEC_TEXT` (R104): a length-prefixed text at the cursor is returned and the cursor moves behind it; the errors, in
this order: the length word does not fit, the bytes do not fit, the bytes are not well-formed UTF-8. -/
def Obligations.DecTextReadsALengthPrefixedText : Prop :=
  ∀ s : State,
    (∀ t : Text, t.length ≤ textMax → s.InputAt (wireText t) →
      (utf8Ok t = true → exec .decText s
        = .next { s with work := some { s.working with cur := s.working.cur + 2 + t.length, result := .text t } }) ∧
      (utf8Ok t = false → exec .decText s = .next (s.enterError true ⟨.invalidEncoding, s.working.cur⟩))) ∧
    (s.inputOk s.working.lim = true → s.working.lim < s.working.cur + 2 →
      exec .decText s = .next (s.enterError true ⟨.truncatedInput, s.working.cur⟩)) ∧
    (∀ l : Word, s.InputAt (wireWord l) → s.working.lim < s.working.cur + 2 + l.toNat →
      exec .decText s = .next (s.enterError true ⟨.truncatedInput, s.working.cur⟩))

/-- `DEC_REST` (R105): all bytes up to the bound are returned, and the cursor goes to the bound; ill-formed bytes raise
`InvalidEncoding` at the cursor. -/
def Obligations.DecRestReadsToTheBound : Prop :=
  ∀ (s : State) (t : Bytes), s.InputRest t →
    (utf8Ok t = true → exec .decRest s
      = .next { s with work := some { s.working with cur := s.working.lim, result := .text t } }) ∧
    (utf8Ok t = false → exec .decRest s = .next (s.enterError true ⟨.invalidEncoding, s.working.cur⟩))

/-- `ENC_BYTE`, `ENC_WORD`, `ENC_TEXT` and `ENC_REST` (R107 to R110) append their bytes to the image; a text above 65535
bytes raises `LengthOutOfRange`, ill-formed bytes raise `InvalidEncoding`. -/
def Obligations.EncodersAppendTheirBytes : Prop :=
  ∀ s : State,
    (∀ v : Byte, exec (.encByte v) s = .next { s with work := some { s.working with image := s.working.image ++ [v] } }) ∧
    (∀ w : Word, exec (.encWord w) s
      = .next { s with work := some { s.working with image := s.working.image ++ wireWord w } }) ∧
    (∀ t : Bytes, t.length ≤ textMax → utf8Ok t = true → exec (.encText t) s
      = .next { s with work := some { s.working with image := s.working.image ++ wireText t } }) ∧
    (∀ t : Bytes, textMax < t.length → exec (.encText t) s = .next (s.enterError false ⟨.lengthOutOfRange, 0⟩)) ∧
    (∀ t : Bytes, t.length ≤ textMax → utf8Ok t = false →
      exec (.encText t) s = .next (s.enterError false ⟨.invalidEncoding, 0⟩)) ∧
    (∀ t : Bytes, utf8Ok t = true → exec (.encRest t) s
      = .next { s with work := some { s.working with image := s.working.image ++ t } }) ∧
    (∀ t : Bytes, utf8Ok t = false → exec (.encRest t) s = .next (s.enterError false ⟨.invalidEncoding, 0⟩))

/-- The round trips of the primitives, in both directions (R111). -/
def Obligations.PrimitivesRoundTrip : Prop :=
  (∀ v : Byte, decByte (encByte v) 0 1 = .ok (v, 1)) ∧
  (∀ w : Word, decWord (encWord w) 0 2 = .ok (w, 2)) ∧
  (∀ t : Text, t.length ≤ textMax → utf8Ok t = true → ∃ bs, encText t = .ok bs ∧
    decText bs 0 (2 + t.length) = .ok (t, 2 + t.length)) ∧
  (∀ t : Bytes, utf8Ok t = true → ∃ bs, encRest t = .ok bs ∧ decRest bs 0 t.length = .ok (t, t.length)) ∧
  (∀ (buf : Bytes) (cur lim cur' : Nat), cur ≤ lim → lim ≤ buf.length →
    (∀ v, decByte buf cur lim = .ok (v, cur') → encByte v = slice buf cur (cur' - cur)) ∧
    (∀ w, decWord buf cur lim = .ok (w, cur') → encWord w = slice buf cur (cur' - cur)) ∧
    (∀ t, decText buf cur lim = .ok (t, cur') → encText t = .ok (slice buf cur (cur' - cur))) ∧
    (∀ t, decRest buf cur lim = .ok (t, cur') → encRest t = .ok (slice buf cur (cur' - cur))))

/-! ### The remaining length -/

/-- `RL_DEC` and `RL_DEC_STRICT` (R120, R121) on a field that ends within 4 bytes: the value is `sum digit_j * 128^j` (R74),
the cursor moves by the field's length, and strictness makes no difference. -/
def Obligations.RemainingLengthDecodesItsField : Prop :=
  ∀ (s : State) (f : Bytes), rlEnds f = true → f.length ≤ 4 → s.InputAt f →
    ∀ i ∈ [Instr.rlDec, .rlDecStrict], exec i s = .next { s with work := some { s.working with
      cur := s.working.cur + f.length, acc := rlValue f, mult := 128 ^ f.length, count := f.length,
      result := .length (rlValue f) } }

/-- A field whose 4th byte still has bit 7 set (R120, R121): without `RL_STRICT` it is accepted after 4 bytes, its bit 7
dropped; with it `RL_DEC` raises `MalformedRemainingLength` at the field's first byte, as `RL_DEC_STRICT` always does. A
field that the bound cuts off before its end raises `TruncatedInput` there. -/
def Obligations.RemainingLengthOverlongOrCut : Prop :=
  ∀ (s : State) (f : Bytes), allContinue f = true → s.InputAt f →
    (f.length = 4 →
      (s.strict = false → exec .rlDec s = .next { s with work := some { s.working with
        cur := s.working.cur + 4, acc := rlValue f, mult := 128 ^ 4, count := 4, result := .length (rlValue f) } }) ∧
      (s.strict = true → exec .rlDec s = .next (s.enterError true ⟨.malformedRemainingLength, s.working.cur⟩)) ∧
      exec .rlDecStrict s = .next (s.enterError true ⟨.malformedRemainingLength, s.working.cur⟩)) ∧
    (f.length < 4 → s.working.cur + f.length = s.working.lim →
      ∀ i ∈ [Instr.rlDec, .rlDecStrict], exec i s = .next (s.enterError true ⟨.truncatedInput, s.working.cur⟩))

/-- `RL_ENC` (R122) appends a field of 1 to 4 bytes whose value is the operand, bit 7 set on all but the last byte, as short
as R124's table says; an operand above `RL_MAX` raises `LengthOutOfRange`. -/
def Obligations.RemainingLengthEncodesShortest : Prop :=
  ∀ (s : State) (x : Nat),
    (x ≤ rlMax → ∃ f : Bytes,
      exec (.rlEnc x) s = .next { s with work := some { s.working with image := s.working.image ++ f } } ∧
      rlEnds f = true ∧ rlValue f = x ∧
      f.length = (if x ≤ 127 then 1 else if x ≤ 16383 then 2 else if x ≤ 2097151 then 3 else 4)) ∧
    (rlMax < x → exec (.rlEnc x) s = .next (s.enterError false ⟨.lengthOutOfRange, 0⟩))

/-- The length table of the encoder's field and the round trip in either mode (R124). -/
def Obligations.RemainingLengthRoundTrip : Prop :=
  ∀ (x : Nat) (strict : Bool), x ≤ rlMax → ∃ f : Bytes, rlEnc x = .ok f ∧
    f.length = (if x ≤ 127 then 1 else if x ≤ 16383 then 2 else if x ≤ 2097151 then 3 else 4) ∧
    ∃ st, rlDec f 0 f.length strict = .ok st ∧ st.acc = x ∧ st.cur = f.length

/-- Which accepted fields the encoder gives back (R125): those that end with bit 7 clear and do not end in `00` after
another byte. -/
def Obligations.RemainingLengthReencodesCanonicalFields : Prop :=
  ∀ (buf : Bytes) (cur lim : Nat) (strict : Bool) (st : RlState), lim ≤ buf.length →
    rlDec buf cur lim strict = .ok st →
    st.acc ≤ rlMax ∧ cur < st.cur ∧ st.cur ≤ cur + 4 ∧ st.cur ≤ lim ∧
    (rlEnc st.acc = .ok (slice buf cur (st.cur - cur)) ↔
      (byteAt buf (st.cur - 1)).toNat < 128 ∧ (st.cur = cur + 1 ∨ byteAt buf (st.cur - 1) ≠ 0))

/-! ### The fixed header -/

/-- `FH_DEC` (R131) on a buffer that holds a legal header byte, a remaining-length field and at least as many further bytes
as it says: tag, flags, `h` and `N` are returned and the cursor goes to `h` (R28). The field ends within 4 bytes or, with
`RL_STRICT` 0, is cut after a 4th byte with bit 7 set (R120). A DECODE of a type without a body then commits `h + N` bytes. -/
def Obligations.FixedHeaderDecodes : Prop :=
  ∀ (s : State) (b0 : Byte) (f : Bytes) (t : Tag),
    s.Holds 0 (b0 :: f) → s.ibLen.toNat ≤ s.build.ibCap →
    lookupTag s.build.typeCode (headerCode b0) = some t → (headerFlags b0).qos ≠ 3 →
    ((rlEnds f = true ∧ f.length ≤ 4) ∨ (allContinue f = true ∧ f.length = 4 ∧ s.strict = false)) →
    1 + f.length + rlValue f ≤ s.ibLen.toNat →
    exec .fhDec s = .next { s with work := some { s.working with
      cur := 1 + f.length, result := .header ⟨t, headerFlags b0, 1 + f.length, rlValue f⟩ } } ∧
    (s.busy = false → t ∈ [Tag.pingreq, .pingresp, .disconnect] →
      exec .decode s = .next (s.commitDecode
        { Pkt.empty with
          ptype := some (lookupCode s.build.typeCode t), dup := (headerFlags b0).dup, qos := (headerFlags b0).qos,
          retain := (headerFlags b0).retain }
        (1 + f.length + rlValue f)))

/-- `FH_ENC` (R132) puts the header byte and the field `RL_ENC` gives for the body's length before the body that the image
holds; a body above `RL_MAX` raises `LengthOutOfRange`. -/
def Obligations.FixedHeaderEncodes : Prop :=
  ∀ (s : State) (t : Tag) (h : Hdr),
    (s.working.image.length ≤ rlMax → ∃ f : Bytes,
      rlEnc s.working.image.length = .ok f ∧ rlEnds f = true ∧ rlValue f = s.working.image.length ∧ f.length ≤ 4 ∧
      exec (.fhEnc t h) s = .next { s with work := some { s.working with
        image := headerByte (lookupCode s.build.typeCode t) h :: (f ++ s.working.image) } }) ∧
    (rlMax < s.working.image.length → exec (.fhEnc t h) s = .next (s.enterError false ⟨.lengthOutOfRange, 0⟩))

/-- A type code 0 or 15 raises `UnknownPacketType(0)` (R202): the error entry of R210, which writes the status registers
only and throws the working state away. -/
def Obligations.InvalidTypeRaisesUnknownPacketType : Prop :=
  ∀ (s : State) (h : Hdr), ∀ i ∈ [Instr.invalidType0 h, .invalidType15 h],
    exec i s = .next { s with
      status := 0b110, errcode := s.build.errNumbers.unknownPacketType, errpos := 0, work := none }

/-! ### The body decoders: the layouts of R79 -/

/-- The bodies that are one message-id (R154 to R157, R161): the word at the cursor goes to the shadow's `msg_id` and the
cursor moves by 2; a slice with fewer than 2 bytes left raises `TruncatedInput` at the cursor, whatever the buffer holds
beyond (R166). -/
def Obligations.MessageIdBodiesDecode : Prop :=
  ∀ (s : State) (h : Hdr) (q : BitVec 2),
    ∀ i ∈ [Instr.bdPuback h, .bdPubrec h, .bdPubrel h, .bdPubcomp h, .bdUnsuback h,
      .bodyDec .puback q, .bodyDec .pubrec q, .bodyDec .pubrel q, .bodyDec .pubcomp q, .bodyDec .unsuback q],
    (∀ m : Word, s.InputAt (wireWord m) → exec i s = .next { s with work := some { s.working with
      cur := s.working.cur + 2, shadow := { s.working.shadow with msgId := some m } } }) ∧
    (s.inputOk s.working.lim = true → s.working.lim < s.working.cur + 2 →
      exec i s = .next (s.enterError true ⟨.truncatedInput, s.working.cur⟩))

/-- The bodies of pingreq, pingresp and disconnect (R162 to R164): nothing is read and no register is written. -/
def Obligations.EmptyBodiesDecode : Prop :=
  ∀ (s : State) (h : Hdr) (q : BitVec 2), s.inputOk s.working.lim = true →
    ∀ i ∈ [Instr.bdPingreq h, .bdPingresp h, .bdDisconnect h,
      .bodyDec .pingreq q, .bodyDec .pingresp q, .bodyDec .disconnect q],
    exec i s = .next { s with work := some s.working }

/-- `BD_CONNACK` (R152) with and without the reserved byte (`CONNACK_PAD`), which is read and dropped; a slice shorter than
`CONNACK_PAD + 1` raises `TruncatedInput` where the missing byte should stand, at the end of the slice. -/
def Obligations.ConnackBodyDecodes : Prop :=
  ∀ (s : State) (h : Hdr) (q : BitVec 2), ∀ i ∈ [Instr.bdConnack h, .bodyDec .connack q],
    (∀ (pad : Bytes) (rc : Byte), pad.length = s.build.connackPad.val → s.InputAt (pad ++ [rc]) →
      exec i s = .next { s with work := some { s.working with
        cur := s.working.cur + pad.length + 1, shadow := { s.working.shadow with returnCode := some rc } } }) ∧
    (s.inputOk s.working.lim = true → s.working.cur ≤ s.working.lim →
      s.working.lim < s.working.cur + s.build.connackPad.val + 1 →
      exec i s = .next (s.enterError true ⟨.truncatedInput, s.working.lim⟩))

/-- `BD_PUBLISH` (R153): the topic, the message-id iff `qos != 0`, and the rest of the slice as the payload; with `qos = 0` the
shadow's `msg_id` is not written. The errors: a topic or a message-id that cannot be decoded, at its first byte, and an
ill-formed payload, at its first byte. -/
def Obligations.PublishBodyDecodes : Prop :=
  ∀ (s : State) (h : Hdr) (t : Text) (m : Word) (pl : Bytes), ∀ i ∈ [Instr.bdPublish h, .bodyDec .publish h.qos],
    (t.length ≤ textMax → utf8Ok t = true → s.InputRest (wireFields (publishFields h.qos t m) ++ pl) →
      (utf8Ok pl = true → exec i s = .next { s with work := some { s.working with
        cur := s.working.lim
        shadow := { s.working.shadow with
          topic := some t, payload := some pl, msgId := if h.qos = 0 then s.working.shadow.msgId else some m } } }) ∧
      (utf8Ok pl = false → exec i s = .next (s.enterError true
        ⟨.invalidEncoding, s.working.cur + (wireFields (publishFields h.qos t m)).length⟩))) ∧
    (∀ pre x k, s.FailsAt (publishFields h.qos t m) pre x k →
      exec i s = .next (s.enterError true ⟨k, s.working.cur + (wireFields pre).length⟩))

/-- `BD_SUBSCRIBE`, `BD_SUBACK` and `BD_UNSUBSCRIBE` (R158 to R160): the message-id, then entries up to the end of the slice, in
wire order; an empty list is a present, empty list. The errors: a field that cannot be decoded, at its first byte; where the
slice ends before an entry's first byte, the list ends without one. -/
def Obligations.ListBodiesDecode : Prop :=
  ∀ (s : State) (h : Hdr) (q : BitVec 2) (m : Word),
    (∀ l : List (Text × Byte), countFits s.build.listCap l.length = true → ∀ i ∈ [Instr.bdSubscribe h, .bodyDec .subscribe q],
      ((∀ e ∈ l, e.1.length ≤ textMax ∧ utf8Ok e.1 = true) → s.InputRest (wireWord m ++ l.flatMap wireEntry) →
        exec i s = .next { s with work := some { s.working with
          cur := s.working.lim, shadow := { s.working.shadow with msgId := some m, subs := some l } } }) ∧
      (∀ pre x k, s.FailsAt (subscribeFields m l) pre x k →
        ((∃ t, x = .text t) → s.working.cur + (wireFields pre).length < s.working.lim) →
        exec i s = .next (s.enterError true ⟨k, s.working.cur + (wireFields pre).length⟩))) ∧
    (∀ i ∈ [Instr.bdSuback h, .bodyDec .suback q],
      (∀ l : List Byte, countFits s.build.listCap l.length = true → s.InputRest (wireWord m ++ l) →
        exec i s = .next { s with work := some { s.working with
          cur := s.working.lim, shadow := { s.working.shadow with msgId := some m, granted := some l } } }) ∧
      (s.inputOk s.working.lim = true → s.working.lim < s.working.cur + 2 →
        exec i s = .next (s.enterError true ⟨.truncatedInput, s.working.cur⟩))) ∧
    (∀ l : List Text, countFits s.build.listCap l.length = true → ∀ i ∈ [Instr.bdUnsubscribe h, .bodyDec .unsubscribe q],
      ((∀ t ∈ l, t.length ≤ textMax ∧ utf8Ok t = true) → s.InputRest (wireWord m ++ l.flatMap wireText) →
        exec i s = .next { s with work := some { s.working with
          cur := s.working.lim, shadow := { s.working.shadow with msgId := some m, topics := some l } } }) ∧
      (∀ pre x k, s.FailsAt (unsubscribeFields m l) pre x k →
        ((∃ t, x = .text t) → s.working.cur + (wireFields pre).length < s.working.lim) →
        exec i s = .next (s.enterError true ⟨k, s.working.cur + (wireFields pre).length⟩)))

/-- A list with one entry more than `LIST_CAP` raises `CapacityExceeded` at the first byte of that entry, before it is read
(R158 to R160, R208). -/
def Obligations.FullListRaisesCapacityExceeded : Prop :=
  ∀ (s : State) (h : Hdr) (q : BitVec 2) (m : Word) (g : Byte),
    (∀ l : List (Text × Byte), s.build.listCap = some l.length → (∀ e ∈ l, e.1.length ≤ textMax ∧ utf8Ok e.1 = true) →
      s.InputAt (wireWord m ++ l.flatMap wireEntry ++ [g]) → ∀ i ∈ [Instr.bdSubscribe h, .bodyDec .subscribe q],
      exec i s = .next (s.enterError true ⟨.capacityExceeded, s.working.cur + 2 + (l.flatMap wireEntry).length⟩)) ∧
    (∀ l : List Byte, s.build.listCap = some l.length →
      s.InputAt (wireWord m ++ l ++ [g]) → ∀ i ∈ [Instr.bdSuback h, .bodyDec .suback q],
      exec i s = .next (s.enterError true ⟨.capacityExceeded, s.working.cur + 2 + l.length⟩)) ∧
    (∀ l : List Text, s.build.listCap = some l.length → (∀ t ∈ l, t.length ≤ textMax ∧ utf8Ok t = true) →
      s.InputAt (wireWord m ++ l.flatMap wireText ++ [g]) → ∀ i ∈ [Instr.bdUnsubscribe h, .bodyDec .unsubscribe q],
      exec i s = .next (s.enterError true ⟨.capacityExceeded, s.working.cur + 2 + (l.flatMap wireText).length⟩))

/-- `BD_CONNECT` (R151): the fields of the layout in wire order, the will, username and password fields iff bits 2, 7 and 6 of
the flags byte are set; where a flag is 0 its registers are not written (R145), and bytes after the last field are left
(R165). The first field in wire order that cannot be decoded raises its error at its first byte. -/
def Obligations.ConnectBodyDecodes : Prop :=
  ∀ (s : State) (h : Hdr) (q : BitVec 2) (name : Text) (ver f : Byte) (ka : Word) (cid wt wm un pw : Text),
    ∀ i ∈ [Instr.bdConnect h, .bodyDec .connect q],
    ((∀ t ∈ [name, cid, wt, wm, un, pw], t.length ≤ textMax ∧ utf8Ok t = true) →
      s.InputAt (wireConnect name ver f ka cid wt wm un pw) →
      exec i s = .next { s with work := some { s.working with
        cur := s.working.cur + (wireConnect name ver f ka cid wt wm un pw).length
        shadow := { s.working.shadow with
          protoName := some name, protoVer := some ver, cleanSession := some (f.getLsbD 1), keepAlive := some ka
          clientId := some cid
          willTopic := if f.getLsbD 2 then some wt else s.working.shadow.willTopic
          willMessage := if f.getLsbD 2 then some wm else s.working.shadow.willMessage
          willQos := if f.getLsbD 2 then some (BitVec.ofNat 2 (f.toNat / 8)) else s.working.shadow.willQos
          willRetain := if f.getLsbD 2 then some (f.getLsbD 5) else s.working.shadow.willRetain
          username := if f.getLsbD 7 then some un else s.working.shadow.username
          password := if f.getLsbD 6 then some pw else s.working.shadow.password } } }) ∧
    (∀ pre x k, s.FailsAt (connectFields name ver f ka cid wt wm un pw) pre x k →
      exec i s = .next (s.enterError true ⟨k, s.working.cur + (wireFields pre).length⟩))

/-- A body decoder ends (R150, R166, R196): within a body slice that lies in the input it either moves the cursor, never back
and never beyond the bound (R28), or raises one of three kinds at a position inside the slice (R37); nothing but the
working state or the status registers changes. -/
def Obligations.BodyDecodersCompleteOrRaise : Prop :=
  ∀ (s : State) (t : Tag) (h : Hdr) (q : BitVec 2), s.inputOk s.working.lim = true → s.working.cur ≤ s.working.lim →
    ∀ i ∈ [bdOf t h, .bodyDec t q],
    (∃ (cur : Nat) (p : Pkt), s.working.cur ≤ cur ∧ cur ≤ s.working.lim ∧
      exec i s = .next { s with work := some { s.working with cur := cur, shadow := p } }) ∨
    (∃ e : Err, s.working.cur ≤ e.pos ∧ e.pos ≤ s.working.lim ∧
      e.kind ∈ [ErrKind.truncatedInput, .invalidEncoding, .capacityExceeded] ∧ exec i s = .next (s.enterError true e))

/-! ### The required-field check and the body encoders -/

/-- `REQ_CHECK` (R171): with every register of the type's row valid nothing changes, else `MissingRequiredField` is raised. -/
def Obligations.RequiredFieldsAreChecked : Prop :=
  ∀ (s : State) (t : Tag),
    (let p := s.pkt
     let ok : Prop := match t with
       | .connect => p.protoName ≠ none ∧ p.protoVer ≠ none ∧ p.cleanSession ≠ none ∧ p.keepAlive ≠ none ∧ p.clientId ≠ none ∧
           ((p.willTopic ≠ none ∧ p.willMessage ≠ none ∧ p.willQos ≠ none ∧ p.willRetain ≠ none) ∨
            (p.willTopic = none ∧ p.willMessage = none ∧ p.willQos = none ∧ p.willRetain = none))
       | .connack => p.returnCode ≠ none
       | .publish => p.topic ≠ none ∧ p.payload ≠ none ∧ (p.qos ≠ 0 → p.msgId ≠ none)
       | .puback | .pubrec | .pubrel | .pubcomp | .unsuback => p.msgId ≠ none
       | .subscribe => p.msgId ≠ none ∧ p.subs ≠ none
       | .suback => p.msgId ≠ none ∧ p.granted ≠ none
       | .unsubscribe => p.msgId ≠ none ∧ p.topics ≠ none
       | .pingreq | .pingresp | .disconnect => True
     (ok → exec (.reqCheck t) s = .next s) ∧
     (¬ ok → exec (.reqCheck t) s = .next (s.enterError false ⟨.missingRequiredField, 0⟩)))

/-- The bodies that are one message-id (R175 to R178, R182), and the empty bodies (R183 to R185), appended to the image. -/
def Obligations.PlainBodiesEncode : Prop :=
  ∀ (s : State) (h : Hdr),
    (∀ m : Word, s.pkt.msgId = some m →
      ∀ i ∈ [Instr.bePuback h, .bePubrec h, .bePubrel h, .bePubcomp h, .beUnsuback h,
        .bodyEnc .puback, .bodyEnc .pubrec, .bodyEnc .pubrel, .bodyEnc .pubcomp, .bodyEnc .unsuback],
      exec i s = .next { s with work := some { s.working with image := s.working.image ++ wireWord m } }) ∧
    (∀ i ∈ [Instr.bePingreq h, .bePingresp h, .beDisconnect h, .bodyEnc .pingreq, .bodyEnc .pingresp, .bodyEnc .disconnect],
      exec i s = .next { s with work := some s.working })

/-- `BE_CONNACK` (R173): the reserved bytes are written 0, then the return-code. -/
def Obligations.ConnackBodyEncodes : Prop :=
  ∀ (s : State) (h : Hdr) (rc : Byte), s.pkt.returnCode = some rc → ∀ i ∈ [Instr.beConnack h, .bodyEnc .connack],
    exec i s = .next { s with work := some { s.working with
      image := s.working.image ++ (if s.build.connackPad = 0 then [rc] else [0, rc]) } }

/-- `BE_PUBLISH` (R174): the message-id is written iff `qos != 0`; with `qos = 0` the register is not read. A topic above
65535 bytes raises `LengthOutOfRange`; an ill-formed topic or payload raises `InvalidEncoding`. -/
def Obligations.PublishBodyEncodes : Prop :=
  ∀ (s : State) (h : Hdr) (t : Text) (pl : Bytes), s.pkt.topic = some t → s.pkt.payload = some pl →
    ∀ i ∈ [Instr.bePublish h, .bodyEnc .publish],
    (t.length ≤ textMax → utf8Ok t = true → utf8Ok pl = true → s.pkt.qos = 0 →
      exec i s = .next { s with work := some { s.working with image := s.working.image ++ wireText t ++ pl } }) ∧
    (∀ m : Word, t.length ≤ textMax → utf8Ok t = true → utf8Ok pl = true → s.pkt.qos ≠ 0 → s.pkt.msgId = some m →
      exec i s = .next { s with work := some { s.working with image := s.working.image ++ wireText t ++ wireWord m ++ pl } }) ∧
    (textMax < t.length → exec i s = .next (s.enterError false ⟨.lengthOutOfRange, 0⟩)) ∧
    (t.length ≤ textMax → s.pkt.qos = 0 ∨ s.pkt.msgId ≠ none → utf8Ok t = false ∨ utf8Ok pl = false →
      exec i s = .next (s.enterError false ⟨.invalidEncoding, 0⟩))

/-- `BE_SUBSCRIBE`, `BE_SUBACK` and `BE_UNSUBSCRIBE` (R179 to R181): the message-id, then the entries in list order. The first
topic in list order that is above 65535 bytes or ill-formed raises `LengthOutOfRange` or `InvalidEncoding`. -/
def Obligations.ListBodiesEncode : Prop :=
  ∀ (s : State) (h : Hdr) (m : Word), s.pkt.msgId = some m →
    (∀ l, s.pkt.subs = some l → ∀ i ∈ [Instr.beSubscribe h, .bodyEnc .subscribe],
      ((∀ e ∈ l, e.1.length ≤ textMax ∧ utf8Ok e.1 = true) →
        exec i s = .next { s with work := some { s.working with
          image := s.working.image ++ wireWord m ++ l.flatMap wireEntry } }) ∧
      (∀ t, firstBad (l.map fun e => e.1) t →
        (textMax < t.length → exec i s = .next (s.enterError false ⟨.lengthOutOfRange, 0⟩)) ∧
        (t.length ≤ textMax → utf8Ok t = false → exec i s = .next (s.enterError false ⟨.invalidEncoding, 0⟩)))) ∧
    (∀ l, s.pkt.granted = some l → ∀ i ∈ [Instr.beSuback h, .bodyEnc .suback],
      exec i s = .next { s with work := some { s.working with image := s.working.image ++ wireWord m ++ l } }) ∧
    (∀ l, s.pkt.topics = some l → ∀ i ∈ [Instr.beUnsubscribe h, .bodyEnc .unsubscribe],
      ((∀ t ∈ l, t.length ≤ textMax ∧ utf8Ok t = true) →
        exec i s = .next { s with work := some { s.working with
          image := s.working.image ++ wireWord m ++ l.flatMap wireText } }) ∧
      (∀ t, firstBad l t →
        (textMax < t.length → exec i s = .next (s.enterError false ⟨.lengthOutOfRange, 0⟩)) ∧
        (t.length ≤ textMax → utf8Ok t = false → exec i s = .next (s.enterError false ⟨.invalidEncoding, 0⟩))))

/-- `BE_CONNECT` (R172) of a Packet's registers: the layout of R79 under the flags byte that the same body carries; an empty
username or password is not written (R142), and a will is written iff it is present. The first text in wire order that is
above 65535 bytes or ill-formed raises `LengthOutOfRange` or `InvalidEncoding`. -/
def Obligations.ConnectBodyEncodes : Prop :=
  ∀ (s : State) (h : Hdr) (name : Text) (ver : Byte) (cs : Bool) (ka : Word) (cid : Text) (will : Option Will)
    (un pw : Option Text) (d r : Bool) (q : BitVec 2),
    s.pkt = Packet.regs s.build ⟨.connect, d, q, r, .connect name ver cs ka cid will un pw⟩ →
    (Packet.wf ⟨.connect, d, q, r, .connect name ver cs ka cid will un pw⟩ = true →
      ∃ f : Byte,
        f.getLsbD 7 = (un.getD []  != []) ∧ f.getLsbD 6 = (pw.getD [] != []) ∧ f.getLsbD 2 = will.isSome ∧ f.getLsbD 1 = cs ∧
        f.getLsbD 0 = false ∧ (will = none → f.getLsbD 5 = false ∧ f.toNat / 8 % 4 = 0) ∧
        (∀ w, will = some w → f.getLsbD 5 = w.retain ∧ f.toNat / 8 % 4 = w.qos.toNat) ∧
        ∀ i ∈ [Instr.beConnect h, .bodyEnc .connect],
        exec i s = .next { s with work := some { s.working with
          image := s.working.image ++ wireConnect name ver f ka cid ((will.map (·.topic)).getD []) ((will.map (·.message)).getD [])
            (un.getD []) (pw.getD []) } }) ∧
    (∀ t, firstBad ([name, cid] ++ (will.map fun w => [w.topic, w.message]).getD [] ++ un.toList ++ pw.toList) t →
      ∀ i ∈ [Instr.beConnect h, .bodyEnc .connect],
      (textMax < t.length → exec i s = .next (s.enterError false ⟨.lengthOutOfRange, 0⟩)) ∧
      (t.length ≤ textMax → utf8Ok t = false → exec i s = .next (s.enterError false ⟨.invalidEncoding, 0⟩)))

/-- A body encoder ends (R170, R196): on a register file that passes the required-field check it appends bytes to the image, or
raises `LengthOutOfRange` or `InvalidEncoding` (R109, R110); it never meets a register whose valid bit is 0 (R22). -/
def Obligations.BodyEncodersCompleteOrRaise : Prop :=
  ∀ (s : State) (t : Tag) (h : Hdr), reqOk t s.pkt = true → ∀ i ∈ [beOf t h, .bodyEnc t],
    (∃ body : Bytes, exec i s = .next { s with work := some { s.working with image := s.working.image ++ body } }) ∨
    (∃ k ∈ [ErrKind.lengthOutOfRange, .invalidEncoding], exec i s = .next (s.enterError false ⟨k, 0⟩))

/-- Where the internal operations stop, the model's choice for what no rule reads (log entries 8 and 9): a bound beyond the
input (R31, R59), a code without a tag (R130), a register whose valid bit is 0 where an encoder reads it, those before it
in the order of its pseudocode being accepted (R22). -/
def Obligations.OperationsStopWhereNoRuleReads : Prop :=
  ∀ (s : State) (h : Hdr),
    (s.inputOk s.working.lim = false →
      (∀ i ∈ [Instr.decByte, .decWord, .decText, .decRest, .rlDec, .rlDecStrict], exec i s = .fault .inputBeyondBuffer) ∧
      ∀ (t : Tag) (q : BitVec 2), ∀ i ∈ [bdOf t h, .bodyDec t q], exec i s = .fault .inputBeyondBuffer) ∧
    (s.build.ibCap < s.ibLen.toNat →
      exec .fhDec s = .fault .inputBeyondBuffer ∧ (s.busy = false → exec .decode s = .fault .inputBeyondBuffer)) ∧
    (typeCodeWf s.build.typeCode = true →
      exec (.tagOf 0) s = .refused .codeWithoutTag ∧ exec (.tagOf 15) s = .refused .codeWithoutTag) ∧
    (s.pkt.msgId = none →
      ∀ t ∈ [Tag.puback, .pubrec, .pubrel, .pubcomp, .unsuback, .subscribe, .suback, .unsubscribe],
      ∀ i ∈ [beOf t h, .bodyEnc t], exec i s = .refused .invalidRegister) ∧
    (s.pkt.returnCode = none → ∀ i ∈ [Instr.beConnack h, .bodyEnc .connack], exec i s = .refused .invalidRegister) ∧
    (s.pkt.subs = none → ∀ i ∈ [Instr.beSubscribe h, .bodyEnc .subscribe], exec i s = .refused .invalidRegister) ∧
    (s.pkt.granted = none → ∀ i ∈ [Instr.beSuback h, .bodyEnc .suback], exec i s = .refused .invalidRegister) ∧
    (s.pkt.topics = none → ∀ i ∈ [Instr.beUnsubscribe h, .bodyEnc .unsubscribe], exec i s = .refused .invalidRegister) ∧
    (∀ i ∈ [Instr.bePublish h, .bodyEnc .publish],
      (s.pkt.topic = none → exec i s = .refused .invalidRegister) ∧
      (∀ t, s.pkt.topic = some t → t.length ≤ textMax → utf8Ok t = true →
        (s.pkt.qos ≠ 0 ∧ s.pkt.msgId = none) ∨ s.pkt.payload = none → exec i s = .refused .invalidRegister)) ∧
    (s.pkt.cleanSession = none ∨
        (s.pkt.willTopic ≠ none ∧ s.pkt.willMessage ≠ none ∧ (s.pkt.willQos = none ∨ s.pkt.willRetain = none)) →
      ∀ i ∈ [Instr.cfDerive, .beConnect h, .bodyEnc .connect], exec i s = .refused .invalidRegister) ∧
    (∀ i ∈ [Instr.beConnect h, .bodyEnc .connect],
      (s.pkt.protoName = none → exec i s = .refused .invalidRegister) ∧
      (∀ t, s.pkt.protoName = some t → t.length ≤ textMax → utf8Ok t = true →
        s.pkt.protoVer = none ∨ s.pkt.keepAlive = none ∨ s.pkt.clientId = none → exec i s = .refused .invalidRegister))

/-! ### The commands -/

/-- One step (R17, R231, R85): with no `CMD` write pending nothing changes; with one, the step is `exec` of the row the code
selects, on the state in which the write has been taken up. -/
def Obligations.StepRunsTheCommand : Prop :=
  ∀ s : State,
    (s.cmd = none → step s = .next s) ∧
    (∀ c, s.cmd = some c → step s = exec (decodeCmd c) { s with cmd := none } ∧
      decodeAt s.build.typeCode .cmd (c.setWidth 8) = .ok (decodeCmd c)) ∧
    decodeCmd 0 = .cmdReserved0 ∧ decodeCmd 1 = .decode ∧ decodeCmd 2 = .encode ∧ decodeCmd 3 = .cmdReserved3

/-- The values 0 and 3 of `CMD` have no step: they are refused in every state (R34). -/
def Obligations.ReservedCommandsAreRefused : Prop :=
  ∀ s : State, exec .cmdReserved0 s = .refused (.reservedCommand 0) ∧ exec .cmdReserved3 s = .refused (.reservedCommand 3)

/-- DECODE ends (R190, R193, R196): with the block not BUSY and `IB_LEN` within the capacity it answers a next state; on a
value, `PKT` is replaced, `CONSUMED` is `h + N` and at most `IB_LEN`, the status is DONE without ERR; on an error, only the status
registers are written (R210), `ERRPOS` at most `IB_LEN`. -/
def Obligations.DecodeCommitsOrEntersError : Prop :=
  ∀ s : State, s.busy = false → s.ibLen.toNat ≤ s.build.ibCap →
    (∀ p n, decodePacket s.build s.strict s.input = .ok (p, n) → n ≤ s.ibLen.toNat ∧ ∃ c : Offset, c.toNat = n ∧
      exec .decode s = .next { s with
        pkt := p, consumed := c, status := 0b010, errcode := 0, errpos := 0, work := none }) ∧
    (∀ e, decodePacket s.build s.strict s.input = .error e → e.pos ≤ s.ibLen.toNat ∧ ∃ x : Offset, x.toNat = e.pos ∧
      exec .decode s = .next { s with
        status := 0b110, errcode := s.build.errNumbers.code e.kind, errpos := x, work := none })

/-- The header tests of a DECODE in the order of R209 (R131): empty buffer, type code, qos, remaining-length field, body
slice; the first that fails is the error. -/
def Obligations.DecodeHeaderErrorsInOrder : Prop :=
  ∀ s : State, s.busy = false → s.ibLen.toNat ≤ s.build.ibCap →
    let b0 := s.ib.read 0
    (s.ibLen = 0 → exec .decode s = .next (s.enterError true ⟨.truncatedInput, 0⟩)) ∧
    (s.ibLen ≠ 0 → lookupTag s.build.typeCode (headerCode b0) = none →
      exec .decode s = .next (s.enterError true ⟨.unknownPacketType, 0⟩)) ∧
    (s.ibLen ≠ 0 → lookupTag s.build.typeCode (headerCode b0) ≠ none → (headerFlags b0).qos = 3 →
      exec .decode s = .next (s.enterError true ⟨.reservedQoS, 0⟩)) ∧
    (∀ f : Bytes, lookupTag s.build.typeCode (headerCode b0) ≠ none → (headerFlags b0).qos ≠ 3 →
      allContinue f = true → s.Holds 1 f →
      (f.length < 4 → s.ibLen.toNat = 1 + f.length → exec .decode s = .next (s.enterError true ⟨.truncatedInput, 1⟩)) ∧
      (f.length = 4 → 5 ≤ s.ibLen.toNat → s.strict = true →
        exec .decode s = .next (s.enterError true ⟨.malformedRemainingLength, 1⟩)) ∧
      (f.length = 4 → 5 ≤ s.ibLen.toNat → s.strict = false → s.ibLen.toNat < 5 + rlValue f →
        exec .decode s = .next (s.enterError true ⟨.truncatedInput, 5⟩))) ∧
    (∀ f : Bytes, lookupTag s.build.typeCode (headerCode b0) ≠ none → (headerFlags b0).qos ≠ 3 →
      rlEnds f = true → f.length ≤ 4 → s.Holds 1 f → 1 + f.length ≤ s.ibLen.toNat →
      s.ibLen.toNat < 1 + f.length + rlValue f →
      exec .decode s = .next (s.enterError true ⟨.truncatedInput, 1 + f.length⟩))

/-- A DECODE is FH_DEC, the body decoder its tag selects, and the commit (R190, R150, R193): the internal operations, run
one after the other on the working state, give exactly what the command gives, error or commit. -/
def Obligations.DecodeIsHeaderThenBodyThenCommit : Prop :=
  ∀ s : State, s.busy = false → s.ibLen.toNat ≤ s.build.ibCap → ∃ u, exec .fhDec s = .next u ∧
    (u.work = none → exec .decode s = .next u) ∧
    (∀ w hd, u.work = some w → w.result = .header hd →
      ∃ v, exec (bdOf hd.tag hd.flags)
          { u with work := some { w with lim := hd.h + hd.n, shadow := shadowOf s.build.typeCode hd } } = .next v ∧
        (v.work = none → exec .decode s = .next v) ∧
        (∀ x, v.work = some x → exec .decode s = .next (s.commitDecode x.shadow (hd.h + hd.n))))

/-- DECODE reads only the packet (R192, R56, R31): if it succeeds and consumes `n` bytes, then on any state with the same build,
`CFG` and first `n` bytes of `IB` it succeeds with the same `PKT` and `CONSUMED`, whatever stands behind them. -/
def Obligations.DecodeReadsOnlyThePacket : Prop :=
  ∀ s t s' : State, s.busy = false → s'.busy = false → s.build = s'.build → s.cfg = s'.cfg →
    exec .decode s = .next t → t.err = false → s'.ibLen.toNat ≤ s'.build.ibCap → t.consumed.toNat ≤ s'.ibLen.toNat →
    (∀ a, a < t.consumed.toNat → s.ib.read a = s'.ib.read a) →
    ∃ t', exec .decode s' = .next t' ∧ t'.err = false ∧ t'.pkt = t.pkt ∧ t'.consumed = t.consumed

/-- What a DECODE commits is a well-formed Packet (R27), and the register file holds that Packet and nothing else (R25). -/
def Obligations.DecodeCommitsAWellFormedPacket : Prop :=
  ∀ (b : Build) (strict : Bool) (buf : Bytes) (p : Pkt) (n : Nat), b.wf = true →
    decodePacket b strict buf = .ok (p, n) → ∃ q : Packet, packetOf b p = some q ∧ q.wf = true ∧ p = q.regs b

/-- ENCODE ends (R191, R193, R196): not BUSY, it always answers a next state that is DONE, never a refusal; with ERR only the
status registers change and `ERRPOS` is 0 (R210), without it `OB[0 .. OB_LEN)` is the image, every byte of `OB` at or beyond
`OB_LEN` is unchanged, and so are `PKT`, `IB`, `IB_LEN`, `CONSUMED` and `CFG`. -/
def Obligations.EncodeCommitsOrEntersError : Prop :=
  ∀ s : State, s.busy = false → s.build.wf = true → s.ob.wf s.build.obCap = true →
    (∀ im, encodePacket s.build s.pkt = .ok im → ∃ t, exec .encode s = .next t ∧
      t = { s with ob := t.ob, obLen := t.obLen, status := 0b010, errcode := 0, errpos := 0, work := none } ∧
      t.obLen.toNat = im.length ∧ t.output = im ∧ ∀ a, im.length ≤ a → t.ob.read a = s.ob.read a) ∧
    (∀ e, encodePacket s.build s.pkt = .error e → ∃ k, e = .raise k ∧
      exec .encode s = .next { s with
        status := 0b110, errcode := s.build.errNumbers.code k, errpos := 0, work := none })

/-- The tests of an ENCODE in the order of R209 (R191): type valid, type code, qos, required registers, the body's fields
(the error of the body encoder, stated with each of them, is the command's), body length, capacity. -/
def Obligations.EncodeErrorsInOrder : Prop :=
  ∀ s : State, s.busy = false →
    (s.pkt.ptype = none → exec .encode s = .next (s.enterError false ⟨.missingRequiredField, 0⟩)) ∧
    (∀ c, s.pkt.ptype = some c → lookupTag s.build.typeCode c = none →
      exec .encode s = .next (s.enterError false ⟨.unknownPacketType, 0⟩)) ∧
    (∀ c t, s.pkt.ptype = some c → lookupTag s.build.typeCode c = some t →
      (s.pkt.qos = 3 → exec .encode s = .next (s.enterError false ⟨.reservedQoS, 0⟩)) ∧
      (s.pkt.qos ≠ 3 → reqOk t s.pkt = false → exec .encode s = .next (s.enterError false ⟨.missingRequiredField, 0⟩)) ∧
      (∀ k h, s.pkt.qos ≠ 3 → reqOk t s.pkt = true → exec (beOf t h) s = .next (s.enterError false ⟨k, 0⟩) →
        exec .encode s = .next (s.enterError false ⟨k, 0⟩)) ∧
      (∀ body, s.pkt.qos ≠ 3 → reqOk t s.pkt = true → bodyEnc s.build t s.pkt = .ok body → rlMax < body.length →
        exec .encode s = .next (s.enterError false ⟨.lengthOutOfRange, 0⟩)) ∧
      (∀ body im, s.pkt.qos ≠ 3 → reqOk t s.pkt = true → bodyEnc s.build t s.pkt = .ok body →
        fhEnc s.build.typeCode t ⟨s.pkt.dup, s.pkt.qos, s.pkt.retain⟩ body = .ok im → s.build.obCap < im.length →
        body.length ≤ rlMax → exec .encode s = .next (s.enterError false ⟨.capacityExceeded, 0⟩)))

/-- An ENCODE is REQ_CHECK, the body encoder of the type, FH_ENC and the commit (R191, R170, R193): the internal operations,
run one after the other on a fresh working state, give exactly the image the command commits, or the error it reports. -/
def Obligations.EncodeIsCheckThenBodyThenHeaderThenCommit : Prop :=
  ∀ (s : State) (c : BitVec 4) (t : Tag), s.busy = false → s.work = none → s.pkt.ptype = some c →
    lookupTag s.build.typeCode c = some t → s.pkt.qos ≠ 3 → reqOk t s.pkt = true →
    exec (.reqCheck t) s = .next s ∧ ∃ u, exec (beOf t ⟨s.pkt.dup, s.pkt.qos, s.pkt.retain⟩) s = .next u ∧
      (u.work = none → exec .encode s = .next u) ∧
      (∀ w, u.work = some w → ∃ v, exec (.fhEnc t ⟨s.pkt.dup, s.pkt.qos, s.pkt.retain⟩) u = .next v ∧
        (v.work = none → exec .encode s = .next v) ∧
        (∀ x, v.work = some x → x.image.length ≤ s.build.obCap → exec .encode s = .next (s.commitEncode x.image)))

/-- The result of an encode depends on the register file only through `packet_of(PKT)` (R26), which is defined wherever an
encode succeeds; so registers of other types are ignored (R186). -/
def Obligations.EncodeDependsOnlyOnThePacket : Prop :=
  ∀ (b : Build) (p : Pkt),
    (∀ im, encodePacket b p = .ok im → packetOf b p ≠ none) ∧
    (∀ p' q, packetOf b p = some q → packetOf b p' = some q → encodePacket b p = encodePacket b p')

/-- Decode after encode (R194): the image of every register file on which encode succeeds decodes, in either mode of
`RL_STRICT`, to `canon` of its Packet, and is consumed whole. -/
def Obligations.DecodeAfterEncodeIsCanon : Prop :=
  ∀ (b : Build) (p : Pkt) (im : Bytes) (strict : Bool), b.wf = true → p.fits b.listCap = true → encodePacket b p = .ok im →
    ∃ q, packetOf b p = some q ∧ decodedPacket b strict im = some (q.canon, im.length)

/-- Encode after decode (R195): what decodes can be encoded, in no more bytes than were consumed, where the output buffer has
the room; the result decodes to `canon` of the Packet, and is the bytes consumed iff those are canonical. Bytes are canonical
iff they decode whole and meet the conditions (a) to (e) (R197). -/
def Obligations.EncodeAfterDecodeSucceeds : Prop :=
  ∀ (b : Build) (strict : Bool), b.wf = true →
    (∀ (strict' : Bool) (buf : Bytes) (p : Pkt) (n : Nat), decodePacket b strict buf = .ok (p, n) → n ≤ b.obCap →
      (∃ q im, packetOf b p = some q ∧ encodePacket b p = .ok im ∧ im.length ≤ n ∧
        decodedPacket b strict' im = some (q.canon, im.length)) ∧
      (encodePacket b p = .ok (buf.take n) ↔ Canonical b (buf.take n))) ∧
    (∀ bs : Bytes, bs.length ≤ b.obCap → (Canonical b bs ↔ CanonicalForm b strict bs))

/-- An error leaves nothing behind (R212): what a command does does not depend on the status registers or on the working state
of an earlier one. -/
def Obligations.EarlierErrorsLeaveNoTrace : Prop :=
  ∀ (s : State) (st : BitVec 3) (ec : BitVec 4) (ep : Offset) (w : Option Work), s.busy = false → st.getLsbD 0 = false →
    ∀ i ∈ [Instr.decode, .encode], exec i { s with status := st, errcode := ec, errpos := ep, work := w } = exec i s

/-- A `CMD` write while BUSY starts no command (R240): the model's choice is that it is ignored (log entry 6). -/
def Obligations.BusyCommandIsIgnored : Prop :=
  ∀ s : State, s.busy = true → exec .decode s = .next s ∧ exec .encode s = .next s

/-! ### Reset, the host and the invariants -/

/-- The state after reset: the table of R42 (R230). -/
def Obligations.ResetIsTheTable : Prop :=
  let s := State.reset
  s.status = 0 ∧ s.errcode = 0 ∧ s.errpos = 0 ∧ s.cfg = 0 ∧ s.ibLen = 0 ∧ s.obLen = 0 ∧ s.consumed = 0 ∧
  s.pkt.dup = false ∧ s.pkt.qos = 0 ∧ s.pkt.retain = false ∧
  s.pkt.ptype = none ∧ s.pkt.protoName = none ∧ s.pkt.protoVer = none ∧ s.pkt.cleanSession = none ∧ s.pkt.keepAlive = none ∧
  s.pkt.clientId = none ∧ s.pkt.willTopic = none ∧ s.pkt.willMessage = none ∧ s.pkt.willQos = none ∧ s.pkt.willRetain = none ∧
  s.pkt.username = none ∧ s.pkt.password = none ∧ s.pkt.returnCode = none ∧ s.pkt.topic = none ∧ s.pkt.msgId = none ∧
  s.pkt.payload = none ∧ s.pkt.subs = none ∧ s.pkt.granted = none ∧ s.pkt.topics = none ∧ s.work = none ∧ s.cmd = none ∧
  exec .decode s = .next (s.enterError true ⟨.truncatedInput, 0⟩) ∧
  exec .encode s = .next (s.enterError false ⟨.missingRequiredField, 0⟩)

/-- The state after reset is sound. -/
def Obligations.ResetIsSound : Prop :=
  ∀ b : Build, b.wf = true → (State.resetOf b).Sound

/-- Every step keeps a sound state sound: canonical buffers within their capacities, lengths within them, not BUSY, no working
state, a status whose ERR, DONE, ERRCODE and ERRPOS agree with each other and with a pending `CMD` write (R35 to R37, R212), offsets that never wrap (R28, R33). -/
def Obligations.StepKeepsSound : Prop :=
  ∀ s t : State, s.Sound → step s = .next t → t.Sound

/-- Every step keeps each packet register within its width (R23). -/
def Obligations.StepKeepsRegisterWidths : Prop :=
  ∀ s t : State, s.pkt.fits s.build.listCap = true → step s = .next t → t.pkt.fits t.build.listCap = true

/-- The host's writes (R41): reset is taken at any time (R230); with no command under way a write of `CFG`, `IB`, `IB_LEN` or any
packet register (with its valid bit, R25) sets that and nothing else, and a write of `CMD` is held and, with 1 or 2, clears
`DONE` and `ERR` (R35, R212). The model's choices: the write of `CMD` waits for the next step (log entry 4); from then to the
command's end a second `CMD` write is ignored (R240, log entry 6) and any other write is refused (R241, log entry 10), as is a
value wider than its register; an offset or length beyond the capacity faults (log entry 10). -/
def Obligations.HostWritesReachTheirRegister : Prop :=
  ∀ s : State,
    s.hostWrite .reset = .next (State.resetOf s.build) ∧
    (s.busy = true ∨ s.cmd ≠ none → (∀ c, s.hostWrite (.cmd c) = .next s) ∧
      (∀ w, s.hostWrite (.reg w) = .refused .hostWriteWhileBusy) ∧
      (∀ a b, s.hostWrite (.ib a b) = .refused .hostWriteWhileBusy) ∧
      (∀ n, s.hostWrite (.ibLen n) = .refused .hostWriteWhileBusy) ∧ ∀ v, s.hostWrite (.cfg v) = .refused .hostWriteWhileBusy) ∧
    (s.busy = false → s.cmd = none →
      let sets (w : PktWrite) (p : Pkt) : Prop := s.hostWrite (.reg w) = .next { s with pkt := p }
      let fits (t : Text) : Prop := t.length ≤ textMax
      let counts (n : Nat) : Prop := ∀ c, s.build.listCap = some c → n ≤ c
      (∀ c, c = 1 ∨ c = 2 → s.hostWrite (.cmd c) = .next { s with cmd := some c, status := 0 }) ∧
      (∀ c, c = 0 ∨ c = 3 → s.hostWrite (.cmd c) = .next { s with cmd := some c }) ∧
      (∀ v, s.hostWrite (.cfg v) = .next { s with cfg := v }) ∧
      (∀ a b, a < s.build.ibCap → s.hostWrite (.ib a b) = .next { s with ib := s.ib.write a b }) ∧
      (∀ a b, s.build.ibCap ≤ a → s.hostWrite (.ib a b) = .fault .beyondCapacity) ∧
      (∀ n : Offset, n.toNat ≤ s.build.ibCap → s.hostWrite (.ibLen n) = .next { s with ibLen := n }) ∧
      (∀ n : Offset, s.build.ibCap < n.toNat → s.hostWrite (.ibLen n) = .fault .beyondCapacity) ∧
      (∀ v, sets (.ptype v) { s.pkt with ptype := v }) ∧ (∀ v, sets (.dup v) { s.pkt with dup := v }) ∧
      (∀ v, sets (.qos v) { s.pkt with qos := v }) ∧ (∀ v, sets (.retain v) { s.pkt with retain := v }) ∧
      (∀ v, sets (.protoVer v) { s.pkt with protoVer := v }) ∧ (∀ v, sets (.cleanSession v) { s.pkt with cleanSession := v }) ∧
      (∀ v, sets (.keepAlive v) { s.pkt with keepAlive := v }) ∧ (∀ v, sets (.willQos v) { s.pkt with willQos := v }) ∧
      (∀ v, sets (.willRetain v) { s.pkt with willRetain := v }) ∧ (∀ v, sets (.returnCode v) { s.pkt with returnCode := v }) ∧
      (∀ v, sets (.msgId v) { s.pkt with msgId := v }) ∧
      (∀ v : Option Text, (∀ t, v = some t → fits t) →
        sets (.protoName v) { s.pkt with protoName := v } ∧ sets (.clientId v) { s.pkt with clientId := v } ∧
        sets (.willTopic v) { s.pkt with willTopic := v } ∧ sets (.willMessage v) { s.pkt with willMessage := v } ∧
        sets (.username v) { s.pkt with username := v } ∧ sets (.password v) { s.pkt with password := v } ∧
        sets (.topic v) { s.pkt with topic := v }) ∧
      (∀ v : Option Bytes, (∀ t, v = some t → t.length ≤ rlMax) → sets (.payload v) { s.pkt with payload := v }) ∧
      (∀ v : Option (List (Text × Byte)), (∀ l, v = some l → counts l.length ∧ ∀ e ∈ l, fits e.1) →
        sets (.subs v) { s.pkt with subs := v }) ∧
      (∀ v : Option (List Byte), (∀ l, v = some l → counts l.length) → sets (.granted v) { s.pkt with granted := v }) ∧
      (∀ v : Option (List Text), (∀ l, v = some l → counts l.length ∧ ∀ t ∈ l, fits t) →
        sets (.topics v) { s.pkt with topics := v }) ∧
      (∀ t : Text, ¬ fits t →
        ∀ w ∈ [PktWrite.protoName (some t), .clientId (some t), .willTopic (some t), .willMessage (some t), .username (some t),
          .password (some t), .topic (some t)], s.hostWrite (.reg w) = .refused .valueTooWide) ∧
      (∀ t : Bytes, rlMax < t.length → s.hostWrite (.reg (.payload (some t))) = .refused .valueTooWide) ∧
      (∀ l : List (Text × Byte), ¬ (counts l.length ∧ ∀ e ∈ l, fits e.1) →
        s.hostWrite (.reg (.subs (some l))) = .refused .valueTooWide) ∧
      (∀ l : List Byte, ¬ counts l.length → s.hostWrite (.reg (.granted (some l))) = .refused .valueTooWide) ∧
      (∀ l : List Text, ¬ (counts l.length ∧ ∀ t ∈ l, fits t) →
        s.hostWrite (.reg (.topics (some l))) = .refused .valueTooWide))

/-- Every host write that is taken (R41, R230) keeps a sound state sound and the registers within their widths. -/
def Obligations.HostWritesKeepSound : Prop :=
  ∀ (s t : State) (w : HostWrite), s.Sound → s.pkt.fits s.build.listCap = true → s.hostWrite w = .next t →
    t.Sound ∧ t.pkt.fits t.build.listCap = true
end

