-- ==== Sys2Proof/Laws/Bits.lean ====
section
/-! SUPPORT. The bit-field extractor: a sum of shifted fields with disjoint ranges is their union of bits, so that each field is read back. -/

namespace Sys2Proof

/-- Numbers that share no bit add up to their union. -/
theorem add_eq_or_of_disjoint (a b : Nat) (h : ∀ i, (a.testBit i && b.testBit i) = false) : a + b = a ||| b := by
  induction a using Nat.strong_induction_on generalizing b with
  | _ a ih =>
    rcases Nat.eq_zero_or_pos a with rfl | ha
    · simp
    have h0 := h 0
    have hs := ih (a / 2) (by omega) (b / 2) (by intro i; have := h (i + 1); simpa [Nat.testBit_succ] using this)
    have e : (a ||| b) = 2 * ((a ||| b) / 2) + (a ||| b) % 2 := by omega
    have e2 : (a ||| b) / 2 = a / 2 ||| b / 2 := by
      apply Nat.eq_of_testBit_eq
      intro i
      simp [Nat.testBit_div_two]
    have e3 : (a ||| b) % 2 = (a % 2) ||| (b % 2) := Nat.or_mod_two_pow (n := 1)
    rw [e, e2, e3, ← hs]
    simp only [Nat.testBit_zero, Bool.and_eq_false_iff, decide_eq_false_iff_not] at h0
    rcases Nat.mod_two_eq_zero_or_one a with h1 | h1 <;> rcases Nat.mod_two_eq_zero_or_one b with h2 | h2 <;> rw [h1, h2] <;> simp <;> omega

/-- The sum of an `INSERT` (R101). -/
def fieldSum (fs : List BitField) : Nat := (fs.map fun f => f.value.toNat * 2 ^ f.lo.val).sum

theorem BitField.fits_iff {f : BitField} : f.fits = true ↔ f.lo ≤ f.hi ∧ f.value.toNat < 2 ^ (f.hi.val - f.lo.val + 1) := by
  simp [BitField.fits, rangeOk]

/-- A field that fits has bits in its range only. -/
theorem BitField.testBit {f : BitField} (h : f.fits = true) (i : Nat) :
    (f.value.toNat * 2 ^ f.lo.val).testBit i = (decide (f.lo.val ≤ i ∧ i ≤ f.hi.val) && f.value.toNat.testBit (i - f.lo.val)) := by
  obtain ⟨h1, h2⟩ := BitField.fits_iff.1 h
  have h1 : f.lo.val ≤ f.hi.val := h1
  rw [Nat.testBit_mul_two_pow]
  by_cases hl : f.lo.val ≤ i
  · by_cases hh : i ≤ f.hi.val
    · simp [hl, hh]
    · rw [Nat.testBit_lt_two_pow (Nat.lt_of_lt_of_le h2 (Nat.pow_le_pow_right (by omega) (by omega)))]
      simp
  · simp [hl]

theorem fieldsDisjoint_cons {f : BitField} {fs : List BitField} (h : fieldsDisjoint (f :: fs) = true) :
    (∀ g ∈ fs, f.hi < g.lo ∨ g.hi < f.lo) ∧ fieldsDisjoint fs = true := by
  simpa [fieldsDisjoint, BitField.disjoint, List.all_eq_true] using h

/-- The bits of the sum are the bits of its fields. -/
theorem fieldSum_testBit (fs : List BitField) (hf : ∀ f ∈ fs, f.fits = true) (hd : fieldsDisjoint fs = true) (i : Nat) :
    (fieldSum fs).testBit i = fs.any fun f => (f.value.toNat * 2 ^ f.lo.val).testBit i := by
  induction fs generalizing i with
  | nil => simp [fieldSum]
  | cons f fs ih =>
    obtain ⟨h1, h2⟩ := fieldsDisjoint_cons hd
    have ih := ih (fun g hg => hf g (.tail _ hg)) h2
    have e : fieldSum (f :: fs) = f.value.toNat * 2 ^ f.lo.val + fieldSum fs := by simp [fieldSum]
    rw [e, add_eq_or_of_disjoint, Nat.testBit_or, ih, List.any_cons]
    intro j
    rw [ih, Bool.and_eq_false_iff]
    by_cases hj : f.lo.val ≤ j ∧ j ≤ f.hi.val
    · right
      rw [List.any_eq_false]
      intro g hg
      rw [BitField.testBit (hf g (.tail _ hg)), Bool.and_eq_true, decide_eq_true_eq, not_and]
      intro hr
      exfalso
      obtain h | h := h1 g hg
      · have h : f.hi.val < g.lo.val := h
        omega
      · have h : g.hi.val < f.lo.val := h
        omega
    · left
      rw [BitField.testBit (hf f (.head _))]
      simp [hj]

/-- The sum fits a byte. -/
theorem fieldSum_lt (fs : List BitField) (hf : ∀ f ∈ fs, f.fits = true) (hd : fieldsDisjoint fs = true) : fieldSum fs < 256 := by
  refine Nat.lt_pow_two_of_testBit (n := 8) _ fun i hi => ?_
  rw [fieldSum_testBit fs hf hd, List.any_eq_false]
  intro f hm
  rw [BitField.testBit (hf f hm)]
  have := f.hi.isLt
  simp; omega

theorem insertBits_toNat {fs : List BitField} (hf : ∀ f ∈ fs, f.fits = true) (hd : fieldsDisjoint fs = true) :
    (insertBits fs).toNat = fieldSum fs := by
  rw [insertBits, BitVec.toNat_ofNat]
  exact Nat.mod_eq_of_lt (fieldSum_lt fs hf hd)

theorem extractBits_toNat (b : Byte) (hi lo : Nat) : (extractBits b hi lo).toNat = b.toNat / 2 ^ lo % 2 ^ (hi - lo + 1) := by
  rw [extractBits, BitVec.toNat_ofNat, Nat.mod_eq_of_lt]
  exact Nat.lt_of_le_of_lt (Nat.mod_le _ _) (Nat.lt_of_le_of_lt (Nat.div_le_self _ _) b.isLt)

/-- A field put into a byte is read back from its range (R101). -/
theorem extractBits_insertBits {fs : List BitField} (hf : ∀ f ∈ fs, f.fits = true) (hd : fieldsDisjoint fs = true)
    {f : BitField} (hm : f ∈ fs) : extractBits (insertBits fs) f.hi.val f.lo.val = f.value := by
  apply BitVec.eq_of_toNat_eq
  rw [extractBits_toNat, insertBits_toNat hf hd]
  obtain ⟨h1, h2⟩ := BitField.fits_iff.1 (hf f hm)
  have h1 : f.lo.val ≤ f.hi.val := h1
  apply Nat.eq_of_testBit_eq
  intro i
  rw [Nat.testBit_mod_two_pow, Nat.testBit_div_two_pow, fieldSum_testBit fs hf hd]
  by_cases hi : i < f.hi.val - f.lo.val + 1
  · have hfi := BitField.testBit (hf f hm) (i + f.lo.val)
    rw [Nat.add_sub_cancel, decide_eq_true (by omega), Bool.true_and] at hfi
    rw [decide_eq_true hi, Bool.true_and]
    cases hv : f.value.toNat.testBit i with
    | true => exact List.any_eq_true.2 ⟨f, hm, hfi.trans hv⟩
    | false =>
      rw [List.any_eq_false]
      intro g hg
      by_cases hgf : g = f
      · rw [hgf, hfi, hv]; simp
      rw [BitField.testBit (hf g hg), Bool.and_eq_true, decide_eq_true_eq, not_and]
      intro hr
      exfalso
      have key : ∀ l : List BitField, fieldsDisjoint l = true → f ∈ l → g ∈ l → f.hi.val < g.lo.val ∨ g.hi.val < f.lo.val := by
        intro l
        induction l with
        | nil => intro _ h; cases h
        | cons x l ih =>
          intro hl hfl hgl
          obtain ⟨a, b⟩ := fieldsDisjoint_cons hl
          rcases List.mem_cons.1 hfl with rfl | hf'
          · exact a g ((List.mem_cons.1 hgl).resolve_left hgf)
          · rcases List.mem_cons.1 hgl with rfl | hg'
            · exact (a f hf').symm
            · exact ih b hf' hg'
      have := key fs hd hm hg
      omega
  · rw [decide_eq_false hi, Bool.false_and]
    exact (Nat.testBit_lt_two_pow (Nat.lt_of_lt_of_le h2 (Nat.pow_le_pow_right (by omega) (by omega)))).symm

end Sys2Proof
end

