-- ==== Sys2Proof/Laws/Codes.lean ====
section
/-! SUPPORT. The header byte and the type-code table: the two halves of the header byte are read back, and the two lookups of a lawful table are inverse. -/

namespace Sys2Proof

theorem bitVec8_forall {P : Byte → Prop} (h : ∀ n : Fin 256, P (BitVec.ofFin n)) (b : Byte) : P b := h b.toFin
theorem bitVec4_forall {P : BitVec 4 → Prop} (h : ∀ n : Fin 16, P (BitVec.ofFin n)) (b : BitVec 4) : P b := h b.toFin
theorem bitVec2_forall {P : BitVec 2 → Prop} (h : ∀ n : Fin 4, P (BitVec.ofFin n)) (b : BitVec 2) : P b := h b.toFin

theorem headerCode_headerByte (c : BitVec 4) (h : Hdr) : headerCode (headerByte c h) = c := by
  obtain ⟨d, q, r⟩ := h
  revert c q
  refine fun c q => bitVec2_forall (P := fun q => headerCode (headerByte c ⟨d, q, r⟩) = c) (fun n => ?_) q
  revert c
  refine bitVec4_forall ?_
  revert n
  cases d <;> cases r <;> decide

theorem headerFlags_headerByte (c : BitVec 4) (h : Hdr) : headerFlags (headerByte c h) = h := by
  obtain ⟨d, q, r⟩ := h
  revert c q
  refine fun c q => bitVec2_forall (P := fun q => headerFlags (headerByte c ⟨d, q, r⟩) = ⟨d, q, r⟩) (fun n => ?_) q
  revert c
  refine bitVec4_forall ?_
  revert n
  cases d <;> cases r <;> decide

/-- The header byte is put together again from its two halves. -/
theorem headerByte_of_halves (b : Byte) : headerByte (headerCode b) (headerFlags b) = b :=
  bitVec8_forall (P := fun b => headerByte (headerCode b) (headerFlags b) = b) (by decide +kernel) b

/-! ### A lawful table -/

theorem typeCodeWf_iff {tc : List Tag} : typeCodeWf tc = true ↔
    tc.length = 14 ∧ tc.Nodup ∧ (∀ t, t ∈ tc) ∧ tc.head? = some .connect := by
  have hall : (∀ t ∈ allTags, t ∈ tc) ↔ ∀ t, t ∈ tc :=
    ⟨fun h t => h t (by cases t <;> decide), fun h t _ => h t⟩
  simp only [typeCodeWf, Bool.and_eq_true, beq_iff_eq, decide_eq_true_eq, List.all_eq_true, hall, and_assoc]

theorem lookupCode_toNat {tc : List Tag} (h : typeCodeWf tc = true) (t : Tag) :
    (lookupCode tc t).toNat = tc.idxOf t + 1 ∧ tc.idxOf t < 14 := by
  obtain ⟨h1, _, h3, _⟩ := typeCodeWf_iff.1 h
  have := List.idxOf_lt_length_iff.2 (h3 t)
  refine ⟨?_, by omega⟩
  rw [lookupCode, BitVec.toNat_ofNat, Nat.mod_eq_of_lt (by omega)]

/-- A tag's code is read back as the tag. -/
theorem lookupTag_lookupCode {tc : List Tag} (h : typeCodeWf tc = true) (t : Tag) :
    lookupTag tc (lookupCode tc t) = some t := by
  obtain ⟨h1, h2⟩ := lookupCode_toNat h t
  obtain ⟨_, _, h3, _⟩ := typeCodeWf_iff.1 h
  have hne : lookupCode tc t ≠ 0 := by
    intro he; rw [he] at h1; simp at h1
  rw [lookupTag, if_neg hne, h1, Nat.add_sub_cancel, List.getElem?_idxOf (h3 t)]

/-- A code that has a tag is that tag's code. -/
theorem lookupCode_of_lookupTag {tc : List Tag} (h : typeCodeWf tc = true) {c : BitVec 4} {t : Tag}
    (hc : lookupTag tc c = some t) : lookupCode tc t = c := by
  obtain ⟨h1, h2, _, _⟩ := typeCodeWf_iff.1 h
  unfold lookupTag at hc
  split at hc
  · cases hc
  · rename_i hne
    obtain ⟨hlt, he⟩ := List.getElem?_eq_some_iff.1 hc
    have hn : c.toNat ≠ 0 := fun he => hne (BitVec.eq_of_toNat_eq (by simpa using he))
    subst he
    rw [lookupCode, h2.idxOf_getElem]
    apply BitVec.eq_of_toNat_eq
    rw [BitVec.toNat_ofNat]
    omega

/-- The codes without a tag are 0 and 15. -/
theorem lookupTag_eq_none {tc : List Tag} (h : typeCodeWf tc = true) (c : BitVec 4) :
    lookupTag tc c = none ↔ c = 0 ∨ c = 15 := by
  obtain ⟨h1, _, _, _⟩ := typeCodeWf_iff.1 h
  unfold lookupTag
  by_cases hc : c = 0
  · simp [hc]
  · rw [if_neg hc, List.getElem?_eq_none_iff]
    have hn : c.toNat ≠ 0 := fun he => hc (BitVec.eq_of_toNat_eq (by simpa using he))
    have hlt := c.isLt
    constructor
    · intro hle
      right
      apply BitVec.eq_of_toNat_eq
      change c.toNat = 15
      omega
    · rintro (h0 | h0)
      · exact absurd h0 hc
      · subst h0; rw [h1]; decide

theorem lookupCode_ne {tc : List Tag} (h : typeCodeWf tc = true) (t : Tag) :
    lookupCode tc t ≠ 0 ∧ lookupCode tc t ≠ 15 := by
  have := lookupTag_lookupCode h t
  have hn := (lookupTag_eq_none h (lookupCode tc t)).not.1 (by rw [this]; simp)
  exact not_or.1 hn

end Sys2Proof
end

