-- ==== Sys2Proof/Laws/Memory.lean ====
section
/-! SUPPORT. The laws of a buffer: a read after a write, the frame of a write, and that every write keeps the canonical form. -/

namespace Sys2Proof.Machine

@[simp] theorem Mem.read_nil (a : Nat) : Mem.read [] a = 0#8 := rfl

theorem Mem.read_cons (k : Nat) (v : Byte) (m : Mem) (a : Nat) :
    Mem.read ((k, v) :: m) a = if k = a then v else Mem.read m a := rfl

theorem Mem.wfFrom_cons {cap low k : Nat} {v : Byte} {m : Mem} :
    Mem.wfFrom cap low ((k, v) :: m) = true ↔ low ≤ k ∧ k < cap ∧ v ≠ 0#8 ∧ Mem.wfFrom cap (k + 1) m = true := by
  have e : (0 : Byte) = 0#8 := rfl
  simp only [Mem.wfFrom, Mem.unlisted, e, Bool.and_eq_true, decide_eq_true_eq, and_assoc]

/-- Below the first admissible offset nothing is listed. -/
theorem Mem.read_below {cap low : Nat} {m : Mem} (h : Mem.wfFrom cap low m = true) {a : Nat} (ha : a < low) :
    Mem.read m a = 0#8 := by
  induction m generalizing low with
  | nil => rfl
  | cons c m ih =>
    obtain ⟨k, v⟩ := c
    obtain ⟨h1, _, _, h4⟩ := Mem.wfFrom_cons.1 h
    rw [Mem.read_cons, if_neg (by omega)]
    exact ih h4 (by omega)

theorem Mem.wfFrom_mono {cap low low' : Nat} {m : Mem} (h : Mem.wfFrom cap low m = true) (hl : low' ≤ low) :
    Mem.wfFrom cap low' m = true := by
  cases m with
  | nil => rfl
  | cons c m =>
    obtain ⟨k, v⟩ := c
    obtain ⟨h1, h2, h3, h4⟩ := Mem.wfFrom_cons.1 h
    exact Mem.wfFrom_cons.2 ⟨by omega, h2, h3, h4⟩

/-- A write below the capacity keeps the canonical form. -/
theorem Mem.wfFrom_write {cap low : Nat} {m : Mem} (h : Mem.wfFrom cap low m = true) {a : Nat} (b : Byte)
    (hl : low ≤ a) (hc : a < cap) : Mem.wfFrom cap low (Mem.write m a b) = true := by
  induction m generalizing low with
  | nil =>
    by_cases hb : b = 0#8
    · simp [Mem.write, Mem.unlisted, hb, Mem.wfFrom]
    · simp [Mem.write, Mem.unlisted, hb, Mem.wfFrom, hl, hc]
  | cons c m ih =>
    obtain ⟨k, v⟩ := c
    obtain ⟨h1, h2, h3, h4⟩ := Mem.wfFrom_cons.1 h
    unfold Mem.write
    split
    · split
      · exact h
      · rename_i hb
        exact Mem.wfFrom_cons.2 ⟨hl, hc, hb, Mem.wfFrom_cons.2 ⟨by omega, h2, h3, h4⟩⟩
    · split
      · subst a
        split
        · exact Mem.wfFrom_mono h4 (by omega)
        · rename_i hb
          exact Mem.wfFrom_cons.2 ⟨hl, hc, hb, h4⟩
      · exact Mem.wfFrom_cons.2 ⟨h1, h2, h3, ih h4 (by omega)⟩

/-- Every byte write keeps the canonical form of a buffer. -/
theorem Mem.wf_write {cap : Nat} {m : Mem} (h : Mem.wf cap m = true) {a : Nat} (b : Byte) (hc : a < cap) :
    Mem.wf cap (Mem.write m a b) = true := Mem.wfFrom_write h b (Nat.zero_le a) hc

/-- Every write of bytes keeps the canonical form of a buffer. -/
theorem Mem.wf_writeBytes {cap : Nat} {m : Mem} (h : Mem.wf cap m = true) {a : Nat} (bs : Bytes)
    (hc : a + bs.length ≤ cap) : Mem.wf cap (Mem.writeBytes m a bs) = true := by
  induction bs generalizing m a with
  | nil => exact h
  | cons b bs ih =>
    simp only [List.length_cons] at hc
    exact ih (Mem.wf_write h b (by omega)) (by omega)

/-- What a byte write leaves at every offset: the byte at its own, the old one elsewhere. -/
theorem Mem.read_write_from {cap low : Nat} {m : Mem} (h : Mem.wfFrom cap low m = true) (a : Nat) (b : Byte) (x : Nat) :
    Mem.read (Mem.write m a b) x = if x = a then b else Mem.read m x := by
  induction m generalizing low with
  | nil =>
    by_cases hb : b = 0#8 <;> by_cases hx : x = a
    · simp [Mem.write, Mem.unlisted, hb]
    · simp [Mem.write, Mem.unlisted, hb]
    · simp [Mem.write, Mem.unlisted, hb, Mem.read_cons, hx]
    · simp [Mem.write, Mem.unlisted, hb, Mem.read_cons, hx, Ne.symm hx]
  | cons c m ih =>
    obtain ⟨k, v⟩ := c
    obtain ⟨h1, h2, h3, h4⟩ := Mem.wfFrom_cons.1 h
    unfold Mem.write
    split
    · rename_i hlt
      split
      · rename_i hb
        rw [hb]
        by_cases hx : x = a
        · subst hx
          rw [if_pos rfl, Mem.read_cons, if_neg (by omega)]
          exact Mem.read_below h4 (by omega)
        · rw [if_neg hx]
      · by_cases hx : x = a
        · subst hx; simp [Mem.read_cons]
        · rw [Mem.read_cons, if_neg (by omega), if_neg hx]
    · split
      · subst a
        split
        · rename_i hb
          rw [hb]
          by_cases hx : x = k
          · subst hx
            rw [if_pos rfl]
            exact Mem.read_below h4 (by omega)
          · rw [if_neg hx, Mem.read_cons, if_neg (by omega)]
        · by_cases hx : x = k
          · subst hx; simp [Mem.read_cons]
          · simp [Mem.read_cons, hx, Ne.symm hx]
      · rename_i hne
        rw [Mem.read_cons, ih h4, Mem.read_cons]
        by_cases hx : x = a
        · subst hx
          rw [if_pos rfl, if_neg (by omega), if_pos rfl]
        · by_cases hk : k = x <;> simp [hx, hk]

theorem Mem.read_write {cap : Nat} {m : Mem} (h : Mem.wf cap m = true) (a : Nat) (b : Byte) (x : Nat) :
    Mem.read (Mem.write m a b) x = if x = a then b else Mem.read m x := Mem.read_write_from h a b x

/-- What a write of bytes leaves at every offset. -/
theorem Mem.read_writeBytes {cap : Nat} {m : Mem} (h : Mem.wf cap m = true) (a : Nat) (bs : Bytes)
    (hc : a + bs.length ≤ cap) (x : Nat) :
    Mem.read (Mem.writeBytes m a bs) x =
      if a ≤ x ∧ x < a + bs.length then bs.getD (x - a) 0 else Mem.read m x := by
  induction bs generalizing m a with
  | nil => rw [if_neg (by simp)]; rfl
  | cons b bs ih =>
    simp only [List.length_cons] at hc ⊢
    rw [Mem.writeBytes, ih (Mem.wf_write h b (by omega)) _ (by omega), Mem.read_write h]
    by_cases hx : x = a
    · subst hx
      rw [if_neg (by omega), if_pos rfl, if_pos (by omega)]
      simp
    · rw [if_neg hx]
      by_cases hr : a + 1 ≤ x ∧ x < a + 1 + bs.length
      · rw [if_pos hr, if_pos (by omega)]
        obtain ⟨d, rfl⟩ : ∃ d, x = a + 1 + d := ⟨x - (a + 1), by omega⟩
        have e1 : a + 1 + d - (a + 1) = d := by omega
        have e2 : a + 1 + d - a = d + 1 := by omega
        rw [e1, e2, List.getD_cons_succ]
      · rw [if_neg hr, if_neg (by omega)]

@[simp] theorem Mem.readBytes_length (m : Mem) (a n : Nat) : (Mem.readBytes m a n).length = n := by
  induction n generalizing a with
  | zero => rfl
  | succ n ih => simp [Mem.readBytes, ih]

theorem Mem.readBytes_getD (m : Mem) (a n i : Nat) (h : i < n) :
    (Mem.readBytes m a n).getD i 0 = Mem.read m (a + i) := by
  induction n generalizing a i with
  | zero => omega
  | succ n ih =>
    cases i with
    | zero => simp [Mem.readBytes]
    | succ i =>
      rw [Mem.readBytes, List.getD_cons_succ, ih _ _ (by omega)]
      congr 1
      omega

/-- Two buffers with the same bytes in a range read the same bytes there. -/
theorem Mem.readBytes_congr (m m' : Mem) (a n : Nat) (h : ∀ i < n, Mem.read m (a + i) = Mem.read m' (a + i)) :
    Mem.readBytes m a n = Mem.readBytes m' a n := by
  induction n generalizing a with
  | zero => rfl
  | succ n ih =>
    have h0 := h 0 (by omega)
    rw [Nat.add_zero] at h0
    rw [Mem.readBytes, Mem.readBytes, h0, ih]
    intro i hi
    have := h (i + 1) (by omega)
    rwa [show a + (i + 1) = a + 1 + i by omega] at this

/-- Bytes just written are read back. -/
theorem Mem.readBytes_writeBytes {cap : Nat} {m : Mem} (h : Mem.wf cap m = true) (a : Nat) (bs : Bytes)
    (hc : a + bs.length ≤ cap) : Mem.readBytes (Mem.writeBytes m a bs) a bs.length = bs := by
  apply List.ext_getElem (by simp)
  intro i h1 h2
  have e := Mem.readBytes_getD (Mem.writeBytes m a bs) a bs.length i h2
  rw [Mem.read_writeBytes h a bs hc, if_pos (by omega), Nat.add_sub_cancel_left] at e
  rwa [List.getD_eq_getElem _ _ h1, List.getD_eq_getElem _ _ h2] at e

@[simp] theorem State.input_length (s : State) : s.input.length = s.ibLen.toNat := Mem.readBytes_length _ _ _

/-- A byte of the input is the byte of `IB` at that offset. -/
theorem State.byteAt_input (s : State) (a : Nat) (h : a < s.ibLen.toNat) : byteAt s.input a = s.ib.read a := by
  rw [byteAt, State.input, Mem.readBytes_getD _ _ _ _ h, Nat.zero_add]

end Sys2Proof.Machine
end

