-- ==== Sys2Proof/Laws/Primitives.lean ====
section
/-! SUPPORT. What the primitive decoders and encoders can do, said once: where they answer a value, what they read and where the cursor goes; where they raise, with which position. -/

namespace Sys2Proof.Machine

/-! ### Except: a sequence answers a value only if each part does -/

theorem except_bind_ok {ε α β : Type} {x : Except ε α} {f : α → Except ε β} {b : β} :
    (x >>= f) = .ok b ↔ ∃ a, x = .ok a ∧ f a = .ok b := by
  cases x <;> simp [bind, Except.bind]

theorem except_bind_error {ε α β : Type} {x : Except ε α} {f : α → Except ε β} {e : ε} :
    (x >>= f) = .error e ↔ x = .error e ∨ ∃ a, x = .ok a ∧ f a = .error e := by
  cases x <;> simp [bind, Except.bind]

@[simp] theorem except_ok_bind {ε α β : Type} (a : α) (f : α → Except ε β) : ((Except.ok a : Except ε α) >>= f) = f a := rfl
@[simp] theorem except_error_bind {ε α β : Type} (e : ε) (f : α → Except ε β) :
    ((Except.error e : Except ε α) >>= f) = .error e := rfl
@[simp] theorem except_pure {ε α : Type} (a : α) : (pure a : Except ε α) = .ok a := rfl

/-! ### Bytes at a cursor -/

theorem byteAt_of_drop {buf : Bytes} {cur : Nat} {b : Byte} {r : Bytes} (h : buf.drop cur = b :: r) : byteAt buf cur = b := by
  have : buf[cur]? = some b := by
    have := congrArg List.head? h
    simpa [List.head?_drop] using this
  simp [byteAt, List.getD, this]

theorem drop_add_of_drop {buf pre r : Bytes} {cur : Nat} (h : buf.drop cur = pre ++ r) :
    buf.drop (cur + pre.length) = r := by
  rw [← List.drop_drop, h, List.drop_left]

theorem drop_succ_of_drop {buf r : Bytes} {b : Byte} {cur : Nat} (h : buf.drop cur = b :: r) : buf.drop (cur + 1) = r :=
  drop_add_of_drop (pre := [b]) h

theorem slice_of_drop {buf pre r : Bytes} {cur : Nat} (h : buf.drop cur = pre ++ r) : slice buf cur pre.length = pre := by
  rw [slice, h, List.take_left]

theorem drop_eq_byteAt_cons {buf : Bytes} {cur : Nat} (h : cur < buf.length) :
    buf.drop cur = byteAt buf cur :: buf.drop (cur + 1) := by
  rw [List.drop_eq_getElem_cons h, byteAt, List.getD_eq_getElem _ _ h]

theorem drop_eq_slice_append (buf : Bytes) (cur n : Nat) : buf.drop cur = slice buf cur n ++ buf.drop (cur + n) := by
  rw [slice, ← List.drop_drop, List.take_append_drop]

theorem slice_length {buf : Bytes} {cur n : Nat} (h : cur + n ≤ buf.length) : (slice buf cur n).length = n := by
  rw [slice, List.length_take, List.length_drop]; omega

/-! ### Words -/

@[simp] theorem encByte_length (v : Byte) : (encByte v).length = 1 := rfl
@[simp] theorem encWord_length (v : Word) : (encWord v).length = 2 := rfl

theorem toNat_append_bytes (a b : Byte) : ((a ++ b : Word)).toNat = a.toNat * 256 + b.toNat := by
  have := b.isLt
  rw [BitVec.toNat_append, Nat.shiftLeft_eq, Nat.mul_comm, ← Nat.two_pow_add_eq_or_of_lt this]

/-- The word at an offset, as the rule computes it (R50). -/
theorem wordAt_toNat (buf : Bytes) (a : Nat) : (wordAt buf a).toNat = (byteAt buf a).toNat * 256 + (byteAt buf (a + 1)).toNat :=
  toNat_append_bytes _ _

theorem encWord_append (a b : Byte) : encWord (a ++ b : Word) = [a, b] := by
  have ha := a.isLt
  have hb := b.isLt
  rw [encWord, toNat_append_bytes]
  congr 1
  · apply BitVec.eq_of_toNat_eq; rw [BitVec.toNat_ofNat]; omega
  · congr 1
    apply BitVec.eq_of_toNat_eq; rw [BitVec.toNat_ofNat]; omega

theorem word_of_encWord (w : Word) :
    (BitVec.ofNat 8 (w.toNat / 256) ++ BitVec.ofNat 8 (w.toNat % 256) : Word) = w := by
  have hw := w.isLt
  apply BitVec.eq_of_toNat_eq
  rw [toNat_append_bytes, BitVec.toNat_ofNat, BitVec.toNat_ofNat]
  omega

theorem wordAt_of_drop {buf : Bytes} {cur : Nat} {w : Word} {r : Bytes} (h : buf.drop cur = encWord w ++ r) :
    wordAt buf cur = w := by
  rw [wordAt, byteAt_of_drop h, byteAt_of_drop (drop_succ_of_drop h), word_of_encWord]

theorem drop_eq_encWord {buf : Bytes} {cur : Nat} (h : cur + 2 ≤ buf.length) :
    buf.drop cur = encWord (wordAt buf cur) ++ buf.drop (cur + 2) := by
  rw [wordAt, encWord_append, drop_eq_byteAt_cons (by omega), drop_eq_byteAt_cons (cur := cur + 1) (by omega)]
  rfl

/-! ### The decoders where the bytes of a value stand at the cursor -/

theorem decByte_at {buf r : Bytes} {cur lim : Nat} {v : Byte} (h : buf.drop cur = encByte v ++ r) (hl : cur + 1 ≤ lim) :
    decByte buf cur lim = .ok (v, cur + 1) := by
  rw [decByte, if_neg (by omega), byteAt_of_drop h]

theorem decWord_at {buf r : Bytes} {cur lim : Nat} {w : Word} (h : buf.drop cur = encWord w ++ r) (hl : cur + 2 ≤ lim) :
    decWord buf cur lim = .ok (w, cur + 2) := by
  rw [decWord, if_neg (by omega), wordAt_of_drop h]

theorem decText_at {buf r bs : Bytes} {cur lim : Nat} {t : Text} (he : encText t = .ok bs)
    (h : buf.drop cur = bs ++ r) (hl : cur + bs.length ≤ lim) : decText buf cur lim = .ok (t, cur + bs.length) := by
  unfold encText at he
  split at he
  · cases he
  · rename_i hlen
    split at he
    · rename_i hok
      cases he
      rw [List.append_assoc] at h
      have hn : (BitVec.ofNat 16 t.length).toNat = t.length := by
        rw [BitVec.toNat_ofNat]; unfold textMax at hlen; omega
      simp only [List.length_append, encWord_length] at hl ⊢
      rw [decText, if_neg (by omega), wordAt_of_drop h, hn, if_neg (by omega)]
      have h2 : buf.drop (cur + 2) = t ++ r := drop_add_of_drop (pre := encWord _) h
      rw [slice_of_drop h2, if_pos hok, Nat.add_assoc]
    · cases he

theorem decRest_at {buf r : Bytes} {cur lim : Nat} {t : Bytes} (hok : utf8Ok t = true)
    (h : buf.drop cur = t ++ r) (hl : lim = cur + t.length) : decRest buf cur lim = .ok (t, lim) := by
  subst hl
  rw [decRest, Nat.add_sub_cancel_left, slice_of_drop h, if_pos hok]

/-! ### What a decoder has read where it answers a value -/

theorem decByte_ok {buf : Bytes} {cur lim : Nat} {v : Byte} {cur' : Nat} (hl : lim ≤ buf.length)
    (h : decByte buf cur lim = .ok (v, cur')) :
    cur' = cur + 1 ∧ cur' ≤ lim ∧ v = byteAt buf cur ∧ buf.drop cur = encByte v ++ buf.drop cur' := by
  unfold decByte at h
  split at h
  · cases h
  · cases h
    exact ⟨rfl, by omega, rfl, drop_eq_byteAt_cons (by omega)⟩

theorem decWord_ok {buf : Bytes} {cur lim : Nat} {w : Word} {cur' : Nat} (hl : lim ≤ buf.length)
    (h : decWord buf cur lim = .ok (w, cur')) :
    cur' = cur + 2 ∧ cur' ≤ lim ∧ w = wordAt buf cur ∧ buf.drop cur = encWord w ++ buf.drop cur' := by
  unfold decWord at h
  split at h
  · cases h
  · cases h
    exact ⟨rfl, by omega, rfl, drop_eq_encWord (by omega)⟩

theorem decText_ok {buf : Bytes} {cur lim : Nat} {t : Text} {cur' : Nat} (hl : lim ≤ buf.length)
    (h : decText buf cur lim = .ok (t, cur')) :
    cur' = cur + 2 + t.length ∧ cur' ≤ lim ∧ t.length ≤ textMax ∧ utf8Ok t = true ∧ t.length = (wordAt buf cur).toNat ∧
    ∃ bs, encText t = .ok bs ∧ bs.length = 2 + t.length ∧ buf.drop cur = bs ++ buf.drop cur' := by
  unfold decText at h
  split at h
  · cases h
  · dsimp only at h
    split at h
    · cases h
    · rename_i h1 h2
      split at h
      · rename_i hok
        cases h
        have hlt := (wordAt buf cur).isLt
        have hlen : (slice buf (cur + 2) (wordAt buf cur).toNat).length = (wordAt buf cur).toNat :=
          slice_length (by omega)
        have hmax : (wordAt buf cur).toNat ≤ textMax := by unfold textMax; omega
        refine ⟨by rw [hlen], by omega, by rw [hlen]; exact hmax, hok, hlen,
          encWord (wordAt buf cur) ++ slice buf (cur + 2) (wordAt buf cur).toNat, ?_, by simp [hlen], ?_⟩
        · rw [encText, if_neg (by rw [hlen]; omega), if_pos hok, hlen, BitVec.ofNat_toNat, BitVec.setWidth_eq]
        · rw [List.append_assoc, ← drop_eq_slice_append]
          exact drop_eq_encWord (by omega)
      · cases h

theorem decRest_ok {buf : Bytes} {cur lim : Nat} {t : Bytes} {cur' : Nat} (hl : lim ≤ buf.length) (hc : cur ≤ lim)
    (h : decRest buf cur lim = .ok (t, cur')) :
    cur' = lim ∧ t.length = lim - cur ∧ t = slice buf cur (lim - cur) ∧ utf8Ok t = true ∧ buf.drop cur = t ++ buf.drop cur' := by
  unfold decRest at h
  dsimp only at h
  split at h
  · rename_i hok
    cases h
    refine ⟨rfl, slice_length (by omega), rfl, hok, ?_⟩
    have := drop_eq_slice_append buf cur (lim - cur)
    rwa [show cur + (lim - cur) = lim by omega] at this
  · cases h

/-! ### Where a decoder raises: at the cursor on its entry (R37) -/

theorem decByte_error {buf : Bytes} {cur lim : Nat} {e : Err} (h : decByte buf cur lim = .error e) :
    e = ⟨.truncatedInput, cur⟩ ∧ lim < cur + 1 := by
  unfold decByte at h
  split at h
  · cases h; exact ⟨rfl, by omega⟩
  · cases h

theorem decWord_error {buf : Bytes} {cur lim : Nat} {e : Err} (h : decWord buf cur lim = .error e) :
    e = ⟨.truncatedInput, cur⟩ ∧ lim < cur + 2 := by
  unfold decWord at h
  split at h
  · cases h; exact ⟨rfl, by omega⟩
  · cases h

theorem decText_error {buf : Bytes} {cur lim : Nat} {e : Err} (h : decText buf cur lim = .error e) :
    e = ⟨.truncatedInput, cur⟩ ∨ e = ⟨.invalidEncoding, cur⟩ := by
  unfold decText at h
  dsimp only at h
  split at h
  · cases h; exact .inl rfl
  · split at h
    · cases h; exact .inl rfl
    · split at h
      · cases h
      · cases h; exact .inr rfl

theorem decRest_error {buf : Bytes} {cur lim : Nat} {e : Err} (h : decRest buf cur lim = .error e) :
    e = ⟨.invalidEncoding, cur⟩ := by
  unfold decRest at h
  dsimp only at h
  split at h <;> cases h
  rfl

/-! ### The encoders -/

theorem encText_ok {t bs : Bytes} (h : encText t = .ok bs) :
    t.length ≤ textMax ∧ utf8Ok t = true ∧ bs = encWord (BitVec.ofNat 16 t.length) ++ t ∧ bs.length = 2 + t.length := by
  unfold encText at h
  split at h
  · cases h
  · split at h
    · rename_i h1 h2
      cases h
      exact ⟨by omega, h2, rfl, by simp⟩
    · cases h

theorem encText_of_wf {t : Text} (hl : t.length ≤ textMax) (hok : utf8Ok t = true) :
    encText t = .ok (encWord (BitVec.ofNat 16 t.length) ++ t) := by
  rw [encText, if_neg (by omega), if_pos hok]

/-- An encode primitive never reads a register. -/
theorem encText_not_invalid (t : Bytes) : encText t ≠ .error .invalidRegister := by
  unfold encText
  split
  · simp
  · split <;> simp

theorem encRest_not_invalid (t : Bytes) : encRest t ≠ .error .invalidRegister := by
  unfold encRest
  split <;> simp

theorem readReg_eq_ok {α : Type} {r : Option α} {v : α} : readReg r = .ok v ↔ r = some v := by
  cases r <;> simp [readReg]

@[simp] theorem readReg_some {α : Type} (v : α) : readReg (some v) = .ok v := rfl

theorem readReg_of_isSome {α : Type} {r : Option α} (h : r.isSome = true) : ∃ v, r = some v ∧ readReg r = .ok v := by
  cases r with
  | none => cases h
  | some v => exact ⟨v, rfl, rfl⟩

end Sys2Proof.Machine
end

