-- ==== Sys2Proof/Laws/State.lean ====
section
/-! SUPPORT. One lemma per field per update of State, true by rfl, so that no proof unfolds a record update. -/

namespace Sys2Proof.Machine

/-! ### setWork -/

@[simp] theorem State.setWork_pkt (s : State) (w : Work) : (s.setWork w).pkt = s.pkt := rfl
@[simp] theorem State.setWork_ib (s : State) (w : Work) : (s.setWork w).ib = s.ib := rfl
@[simp] theorem State.setWork_ibLen (s : State) (w : Work) : (s.setWork w).ibLen = s.ibLen := rfl
@[simp] theorem State.setWork_ob (s : State) (w : Work) : (s.setWork w).ob = s.ob := rfl
@[simp] theorem State.setWork_obLen (s : State) (w : Work) : (s.setWork w).obLen = s.obLen := rfl
@[simp] theorem State.setWork_consumed (s : State) (w : Work) : (s.setWork w).consumed = s.consumed := rfl
@[simp] theorem State.setWork_status (s : State) (w : Work) : (s.setWork w).status = s.status := rfl
@[simp] theorem State.setWork_errcode (s : State) (w : Work) : (s.setWork w).errcode = s.errcode := rfl
@[simp] theorem State.setWork_errpos (s : State) (w : Work) : (s.setWork w).errpos = s.errpos := rfl
@[simp] theorem State.setWork_cfg (s : State) (w : Work) : (s.setWork w).cfg = s.cfg := rfl
@[simp] theorem State.setWork_cmd (s : State) (w : Work) : (s.setWork w).cmd = s.cmd := rfl
@[simp] theorem State.setWork_work (s : State) (w : Work) : (s.setWork w).work = some w := rfl
@[simp] theorem State.setWork_build (s : State) (w : Work) : (s.setWork w).build = s.build := rfl

/-! ### startCommand -/

@[simp] theorem State.startCommand_pkt (s : State) : (s.startCommand).pkt = s.pkt := rfl
@[simp] theorem State.startCommand_ib (s : State) : (s.startCommand).ib = s.ib := rfl
@[simp] theorem State.startCommand_ibLen (s : State) : (s.startCommand).ibLen = s.ibLen := rfl
@[simp] theorem State.startCommand_ob (s : State) : (s.startCommand).ob = s.ob := rfl
@[simp] theorem State.startCommand_obLen (s : State) : (s.startCommand).obLen = s.obLen := rfl
@[simp] theorem State.startCommand_consumed (s : State) : (s.startCommand).consumed = s.consumed := rfl
@[simp] theorem State.startCommand_status (s : State) : (s.startCommand).status = statusOf true false false := rfl
@[simp] theorem State.startCommand_errcode (s : State) : (s.startCommand).errcode = s.errcode := rfl
@[simp] theorem State.startCommand_errpos (s : State) : (s.startCommand).errpos = s.errpos := rfl
@[simp] theorem State.startCommand_cfg (s : State) : (s.startCommand).cfg = s.cfg := rfl
@[simp] theorem State.startCommand_cmd (s : State) : (s.startCommand).cmd = s.cmd := rfl
@[simp] theorem State.startCommand_work (s : State) : (s.startCommand).work = some (Work.start s) := rfl
@[simp] theorem State.startCommand_build (s : State) : (s.startCommand).build = s.build := rfl

/-! ### writeCmd -/

@[simp] theorem State.writeCmd_pkt (s : State) (c : BitVec 2) : (s.writeCmd c).pkt = s.pkt := rfl
@[simp] theorem State.writeCmd_ib (s : State) (c : BitVec 2) : (s.writeCmd c).ib = s.ib := rfl
@[simp] theorem State.writeCmd_ibLen (s : State) (c : BitVec 2) : (s.writeCmd c).ibLen = s.ibLen := rfl
@[simp] theorem State.writeCmd_ob (s : State) (c : BitVec 2) : (s.writeCmd c).ob = s.ob := rfl
@[simp] theorem State.writeCmd_obLen (s : State) (c : BitVec 2) : (s.writeCmd c).obLen = s.obLen := rfl
@[simp] theorem State.writeCmd_consumed (s : State) (c : BitVec 2) : (s.writeCmd c).consumed = s.consumed := rfl
@[simp] theorem State.writeCmd_errcode (s : State) (c : BitVec 2) : (s.writeCmd c).errcode = s.errcode := rfl
@[simp] theorem State.writeCmd_errpos (s : State) (c : BitVec 2) : (s.writeCmd c).errpos = s.errpos := rfl
@[simp] theorem State.writeCmd_cfg (s : State) (c : BitVec 2) : (s.writeCmd c).cfg = s.cfg := rfl
@[simp] theorem State.writeCmd_work (s : State) (c : BitVec 2) : (s.writeCmd c).work = s.work := rfl
@[simp] theorem State.writeCmd_build (s : State) (c : BitVec 2) : (s.writeCmd c).build = s.build := rfl
@[simp] theorem State.writeCmd_cmd (s : State) (c : BitVec 2) : (s.writeCmd c).cmd = some c := rfl
@[simp] theorem State.writeCmd_status (s : State) (c : BitVec 2) :
    (s.writeCmd c).status = if c = 1 ∨ c = 2 then statusOf false false false else s.status := rfl

/-! ### enterError -/

@[simp] theorem State.enterError_pkt (s : State) (d : Bool) (e : Err) : (s.enterError d e).pkt = s.pkt := rfl
@[simp] theorem State.enterError_ib (s : State) (d : Bool) (e : Err) : (s.enterError d e).ib = s.ib := rfl
@[simp] theorem State.enterError_ibLen (s : State) (d : Bool) (e : Err) : (s.enterError d e).ibLen = s.ibLen := rfl
@[simp] theorem State.enterError_ob (s : State) (d : Bool) (e : Err) : (s.enterError d e).ob = s.ob := rfl
@[simp] theorem State.enterError_obLen (s : State) (d : Bool) (e : Err) : (s.enterError d e).obLen = s.obLen := rfl
@[simp] theorem State.enterError_consumed (s : State) (d : Bool) (e : Err) : (s.enterError d e).consumed = s.consumed := rfl
@[simp] theorem State.enterError_status (s : State) (d : Bool) (e : Err) : (s.enterError d e).status = statusOf false true true := rfl
@[simp] theorem State.enterError_errcode (s : State) (d : Bool) (e : Err) : (s.enterError d e).errcode = s.build.errNumbers.code e.kind := rfl
@[simp] theorem State.enterError_errpos (s : State) (d : Bool) (e : Err) : (s.enterError d e).errpos = if d then BitVec.ofNat 29 e.pos else 0 := rfl
@[simp] theorem State.enterError_cfg (s : State) (d : Bool) (e : Err) : (s.enterError d e).cfg = s.cfg := rfl
@[simp] theorem State.enterError_cmd (s : State) (d : Bool) (e : Err) : (s.enterError d e).cmd = s.cmd := rfl
@[simp] theorem State.enterError_work (s : State) (d : Bool) (e : Err) : (s.enterError d e).work = none := rfl
@[simp] theorem State.enterError_build (s : State) (d : Bool) (e : Err) : (s.enterError d e).build = s.build := rfl

/-! ### commitDecode -/

@[simp] theorem State.commitDecode_pkt (s : State) (p : Pkt) (n : Nat) : (s.commitDecode p n).pkt = p := rfl
@[simp] theorem State.commitDecode_ib (s : State) (p : Pkt) (n : Nat) : (s.commitDecode p n).ib = s.ib := rfl
@[simp] theorem State.commitDecode_ibLen (s : State) (p : Pkt) (n : Nat) : (s.commitDecode p n).ibLen = s.ibLen := rfl
@[simp] theorem State.commitDecode_ob (s : State) (p : Pkt) (n : Nat) : (s.commitDecode p n).ob = s.ob := rfl
@[simp] theorem State.commitDecode_obLen (s : State) (p : Pkt) (n : Nat) : (s.commitDecode p n).obLen = s.obLen := rfl
@[simp] theorem State.commitDecode_consumed (s : State) (p : Pkt) (n : Nat) : (s.commitDecode p n).consumed = BitVec.ofNat 29 n := rfl
@[simp] theorem State.commitDecode_status (s : State) (p : Pkt) (n : Nat) : (s.commitDecode p n).status = statusOf false true false := rfl
@[simp] theorem State.commitDecode_errcode (s : State) (p : Pkt) (n : Nat) : (s.commitDecode p n).errcode = 0 := rfl
@[simp] theorem State.commitDecode_errpos (s : State) (p : Pkt) (n : Nat) : (s.commitDecode p n).errpos = 0 := rfl
@[simp] theorem State.commitDecode_cfg (s : State) (p : Pkt) (n : Nat) : (s.commitDecode p n).cfg = s.cfg := rfl
@[simp] theorem State.commitDecode_cmd (s : State) (p : Pkt) (n : Nat) : (s.commitDecode p n).cmd = s.cmd := rfl
@[simp] theorem State.commitDecode_work (s : State) (p : Pkt) (n : Nat) : (s.commitDecode p n).work = none := rfl
@[simp] theorem State.commitDecode_build (s : State) (p : Pkt) (n : Nat) : (s.commitDecode p n).build = s.build := rfl

/-! ### commitEncode -/

@[simp] theorem State.commitEncode_pkt (s : State) (im : Bytes) : (s.commitEncode im).pkt = s.pkt := rfl
@[simp] theorem State.commitEncode_ib (s : State) (im : Bytes) : (s.commitEncode im).ib = s.ib := rfl
@[simp] theorem State.commitEncode_ibLen (s : State) (im : Bytes) : (s.commitEncode im).ibLen = s.ibLen := rfl
@[simp] theorem State.commitEncode_ob (s : State) (im : Bytes) : (s.commitEncode im).ob = s.ob.writeBytes 0 im := rfl
@[simp] theorem State.commitEncode_obLen (s : State) (im : Bytes) : (s.commitEncode im).obLen = BitVec.ofNat 29 im.length := rfl
@[simp] theorem State.commitEncode_consumed (s : State) (im : Bytes) : (s.commitEncode im).consumed = s.consumed := rfl
@[simp] theorem State.commitEncode_status (s : State) (im : Bytes) : (s.commitEncode im).status = statusOf false true false := rfl
@[simp] theorem State.commitEncode_errcode (s : State) (im : Bytes) : (s.commitEncode im).errcode = 0 := rfl
@[simp] theorem State.commitEncode_errpos (s : State) (im : Bytes) : (s.commitEncode im).errpos = 0 := rfl
@[simp] theorem State.commitEncode_cfg (s : State) (im : Bytes) : (s.commitEncode im).cfg = s.cfg := rfl
@[simp] theorem State.commitEncode_cmd (s : State) (im : Bytes) : (s.commitEncode im).cmd = s.cmd := rfl
@[simp] theorem State.commitEncode_work (s : State) (im : Bytes) : (s.commitEncode im).work = none := rfl
@[simp] theorem State.commitEncode_build (s : State) (im : Bytes) : (s.commitEncode im).build = s.build := rfl

/-! ### takeCommand -/

@[simp] theorem State.takeCommand_pkt (s : State) : (s.takeCommand).pkt = s.pkt := rfl
@[simp] theorem State.takeCommand_ib (s : State) : (s.takeCommand).ib = s.ib := rfl
@[simp] theorem State.takeCommand_ibLen (s : State) : (s.takeCommand).ibLen = s.ibLen := rfl
@[simp] theorem State.takeCommand_ob (s : State) : (s.takeCommand).ob = s.ob := rfl
@[simp] theorem State.takeCommand_obLen (s : State) : (s.takeCommand).obLen = s.obLen := rfl
@[simp] theorem State.takeCommand_consumed (s : State) : (s.takeCommand).consumed = s.consumed := rfl
@[simp] theorem State.takeCommand_status (s : State) : (s.takeCommand).status = s.status := rfl
@[simp] theorem State.takeCommand_errcode (s : State) : (s.takeCommand).errcode = s.errcode := rfl
@[simp] theorem State.takeCommand_errpos (s : State) : (s.takeCommand).errpos = s.errpos := rfl
@[simp] theorem State.takeCommand_cfg (s : State) : (s.takeCommand).cfg = s.cfg := rfl
@[simp] theorem State.takeCommand_cmd (s : State) : (s.takeCommand).cmd = none := rfl
@[simp] theorem State.takeCommand_work (s : State) : (s.takeCommand).work = s.work := rfl
@[simp] theorem State.takeCommand_build (s : State) : (s.takeCommand).build = s.build := rfl

/-! ### The STATUS bits -/

theorem statusOf_busy (b d e : Bool) : (statusOf b d e).getLsbD 0 = b := by cases b <;> cases d <;> cases e <;> rfl
theorem statusOf_done (b d e : Bool) : (statusOf b d e).getLsbD 1 = d := by cases b <;> cases d <;> cases e <;> rfl
theorem statusOf_err (b d e : Bool) : (statusOf b d e).getLsbD 2 = e := by cases b <;> cases d <;> cases e <;> rfl

@[simp] theorem statusOf_bit0 (b d e : Bool) : (statusOf b d e)[0] = b := by cases b <;> cases d <;> cases e <;> rfl
@[simp] theorem statusOf_bit1 (b d e : Bool) : (statusOf b d e)[1] = d := by cases b <;> cases d <;> cases e <;> rfl
@[simp] theorem statusOf_bit2 (b d e : Bool) : (statusOf b d e)[2] = e := by cases b <;> cases d <;> cases e <;> rfl

@[simp] theorem State.setWork_busy (s : State) (w : Work) : (s.setWork w).busy = s.busy := rfl
@[simp] theorem State.takeCommand_busy (s : State) : s.takeCommand.busy = s.busy := rfl
@[simp] theorem State.enterError_busy (s : State) (d : Bool) (e : Err) : (s.enterError d e).busy = false := statusOf_busy _ _ _
@[simp] theorem State.enterError_done (s : State) (d : Bool) (e : Err) : (s.enterError d e).done = true := statusOf_done _ _ _
@[simp] theorem State.enterError_err (s : State) (d : Bool) (e : Err) : (s.enterError d e).err = true := statusOf_err _ _ _
@[simp] theorem State.commitDecode_busy (s : State) (p : Pkt) (n : Nat) : (s.commitDecode p n).busy = false := statusOf_busy _ _ _
@[simp] theorem State.commitDecode_done (s : State) (p : Pkt) (n : Nat) : (s.commitDecode p n).done = true := statusOf_done _ _ _
@[simp] theorem State.commitDecode_err (s : State) (p : Pkt) (n : Nat) : (s.commitDecode p n).err = false := statusOf_err _ _ _
@[simp] theorem State.commitEncode_busy (s : State) (im : Bytes) : (s.commitEncode im).busy = false := statusOf_busy _ _ _
@[simp] theorem State.commitEncode_done (s : State) (im : Bytes) : (s.commitEncode im).done = true := statusOf_done _ _ _
@[simp] theorem State.commitEncode_err (s : State) (im : Bytes) : (s.commitEncode im).err = false := statusOf_err _ _ _

/-- After the write of a command BUSY, DONE and ERR read 0 (R35, R212). -/
theorem State.writeCmd_flags {s : State} {c : BitVec 2} (h : c = 1 ∨ c = 2) :
    (s.writeCmd c).busy = false ∧ (s.writeCmd c).done = false ∧ (s.writeCmd c).err = false := by
  rcases h with rfl | rfl <;> exact ⟨statusOf_busy _ _ _, statusOf_done _ _ _, statusOf_err _ _ _⟩
/-- The write of a reserved value leaves STATUS (R34). -/
theorem State.writeCmd_reserved {s : State} {c : BitVec 2} (h : ¬(c = 1 ∨ c = 2)) : (s.writeCmd c).status = s.status := if_neg h

/-! ### What an update leaves of the computed views -/

@[simp] theorem State.setWork_input (s : State) (w : Work) : (s.setWork w).input = s.input := rfl
@[simp] theorem State.startCommand_input (s : State) : s.startCommand.input = s.input := rfl
@[simp] theorem State.takeCommand_input (s : State) : s.takeCommand.input = s.input := rfl
@[simp] theorem State.setWork_working (s : State) (w : Work) : (s.setWork w).working = w := rfl
@[simp] theorem State.setWork_setWork (s : State) (v w : Work) : (s.setWork v).setWork w = s.setWork w := rfl
@[simp] theorem State.setWork_strict (s : State) (w : Work) : (s.setWork w).strict = s.strict := rfl
@[simp] theorem State.startCommand_strict (s : State) : s.startCommand.strict = s.strict := rfl
@[simp] theorem State.setWork_inputOk (s : State) (w : Work) (n : Nat) : (s.setWork w).inputOk n = s.inputOk n := rfl
theorem State.working_none (s : State) (h : s.work = none) : s.working = Work.start s := by simp [State.working, h]

/-! ### A command's start leaves no trace after its end (R212) -/

@[simp] theorem State.startCommand_enterError (s : State) (d : Bool) (e : Err) :
    s.startCommand.enterError d e = s.enterError d e := rfl
@[simp] theorem State.startCommand_commitDecode (s : State) (p : Pkt) (n : Nat) :
    s.startCommand.commitDecode p n = s.commitDecode p n := rfl
@[simp] theorem State.startCommand_commitEncode (s : State) (im : Bytes) :
    s.startCommand.commitEncode im = s.commitEncode im := rfl
@[simp] theorem State.startCommand_runDecode (s : State) : s.startCommand.runDecode = s.runDecode := rfl
@[simp] theorem State.startCommand_runEncode (s : State) : s.startCommand.runEncode = s.runEncode := rfl
@[simp] theorem State.setWork_enterError (s : State) (w : Work) (d : Bool) (e : Err) :
    (s.setWork w).enterError d e = s.enterError d e := rfl
@[simp] theorem State.setWork_commitDecode (s : State) (w : Work) (p : Pkt) (n : Nat) :
    (s.setWork w).commitDecode p n = s.commitDecode p n := rfl
@[simp] theorem State.setWork_commitEncode (s : State) (w : Work) (im : Bytes) :
    (s.setWork w).commitEncode im = s.commitEncode im := rfl

end Sys2Proof.Machine
end

