-- ==== Sys2Proof/Laws/Ops.lean ====
section
/-! SUPPORT. What the shared operations can do, said once: an internal operation on the decode side, on the encode side, and the bytes that stand in the input. -/

namespace Sys2Proof.Machine

/-! ### The input buffer -/

theorem State.inputOk_iff {s : State} {n : Nat} :
    s.inputOk n = true ↔ n ≤ s.ibLen.toNat ∧ s.ibLen.toNat ≤ s.build.ibCap := by
  simp [State.inputOk]

/-- Bytes that stand in `IB` below `IB_LEN` are the bytes of the input there. -/
theorem State.input_drop_of_holds {s : State} {a : Nat} {bs : Bytes} (h : s.Holds a bs) (hl : a + bs.length ≤ s.ibLen.toNat) :
    s.input.drop a = bs ++ s.input.drop (a + bs.length) := by
  rw [drop_eq_slice_append s.input a bs.length]
  congr 1
  have hlen : a + bs.length ≤ s.input.length := by rwa [State.input_length]
  apply List.ext_getElem (slice_length hlen)
  intro i h1 h2
  have e := h i h2
  rw [← State.byteAt_input s _ (by omega), List.getD_eq_getElem _ _ h2, byteAt,
    List.getD_eq_getElem _ _ (by omega)] at e
  simp only [slice, List.getElem_take, List.getElem_drop]
  exact e

theorem State.InputAt.drop {s : State} {bs : Bytes} (h : s.InputAt bs) :
    s.input.drop s.working.cur = bs ++ s.input.drop (s.working.cur + bs.length) := by
  obtain ⟨h1, h2, h3⟩ := h
  obtain ⟨h4, _⟩ := State.inputOk_iff.1 h1
  exact State.input_drop_of_holds h3 (by omega)

/-! ### One internal operation -/

theorem State.decStep_ok {s : State} {n : Nat} {op : Bytes → Work → Except Err Work} {w : Work} (h : s.inputOk n = true)
    (ho : op s.input s.working = .ok w) : s.decStep n op = .next { s with work := some w } := by
  rw [State.decStep, if_pos h, ho]
  rfl

theorem State.decStep_error {s : State} {n : Nat} {op : Bytes → Work → Except Err Work} {e : Err} (h : s.inputOk n = true)
    (ho : op s.input s.working = .error e) : s.decStep n op = .next (s.enterError true e) := by
  rw [State.decStep, if_pos h, ho]

/-- Everything a decode-side operation can do: it stops before it reads, it raises, or it keeps a working state. -/
theorem State.decStep_cases (s : State) (n : Nat) (op : Bytes → Work → Except Err Work) :
    (s.inputOk n = false ∧ s.decStep n op = .fault .inputBeyondBuffer) ∨
    (s.inputOk n = true ∧ ∃ e, op s.input s.working = .error e ∧ s.decStep n op = .next (s.enterError true e)) ∨
    (s.inputOk n = true ∧ ∃ w, op s.input s.working = .ok w ∧ s.decStep n op = .next (s.setWork w)) := by
  unfold State.decStep
  cases h : s.inputOk n with
  | false => exact .inl ⟨rfl, rfl⟩
  | true =>
    right
    cases ho : op s.input s.working with
    | error e => exact .inl ⟨rfl, e, rfl, rfl⟩
    | ok w => exact .inr ⟨rfl, w, rfl, rfl⟩

theorem State.encStep_ok {s : State} {op : Pkt → Work → Except EncStop Work} {w : Work} (ho : op s.pkt s.working = .ok w) :
    s.encStep op = .next { s with work := some w } := by
  rw [State.encStep, ho]
  rfl

theorem State.encStep_raise {s : State} {op : Pkt → Work → Except EncStop Work} {k : ErrKind}
    (ho : op s.pkt s.working = .error (.raise k)) : s.encStep op = .next (s.enterError false ⟨k, 0⟩) := by
  rw [State.encStep, ho]

/-- Everything an encode-side operation can do: it stops at an invalid register, it raises, or it keeps a working state. -/
theorem State.encStep_cases (s : State) (op : Pkt → Work → Except EncStop Work) :
    (op s.pkt s.working = .error .invalidRegister ∧ s.encStep op = .refused .invalidRegister) ∨
    (∃ k, op s.pkt s.working = .error (.raise k) ∧ s.encStep op = .next (s.enterError false ⟨k, 0⟩)) ∨
    (∃ w, op s.pkt s.working = .ok w ∧ s.encStep op = .next (s.setWork w)) := by
  unfold State.encStep
  cases ho : op s.pkt s.working with
  | error e =>
    cases e with
    | raise k => exact .inr (.inl ⟨k, rfl, rfl⟩)
    | invalidRegister => exact .inl ⟨rfl, rfl⟩
  | ok w => exact .inr (.inr ⟨w, rfl, rfl⟩)

theorem State.bodyStep_ok {s : State} {op : Bytes → Nat → Nat → Pkt → BodyResult} {cur : Nat} {p : Pkt}
    (h : s.inputOk s.working.lim = true)
    (ho : op s.input s.working.cur s.working.lim s.working.shadow = .ok (cur, p)) :
    s.bodyStep op = .next { s with work := some { s.working with cur := cur, shadow := p } } :=
  State.decStep_ok h (by simp only [ho, except_ok_bind, except_pure])

theorem State.bodyStep_error {s : State} {op : Bytes → Nat → Nat → Pkt → BodyResult} {e : Err}
    (h : s.inputOk s.working.lim = true)
    (ho : op s.input s.working.cur s.working.lim s.working.shadow = .error e) :
    s.bodyStep op = .next (s.enterError true e) :=
  State.decStep_error h (by simp only [ho, except_error_bind])

theorem State.imageStep_ok {s : State} {op : Pkt → Except EncStop Bytes} {body : Bytes} (ho : op s.pkt = .ok body) :
    s.imageStep op = .next { s with work := some { s.working with image := s.working.image ++ body } } :=
  State.encStep_ok (by simp only [ho, except_ok_bind, except_pure])

theorem State.imageStep_raise {s : State} {op : Pkt → Except EncStop Bytes} {k : ErrKind} (ho : op s.pkt = .error (.raise k)) :
    s.imageStep op = .next (s.enterError false ⟨k, 0⟩) :=
  State.encStep_raise (by simp only [ho, except_error_bind])

/-! ### The wire forms are the encoders' -/

theorem wireWord_eq (w : Word) : wireWord w = encWord w := rfl

theorem encText_eq_wire {t : Text} (hl : t.length ≤ textMax) (hok : utf8Ok t = true) : encText t = .ok (wireText t) :=
  encText_of_wf hl hok

@[simp] theorem wireWord_length (w : Word) : (wireWord w).length = 2 := rfl
@[simp] theorem wireText_length (t : Text) : (wireText t).length = 2 + t.length := by simp [wireText]

end Sys2Proof.Machine
end

