-- ==== Sys2Proof/Laws/BodyDecode.lean ====
section
/-! SUPPORT. What the body decoders can do, said once: the loops over list entries on given bytes, and the end of every body decoder: the cursor stays below the bound, and an error's position too (R37, R166). -/

namespace Sys2Proof.Machine

theorem listFull_of_fits {cap : Option Nat} {n m : Nat} (h : countFits cap n = true) (hm : m < n) : listFull cap m = false := by
  cases cap with
  | none => rfl
  | some c =>
    have h : c ≥ n := of_decide_eq_true h
    simp [listFull]
    omega

/-! ### The loops on given bytes -/

theorem decSubs_at {cap : Option Nat} {buf r : Bytes} {lim passes cur : Nat} {acc l : List (Text × Byte)}
    (hw : ∀ e ∈ l, e.1.length ≤ textMax ∧ utf8Ok e.1 = true) (hc : countFits cap (acc.length + l.length) = true)
    (hd : buf.drop cur = l.flatMap wireEntry ++ r) (hl : cur + (l.flatMap wireEntry).length = lim) (hp : lim - cur ≤ passes) :
    decSubs cap buf lim passes cur acc = .ok (acc ++ l, lim) := by
  induction l generalizing passes cur acc with
  | nil =>
    simp at hl
    subst hl
    cases passes with
    | zero => simp [decSubs]
    | succ passes => simp [decSubs]
  | cons e l ih =>
    obtain ⟨t, q⟩ := e
    obtain ⟨ht, hu⟩ := hw (t, q) (.head _)
    simp only [List.flatMap_cons, List.length_append, wireEntry, wireText_length, List.length_singleton, List.append_assoc] at hd hl
    cases passes with
    | zero => omega
    | succ passes =>
      have hlf : listFull cap acc.length = false := listFull_of_fits hc (by simp)
      have h1 := decText_at (lim := lim) (encText_eq_wire ht hu) hd (by simp; omega)
      have hd2 := drop_add_of_drop hd
      have h2 := decByte_at (lim := lim) (v := q) hd2 (by simp; omega)
      have hd3 := drop_succ_of_drop hd2
      rw [decSubs, if_pos (by omega), hlf, if_neg (by simp), h1, except_ok_bind]
      dsimp only
      rw [h2, except_ok_bind]
      dsimp only
      rw [ih (fun e he => hw e (.tail _ he)) (by rw [← hc]; congr 1; simp; omega) hd3
        (by simp only [wireText_length]; omega) (by simp only [wireText_length]; omega)]
      simp

theorem decGranted_at {cap : Option Nat} {buf r : Bytes} {lim passes cur : Nat} {acc l : List Byte}
    (hc : countFits cap (acc.length + l.length) = true)
    (hd : buf.drop cur = l ++ r) (hl : cur + l.length = lim) (hp : lim - cur ≤ passes) :
    decGranted cap buf lim passes cur acc = .ok (acc ++ l, lim) := by
  induction l generalizing passes cur acc with
  | nil =>
    simp at hl
    subst hl
    cases passes with
    | zero => simp [decGranted]
    | succ passes => simp [decGranted]
  | cons q l ih =>
    simp only [List.length_cons] at hl
    cases passes with
    | zero => omega
    | succ passes =>
      have hlf : listFull cap acc.length = false := listFull_of_fits hc (by simp)
      have h2 := decByte_at (lim := lim) (v := q) hd (by omega)
      rw [decGranted, if_pos (by omega), hlf, if_neg (by simp), h2, except_ok_bind]
      dsimp only
      rw [ih (by rw [← hc]; congr 1; simp; omega) (drop_succ_of_drop hd) (by omega) (by omega)]
      simp

theorem decTopics_at {cap : Option Nat} {buf r : Bytes} {lim passes cur : Nat} {acc l : List Text}
    (hw : ∀ t ∈ l, t.length ≤ textMax ∧ utf8Ok t = true) (hc : countFits cap (acc.length + l.length) = true)
    (hd : buf.drop cur = l.flatMap wireText ++ r) (hl : cur + (l.flatMap wireText).length = lim) (hp : lim - cur ≤ passes) :
    decTopics cap buf lim passes cur acc = .ok (acc ++ l, lim) := by
  induction l generalizing passes cur acc with
  | nil =>
    simp at hl
    subst hl
    cases passes with
    | zero => simp [decTopics]
    | succ passes => simp [decTopics]
  | cons t l ih =>
    obtain ⟨ht, hu⟩ := hw t (.head _)
    simp only [List.flatMap_cons, List.length_append, wireText_length, List.append_assoc] at hd hl
    cases passes with
    | zero => omega
    | succ passes =>
      have hlf : listFull cap acc.length = false := listFull_of_fits hc (by simp)
      have h1 := decText_at (lim := lim) (encText_eq_wire ht hu) hd (by simp; omega)
      rw [decTopics, if_pos (by omega), hlf, if_neg (by simp), h1, except_ok_bind]
      dsimp only
      rw [ih (fun e he => hw e (.tail _ he)) (by rw [← hc]; congr 1; simp; omega) (drop_add_of_drop hd)
        (by simp only [wireText_length]; omega) (by simp only [wireText_length]; omega)]
      simp

/-- The loop of a suback meets a full list before its bytes end (R159, R208). -/
theorem decGranted_full {c : Nat} {buf r : Bytes} {lim passes cur : Nat} {acc l : List Byte}
    (hc : c = acc.length + l.length) (hd : buf.drop cur = l ++ r) (hl : cur + l.length < lim) (hp : lim - cur ≤ passes) :
    decGranted (some c) buf lim passes cur acc = .error ⟨.capacityExceeded, cur + l.length⟩ := by
  induction l generalizing passes cur acc with
  | nil =>
    simp at hl hc
    cases passes with
    | zero => omega
    | succ passes => simp [decGranted, hl, listFull, hc]
  | cons q l ih =>
    simp only [List.length_cons] at hl hc
    cases passes with
    | zero => omega
    | succ passes =>
      have hlf : listFull (some c) acc.length = false := by simp [listFull]; omega
      have h2 := decByte_at (lim := lim) (v := q) hd (by omega)
      rw [decGranted, if_pos (by omega), hlf, if_neg (by simp), h2, except_ok_bind]
      dsimp only
      rw [ih (by simp; omega) (drop_succ_of_drop hd) (by omega) (by omega)]
      simp; omega

theorem decSkip_at {buf r pre : Bytes} {lim n cur : Nat} (hn : pre.length = n) (hd : buf.drop cur = pre ++ r)
    (hl : cur + n ≤ lim) : decSkip buf lim n cur = .ok (cur + n) := by
  induction n generalizing cur pre with
  | zero => rfl
  | succ n ih =>
    cases pre with
    | nil => simp at hn
    | cons b pre =>
      have h2 := decByte_at (lim := lim) (v := b) hd (by omega)
      rw [decSkip, h2, except_ok_bind]
      dsimp only
      rw [ih (by simpa using hn) (drop_succ_of_drop hd) (by omega)]
      congr 1; omega

/-! ### The optional fields of a connect on given bytes -/

theorem decWill_at {fl : ConnFlags} {buf r : Bytes} {cur lim : Nat} {p : Pkt} {wt wm : Text}
    (h1 : encText wt = .ok (wireText wt)) (h2 : encText wm = .ok (wireText wm))
    (hd : buf.drop cur = (if fl.wf then wireText wt ++ wireText wm else []) ++ r)
    (hl : cur + (if fl.wf then wireText wt ++ wireText wm else []).length ≤ lim) :
    decWill fl buf cur lim p = .ok (cur + (if fl.wf then wireText wt ++ wireText wm else []).length,
      if fl.wf then { p with willTopic := some wt, willMessage := some wm, willQos := some fl.wq, willRetain := some fl.wr } else p) := by
  unfold decWill
  cases hf : fl.wf with
  | false => rfl
  | true =>
    simp only [hf, if_true, List.append_assoc, List.length_append] at hd hl ⊢
    rw [decText_at h1 hd (by omega), except_ok_bind]
    dsimp only
    rw [decText_at h2 (drop_add_of_drop hd) (by omega), Nat.add_assoc]
    rfl

theorem decUsername_at {fl : ConnFlags} {buf r : Bytes} {cur lim : Nat} {p : Pkt} {t : Text} (h1 : encText t = .ok (wireText t))
    (hd : buf.drop cur = (if fl.uf then wireText t else []) ++ r) (hl : cur + (if fl.uf then wireText t else []).length ≤ lim) :
    decUsername fl buf cur lim p
      = .ok (cur + (if fl.uf then wireText t else []).length, if fl.uf then { p with username := some t } else p) := by
  unfold decUsername
  cases hf : fl.uf with
  | false => rfl
  | true =>
    simp only [hf, if_true] at hd hl ⊢
    rw [decText_at h1 hd hl]
    rfl

theorem decPassword_at {fl : ConnFlags} {buf r : Bytes} {cur lim : Nat} {p : Pkt} {t : Text} (h1 : encText t = .ok (wireText t))
    (hd : buf.drop cur = (if fl.pf then wireText t else []) ++ r) (hl : cur + (if fl.pf then wireText t else []).length ≤ lim) :
    decPassword fl buf cur lim p
      = .ok (cur + (if fl.pf then wireText t else []).length, if fl.pf then { p with password := some t } else p) := by
  unfold decPassword
  cases hf : fl.pf with
  | false => rfl
  | true =>
    simp only [hf, if_true] at hd hl ⊢
    rw [decText_at h1 hd hl]
    rfl

/-- The flags of a connect-flags byte by their bits (R78, R140). -/
theorem cfDec_bits (f : Byte) : (cfDec f).uf = f.getLsbD 7 ∧ (cfDec f).pf = f.getLsbD 6 ∧ (cfDec f).wr = f.getLsbD 5 ∧
    (cfDec f).wq = BitVec.ofNat 2 (f.toNat / 8) ∧ (cfDec f).wf = f.getLsbD 2 ∧ (cfDec f).cs = f.getLsbD 1 := by
  revert f
  exact bitVec8_forall (by decide +kernel)

/-- `BD_CONNECT` where a connect body stands at the cursor. -/
theorem bdConnect_at {buf r : Bytes} {cur lim : Nat} {p : Pkt} {name cid wt wm un pw : Text} {ver f : Byte} {ka : Word}
    (h : ∀ t ∈ [name, cid, wt, wm, un, pw], encText t = .ok (wireText t))
    (hd : buf.drop cur = wireConnect name ver f ka cid wt wm un pw ++ r)
    (hl : cur + (wireConnect name ver f ka cid wt wm un pw).length ≤ lim) :
    bdConnect buf cur lim p = .ok (cur + (wireConnect name ver f ka cid wt wm un pw).length,
      { p with
        protoName := some name, protoVer := some ver, cleanSession := some (cfDec f).cs, keepAlive := some ka, clientId := some cid
        willTopic := if (cfDec f).wf then some wt else p.willTopic
        willMessage := if (cfDec f).wf then some wm else p.willMessage
        willQos := if (cfDec f).wf then some (cfDec f).wq else p.willQos
        willRetain := if (cfDec f).wf then some (cfDec f).wr else p.willRetain
        username := if (cfDec f).uf then some un else p.username
        password := if (cfDec f).pf then some pw else p.password }) := by
  simp only [List.mem_cons, List.not_mem_nil, or_false, forall_eq_or_imp, forall_eq] at h
  obtain ⟨t1, t2, t3, t4, t5, t6⟩ := h
  obtain ⟨c7, c6, _, _, c2, _⟩ := cfDec_bits f
  have e : wireConnect name ver f ka cid wt wm un pw = wireText name ++ (encByte ver ++ (encByte f ++ (encWord ka ++ (wireText cid
      ++ ((if (cfDec f).wf then wireText wt ++ wireText wm else []) ++ ((if (cfDec f).uf then wireText un else [])
      ++ (if (cfDec f).pf then wireText pw else []))))))) := by
    rw [c7, c6, c2]
    simp only [wireConnect, List.append_assoc, encByte, wireWord_eq]
    rfl
  rw [e] at hd hl ⊢
  simp only [List.append_assoc] at hd
  simp only [List.length_append] at hl
  have d2 := drop_add_of_drop hd
  have d3 := drop_add_of_drop d2
  have d4 := drop_add_of_drop d3
  have d5 := drop_add_of_drop d4
  have d6 := drop_add_of_drop d5
  have d7 := drop_add_of_drop d6
  have d8 := drop_add_of_drop d7
  simp only [encByte_length, encWord_length] at d3 d4 d5 d6 d7 d8 hl
  rw [bdConnect, decText_at t1 hd (by omega), except_ok_bind]
  dsimp only
  rw [decByte_at d2 (by omega), except_ok_bind]
  dsimp only
  rw [decByte_at d3 (by omega), except_ok_bind]
  dsimp only
  rw [decWord_at d4 (by omega), except_ok_bind]
  dsimp only
  rw [decText_at t2 d5 (by omega), except_ok_bind]
  dsimp only
  rw [decWill_at t3 t4 d6 (by omega), except_ok_bind]
  dsimp only
  rw [decUsername_at t5 d7 (by omega), except_ok_bind]
  dsimp only
  rw [decPassword_at t6 d8 (by omega)]
  simp only [List.length_append, encByte_length, encWord_length]
  congr 2
  · omega
  · cases (cfDec f).wf <;> cases (cfDec f).uf <;> cases (cfDec f).pf <;> rfl

end Sys2Proof.Machine
end

