-- ==== Sys2Proof/Laws/BodyBounds.lean ====
section
/-! SUPPORT. What a body decoder has read where it answers, entry by entry, and where its errors lie: never beyond the bound (R37, R166). -/

namespace Sys2Proof.Machine

theorem listFull_false {cap : Option Nat} {n : Nat} (h : ¬ listFull cap n = true) (hn : countFits cap n = true) :
    countFits cap (n + 1) = true := by
  cases cap with
  | none => rfl
  | some c =>
    simp [listFull] at h
    simp [countFits] at hn ⊢
    omega

theorem countFits_zero (cap : Option Nat) : countFits cap 0 = true := by
  cases cap <;> simp [countFits]

/-! ### The list loops where they answer -/

theorem decSubs_ok {cap : Option Nat} {buf : Bytes} {lim passes cur cur' : Nat} {acc l : List (Text × Byte)} (hb : lim ≤ buf.length)
    (hc : cur ≤ lim) (hp : lim - cur ≤ passes) (hf : countFits cap acc.length = true)
    (h : decSubs cap buf lim passes cur acc = .ok (l, cur')) :
    ∃ m, l = acc ++ m ∧ cur' = lim ∧ lim = cur + (m.flatMap wireEntry).length ∧ countFits cap l.length = true ∧
      ∀ e ∈ m, e.1.length ≤ textMax ∧ utf8Ok e.1 = true := by
  induction passes generalizing cur acc with
  | zero =>
    cases h
    exact ⟨[], by simp, by omega, by simp; omega, hf, by simp⟩
  | succ passes ih =>
    rw [decSubs] at h
    split at h
    · split at h
      · cases h
      · rename_i hlf
        obtain ⟨⟨t, c1⟩, h1, h⟩ := except_bind_ok.1 h
        obtain ⟨⟨q, c2⟩, h2, h⟩ := except_bind_ok.1 h
        obtain ⟨e1, e2, e3, e4, _⟩ := decText_ok hb h1
        obtain ⟨g1, g2, _⟩ := decByte_ok hb h2
        obtain ⟨m, k1, k2, k3, k4, k5⟩ := ih (by omega) (by omega) (by simpa using listFull_false hlf hf) h
        refine ⟨(t, q) :: m, by rw [k1]; simp, k2, ?_, k4, ?_⟩
        · simp only [List.flatMap_cons, List.length_append, wireEntry, wireText_length, List.length_singleton]
          omega
        · intro e he
          rcases List.mem_cons.1 he with rfl | he'
          · exact ⟨e3, e4⟩
          · exact k5 e he'
    · cases h
      exact ⟨[], by simp, by omega, by simp; omega, hf, by simp⟩

theorem decGranted_ok {cap : Option Nat} {buf : Bytes} {lim passes cur cur' : Nat} {acc l : List Byte} (hb : lim ≤ buf.length)
    (hc : cur ≤ lim) (hp : lim - cur ≤ passes) (hf : countFits cap acc.length = true)
    (h : decGranted cap buf lim passes cur acc = .ok (l, cur')) :
    ∃ m, l = acc ++ m ∧ cur' = lim ∧ lim = cur + m.length ∧ countFits cap l.length = true := by
  induction passes generalizing cur acc with
  | zero =>
    cases h
    exact ⟨[], by simp, by omega, by simp; omega, hf⟩
  | succ passes ih =>
    rw [decGranted] at h
    split at h
    · split at h
      · cases h
      · rename_i hlf
        obtain ⟨⟨q, c2⟩, h2, h⟩ := except_bind_ok.1 h
        obtain ⟨g1, g2, _⟩ := decByte_ok hb h2
        obtain ⟨m, k1, k2, k3, k4⟩ := ih (by omega) (by omega) (by simpa using listFull_false hlf hf) h
        exact ⟨q :: m, by rw [k1]; simp, k2, by simp; omega, k4⟩
    · cases h
      exact ⟨[], by simp, by omega, by simp; omega, hf⟩

theorem decTopics_ok {cap : Option Nat} {buf : Bytes} {lim passes cur cur' : Nat} {acc l : List Text} (hb : lim ≤ buf.length)
    (hc : cur ≤ lim) (hp : lim - cur ≤ passes) (hf : countFits cap acc.length = true)
    (h : decTopics cap buf lim passes cur acc = .ok (l, cur')) :
    ∃ m, l = acc ++ m ∧ cur' = lim ∧ lim = cur + (m.flatMap wireText).length ∧ countFits cap l.length = true ∧
      ∀ t ∈ m, t.length ≤ textMax ∧ utf8Ok t = true := by
  induction passes generalizing cur acc with
  | zero =>
    cases h
    exact ⟨[], by simp, by omega, by simp; omega, hf, by simp⟩
  | succ passes ih =>
    rw [decTopics] at h
    split at h
    · split at h
      · cases h
      · rename_i hlf
        obtain ⟨⟨t, c1⟩, h1, h⟩ := except_bind_ok.1 h
        obtain ⟨e1, e2, e3, e4, _⟩ := decText_ok hb h1
        obtain ⟨m, k1, k2, k3, k4, k5⟩ := ih (by omega) (by omega) (by simpa using listFull_false hlf hf) h
        refine ⟨t :: m, by rw [k1]; simp, k2, ?_, k4, ?_⟩
        · simp only [List.flatMap_cons, List.length_append, wireText_length]
          omega
        · intro e he
          rcases List.mem_cons.1 he with rfl | he'
          · exact ⟨e3, e4⟩
          · exact k5 e he'
    · cases h
      exact ⟨[], by simp, by omega, by simp; omega, hf, by simp⟩

/-! ### Errors lie below the bound -/

theorem decByte_error_pos {buf : Bytes} {cur lim : Nat} {e : Err} (h : decByte buf cur lim = .error e) : e.pos = cur := by
  rw [(decByte_error h).1]

theorem decWord_error_pos {buf : Bytes} {cur lim : Nat} {e : Err} (h : decWord buf cur lim = .error e) : e.pos = cur := by
  rw [(decWord_error h).1]

theorem decText_error_pos {buf : Bytes} {cur lim : Nat} {e : Err} (h : decText buf cur lim = .error e) : e.pos = cur := by
  rcases decText_error h with rfl | rfl <;> rfl

theorem decRest_error_pos {buf : Bytes} {cur lim : Nat} {e : Err} (h : decRest buf cur lim = .error e) : e.pos = cur := by
  rw [decRest_error h]

theorem decSubs_error {cap : Option Nat} {buf : Bytes} {lim passes cur : Nat} {acc : List (Text × Byte)} {e : Err} (hb : lim ≤ buf.length)
    (h : decSubs cap buf lim passes cur acc = .error e) : e.pos ≤ lim := by
  induction passes generalizing cur acc with
  | zero => cases h
  | succ passes ih =>
    rw [decSubs] at h
    split at h
    · rename_i hlt
      split at h
      · cases h; exact Nat.le_of_lt hlt
      · rcases except_bind_error.1 h with h | ⟨⟨t, c1⟩, h1, h⟩
        · rw [decText_error_pos h]; omega
        · obtain ⟨_, e2, _⟩ := decText_ok hb h1
          rcases except_bind_error.1 h with h | ⟨⟨q, c2⟩, h2, h⟩
          · rw [decByte_error_pos h]; exact e2
          · exact ih h
    · cases h

theorem decGranted_error {cap : Option Nat} {buf : Bytes} {lim passes cur : Nat} {acc : List Byte} {e : Err}
    (h : decGranted cap buf lim passes cur acc = .error e) : e.pos ≤ lim := by
  induction passes generalizing cur acc with
  | zero => cases h
  | succ passes ih =>
    rw [decGranted] at h
    split at h
    · rename_i hlt
      split at h
      · cases h; exact Nat.le_of_lt hlt
      · rcases except_bind_error.1 h with h | ⟨⟨q, c2⟩, h2, h⟩
        · rw [decByte_error_pos h]; omega
        · exact ih h
    · cases h

theorem decTopics_error {cap : Option Nat} {buf : Bytes} {lim passes cur : Nat} {acc : List Text} {e : Err}
    (h : decTopics cap buf lim passes cur acc = .error e) : e.pos ≤ lim := by
  induction passes generalizing cur acc with
  | zero => cases h
  | succ passes ih =>
    rw [decTopics] at h
    split at h
    · rename_i hlt
      split at h
      · cases h; exact Nat.le_of_lt hlt
      · rcases except_bind_error.1 h with h | ⟨⟨t, c1⟩, h1, h⟩
        · rw [decText_error_pos h]; omega
        · exact ih h
    · cases h

theorem decSkip_bounds {buf : Bytes} {lim n cur : Nat} (hc : cur ≤ lim) :
    (∀ c, decSkip buf lim n cur = .ok c → c = cur + n ∧ c ≤ lim) ∧ (∀ e, decSkip buf lim n cur = .error e → e.pos ≤ lim) := by
  induction n generalizing cur with
  | zero => exact ⟨fun c h => by cases h; exact ⟨rfl, hc⟩, fun e h => by cases h⟩
  | succ n ih =>
    constructor
    · intro c h
      obtain ⟨⟨b, c1⟩, h1, h⟩ := except_bind_ok.1 h
      unfold decByte at h1
      split at h1
      · cases h1
      · cases h1
        obtain ⟨k1, k2⟩ := (ih (cur := cur + 1) (by omega)).1 c h
        exact ⟨by omega, k2⟩
    · intro e h
      rcases except_bind_error.1 h with h | ⟨⟨b, c1⟩, h1, h⟩
      · rw [decByte_error_pos h]; exact hc
      · unfold decByte at h1
        split at h1
        · cases h1
        · cases h1
          exact (ih (cur := cur + 1) (by omega)).2 e h

/-- The optional fields of a connect: a text lies at the cursor, or nothing. -/
theorem decUsername_ok {fl : ConnFlags} {buf : Bytes} {cur lim cur' : Nat} {p p' : Pkt} (hb : lim ≤ buf.length) (hc : cur ≤ lim)
    (h : decUsername fl buf cur lim p = .ok (cur', p')) : cur' ≤ lim ∧
    ((fl.uf = false ∧ cur' = cur ∧ p' = p) ∨
      ∃ t, fl.uf = true ∧ t.length ≤ textMax ∧ utf8Ok t = true ∧ cur' = cur + 2 + t.length ∧ p' = { p with username := some t }) := by
  unfold decUsername at h
  split at h
  · rename_i hf
    obtain ⟨⟨t, c1⟩, h1, h⟩ := except_bind_ok.1 h
    obtain ⟨e1, e2, e3, e4, _⟩ := decText_ok hb h1
    cases h
    exact ⟨e2, .inr ⟨t, hf, e3, e4, e1, rfl⟩⟩
  · rename_i hf
    cases h
    exact ⟨hc, .inl ⟨by simpa using hf, rfl, rfl⟩⟩

theorem decPassword_ok {fl : ConnFlags} {buf : Bytes} {cur lim cur' : Nat} {p p' : Pkt} (hb : lim ≤ buf.length) (hc : cur ≤ lim)
    (h : decPassword fl buf cur lim p = .ok (cur', p')) : cur' ≤ lim ∧
    ((fl.pf = false ∧ cur' = cur ∧ p' = p) ∨
      ∃ t, fl.pf = true ∧ t.length ≤ textMax ∧ utf8Ok t = true ∧ cur' = cur + 2 + t.length ∧ p' = { p with password := some t }) := by
  unfold decPassword at h
  split at h
  · rename_i hf
    obtain ⟨⟨t, c1⟩, h1, h⟩ := except_bind_ok.1 h
    obtain ⟨e1, e2, e3, e4, _⟩ := decText_ok hb h1
    cases h
    exact ⟨e2, .inr ⟨t, hf, e3, e4, e1, rfl⟩⟩
  · rename_i hf
    cases h
    exact ⟨hc, .inl ⟨by simpa using hf, rfl, rfl⟩⟩

theorem decWill_ok {fl : ConnFlags} {buf : Bytes} {cur lim cur' : Nat} {p p' : Pkt} (hb : lim ≤ buf.length) (hc : cur ≤ lim)
    (h : decWill fl buf cur lim p = .ok (cur', p')) : cur' ≤ lim ∧
    ((fl.wf = false ∧ cur' = cur ∧ p' = p) ∨
      ∃ t m, fl.wf = true ∧ t.length ≤ textMax ∧ utf8Ok t = true ∧ m.length ≤ textMax ∧ utf8Ok m = true ∧
        cur' = cur + (2 + t.length) + (2 + m.length) ∧
        p' = { p with willTopic := some t, willMessage := some m, willQos := some fl.wq, willRetain := some fl.wr }) := by
  unfold decWill at h
  split at h
  · rename_i hf
    obtain ⟨⟨t, c1⟩, h1, h⟩ := except_bind_ok.1 h
    obtain ⟨⟨m, c2⟩, h2, h⟩ := except_bind_ok.1 h
    obtain ⟨e1, e2, e3, e4, _⟩ := decText_ok hb h1
    obtain ⟨g1, g2, g3, g4, _⟩ := decText_ok hb h2
    cases h
    exact ⟨g2, .inr ⟨t, m, hf, e3, e4, g3, g4, by omega, rfl⟩⟩
  · rename_i hf
    cases h
    exact ⟨hc, .inl ⟨by simpa using hf, rfl, rfl⟩⟩

theorem bdConnect_error {buf : Bytes} {cur lim : Nat} {p : Pkt} {e : Err} (hb : lim ≤ buf.length) (hc : cur ≤ lim)
    (h : bdConnect buf cur lim p = .error e) : e.pos ≤ lim := by
  rcases except_bind_error.1 h with h | ⟨⟨v1, c1⟩, h1, h⟩
  · rw [decText_error_pos h]; exact hc
  obtain ⟨_, k1, _⟩ := decText_ok hb h1
  rcases except_bind_error.1 h with h | ⟨⟨v2, c2⟩, h2, h⟩
  · rw [decByte_error_pos h]; exact k1
  obtain ⟨_, k2, _⟩ := decByte_ok hb h2
  rcases except_bind_error.1 h with h | ⟨⟨v3, c3⟩, h3, h⟩
  · rw [decByte_error_pos h]; exact k2
  obtain ⟨_, k3, _⟩ := decByte_ok hb h3
  rcases except_bind_error.1 h with h | ⟨⟨v4, c4⟩, h4, h⟩
  · rw [decWord_error_pos h]; exact k3
  obtain ⟨_, k4, _⟩ := decWord_ok hb h4
  rcases except_bind_error.1 h with h | ⟨⟨v5, c5⟩, h5, h⟩
  · rw [decText_error_pos h]; exact k4
  obtain ⟨_, k5, _⟩ := decText_ok hb h5
  rcases except_bind_error.1 h with h | ⟨⟨c6, p6⟩, h6, h⟩
  · unfold decWill at h
    split at h
    · rcases except_bind_error.1 h with h | ⟨⟨v7, c7⟩, h7, h⟩
      · rw [decText_error_pos h]; exact k5
      · obtain ⟨_, k7, _⟩ := decText_ok hb h7
        rcases except_bind_error.1 h with h | ⟨⟨v8, c8⟩, h8, h⟩
        · rw [decText_error_pos h]; exact k7
        · cases h
    · cases h
  obtain ⟨k6, _⟩ := decWill_ok hb k5 h6
  rcases except_bind_error.1 h with h | ⟨⟨c7, p7⟩, h7, h⟩
  · unfold decUsername at h
    split at h
    · rcases except_bind_error.1 h with h | ⟨⟨v8, c8⟩, h8, h⟩
      · rw [decText_error_pos h]; exact k6
      · cases h
    · cases h
  obtain ⟨k7, _⟩ := decUsername_ok hb k6 h7
  change decPassword (cfDec v3) buf c7 lim p7 = .error e at h
  unfold decPassword at h
  split at h
  · rcases except_bind_error.1 h with h | ⟨⟨v8, c8⟩, h8, h⟩
    · rw [decText_error_pos h]; exact k7
    · cases h
  · cases h

/-- Every error of a body decoder lies at or before the end of the body slice (R37). -/
theorem bodyDec_error {b : Build} {t : Tag} {buf : Bytes} {cur lim : Nat} {q : BitVec 2} {p : Pkt} {e : Err} (hb : lim ≤ buf.length)
    (hc : cur ≤ lim) (h : bodyDec b t buf cur lim q p = .error e) : e.pos ≤ lim := by
  have msg : decMsgId buf cur lim p = .error e → e.pos ≤ lim := by
    intro h
    rcases except_bind_error.1 h with h | ⟨_, _, h⟩
    · rw [decWord_error_pos h]; exact hc
    · cases h
  cases t
  case connect => exact bdConnect_error hb hc h
  case connack =>
    rcases except_bind_error.1 h with h | ⟨c1, h1, h⟩
    · exact (decSkip_bounds hc).2 e h
    · rcases except_bind_error.1 h with h | ⟨_, _, h⟩
      · rw [decByte_error_pos h]; exact ((decSkip_bounds hc).1 c1 h1).2
      · cases h
  case publish =>
    rcases except_bind_error.1 h with h | ⟨⟨v1, c1⟩, h1, h⟩
    · rw [decText_error_pos h]; exact hc
    obtain ⟨_, k1, _⟩ := decText_ok hb h1
    rcases except_bind_error.1 h with h | ⟨⟨c2, p2⟩, h2, h⟩
    · unfold decPublishId at h
      split at h
      · rcases except_bind_error.1 h with h | ⟨_, _, h⟩
        · rw [decWord_error_pos h]; exact k1
        · cases h
      · cases h
    have k2 : c2 ≤ lim := by
      unfold decPublishId at h2
      split at h2
      · obtain ⟨⟨w, c3⟩, h3, h2⟩ := except_bind_ok.1 h2
        obtain ⟨_, k3, _⟩ := decWord_ok hb h3
        cases h2
        exact k3
      · cases h2
        exact k1
    rcases except_bind_error.1 h with h | ⟨_, _, h⟩
    · rw [decRest_error_pos h]; exact k2
    · cases h
  case subscribe =>
    rcases except_bind_error.1 h with h | ⟨⟨v1, c1⟩, h1, h⟩
    · rw [decWord_error_pos h]; exact hc
    rcases except_bind_error.1 h with h | ⟨_, _, h⟩
    · exact decSubs_error hb h
    · cases h
  case suback =>
    rcases except_bind_error.1 h with h | ⟨⟨v1, c1⟩, h1, h⟩
    · rw [decWord_error_pos h]; exact hc
    rcases except_bind_error.1 h with h | ⟨_, _, h⟩
    · exact decGranted_error h
    · cases h
  case unsubscribe =>
    rcases except_bind_error.1 h with h | ⟨⟨v1, c1⟩, h1, h⟩
    · rw [decWord_error_pos h]; exact hc
    rcases except_bind_error.1 h with h | ⟨_, _, h⟩
    · exact decTopics_error h
    · cases h
  case pingreq => cases h
  case pingresp => cases h
  case disconnect => cases h
  all_goals exact msg h

end Sys2Proof.Machine
end

