-- ==== Sys2Proof/Laws/BodyEncode.lean ====
section
/-! SUPPORT. What the body encoders can do, said once: the bytes they give where the fields are well-formed, and that a register file which passes the required-field check never makes them read an invalid register (R171, R22). -/

namespace Sys2Proof.Machine

theorem encSubs_of_wf {l : List (Text × Byte)} (hw : ∀ e ∈ l, e.1.length ≤ textMax ∧ utf8Ok e.1 = true) :
    encSubs l = .ok (l.flatMap wireEntry) := by
  induction l with
  | nil => rfl
  | cons e l ih =>
    obtain ⟨t, q⟩ := e
    obtain ⟨h1, h2⟩ := hw (t, q) (.head _)
    rw [encSubs, encText_eq_wire h1 h2, ih fun e he => hw e (.tail _ he)]
    simp [wireEntry, encByte]

theorem encTopics_of_wf {l : List Text} (hw : ∀ t ∈ l, t.length ≤ textMax ∧ utf8Ok t = true) :
    encTopics l = .ok (l.flatMap wireText) := by
  induction l with
  | nil => rfl
  | cons t l ih =>
    obtain ⟨h1, h2⟩ := hw t (.head _)
    rw [encTopics, encText_eq_wire h1 h2, ih fun e he => hw e (.tail _ he)]
    simp

theorem encSubs_ok {l : List (Text × Byte)} {b : Bytes} (h : encSubs l = .ok b) :
    (∀ e ∈ l, e.1.length ≤ textMax ∧ utf8Ok e.1 = true) ∧ b = l.flatMap wireEntry := by
  have hw : ∀ e ∈ l, e.1.length ≤ textMax ∧ utf8Ok e.1 = true := by
    induction l generalizing b with
    | nil => intro e he; cases he
    | cons e l ih =>
      obtain ⟨t, q⟩ := e
      obtain ⟨b1, h1, h2⟩ := except_bind_ok.1 h
      obtain ⟨b2, h3, _⟩ := except_bind_ok.1 h2
      obtain ⟨hl, hu, _⟩ := encText_ok h1
      intro e he
      rcases List.mem_cons.1 he with rfl | he'
      · exact ⟨hl, hu⟩
      · exact ih h3 e he'
  rw [encSubs_of_wf hw] at h
  cases h
  exact ⟨hw, rfl⟩

theorem encTopics_ok {l : List Text} {b : Bytes} (h : encTopics l = .ok b) :
    (∀ t ∈ l, t.length ≤ textMax ∧ utf8Ok t = true) ∧ b = l.flatMap wireText := by
  have hw : ∀ t ∈ l, t.length ≤ textMax ∧ utf8Ok t = true := by
    induction l generalizing b with
    | nil => intro e he; cases he
    | cons t l ih =>
      obtain ⟨b1, h1, h2⟩ := except_bind_ok.1 h
      obtain ⟨b2, h3, _⟩ := except_bind_ok.1 h2
      obtain ⟨hl, hu, _⟩ := encText_ok h1
      intro e he
      rcases List.mem_cons.1 he with rfl | he'
      · exact ⟨hl, hu⟩
      · exact ih h3 e he'
  rw [encTopics_of_wf hw] at h
  cases h
  exact ⟨hw, rfl⟩

theorem encSubs_not_invalid (l : List (Text × Byte)) : encSubs l ≠ .error .invalidRegister := by
  induction l with
  | nil => simp [encSubs]
  | cons e l ih =>
    intro h
    rcases except_bind_error.1 h with h | ⟨_, _, h⟩
    · exact encText_not_invalid _ h
    · rcases except_bind_error.1 h with h | ⟨_, _, h⟩
      · exact ih h
      · cases h

theorem encTopics_not_invalid (l : List Text) : encTopics l ≠ .error .invalidRegister := by
  induction l with
  | nil => simp [encTopics]
  | cons e l ih =>
    intro h
    rcases except_bind_error.1 h with h | ⟨_, _, h⟩
    · exact encText_not_invalid _ h
    · rcases except_bind_error.1 h with h | ⟨_, _, h⟩
      · exact ih h
      · cases h

/-! ### Reading registers that are valid -/

theorem readReg_not_invalid {α : Type} {r : Option α} (h : r.isSome = true) : readReg r ≠ .error .invalidRegister := by
  cases r with
  | none => cases h
  | some v => simp

theorem encTextReg_not_invalid {r : Option Text} (h : r.isSome = true) : encTextReg r ≠ .error .invalidRegister := by
  intro he
  rcases except_bind_error.1 he with he | ⟨_, _, he⟩
  · exact readReg_not_invalid h he
  · exact encText_not_invalid _ he

theorem encTextIf_not_invalid {b : Bool} {r : Option Text} (h : b = true → r.isSome = true) :
    encTextIf b r ≠ .error .invalidRegister := by
  unfold encTextIf
  cases b with
  | false => simp
  | true => exact encTextReg_not_invalid (h rfl)

theorem nonEmpty_isSome {r : Option Text} (h : nonEmpty r = true) : r.isSome = true := by
  cases r with
  | none => cases h
  | some v => rfl

/-- What `CF_DERIVE` answers on a register file that passes the check of a connect (R142, R171). -/
theorem cfDerive_of_req {p : Pkt} (h : reqOk .connect p = true) : ∃ cs, p.cleanSession = some cs ∧ ∃ fl, cfDerive p = .ok fl ∧
    fl.uf = nonEmpty p.username ∧ fl.pf = nonEmpty p.password ∧ fl.wf = willPresent p ∧ fl.cs = cs ∧
    (willPresent p = true → p.willRetain = some fl.wr ∧ p.willQos = some fl.wq) ∧
    (willPresent p = false → fl.wr = false ∧ fl.wq = 0) := by
  simp only [reqOk, Bool.and_eq_true] at h
  obtain ⟨⟨⟨⟨⟨_, _⟩, hcs⟩, _⟩, _⟩, hw⟩ := h
  obtain ⟨cs, hcs⟩ := Option.isSome_iff_exists.1 hcs
  refine ⟨cs, hcs, ?_⟩
  unfold cfDerive
  rw [hcs]
  cases hp : willPresent p with
  | false => exact ⟨_, rfl, rfl, rfl, rfl, rfl, by simp, by simp⟩
  | true =>
    simp only [willPresent, Bool.and_eq_true] at hp
    simp only [willAllOrNone, hp.1, hp.2, Bool.true_and, Bool.true_or, Bool.not_true, Bool.or_false, Bool.and_eq_true] at hw
    obtain ⟨q, hq⟩ := Option.isSome_iff_exists.1 hw.1
    obtain ⟨r, hr⟩ := Option.isSome_iff_exists.1 hw.2
    rw [hq, hr]
    exact ⟨_, rfl, rfl, rfl, rfl, rfl, by simp, by simp⟩

/-- No body encoder reads an invalid register on a register file that passes the check (R22, R171). -/
theorem bodyEnc_not_invalid {b : Build} {t : Tag} {p : Pkt} (h : reqOk t p = true) : bodyEnc b t p ≠ .error .invalidRegister := by
  have msg : p.msgId.isSome = true → encMsgId p ≠ .error .invalidRegister := by
    intro hm he
    rcases except_bind_error.1 he with he | ⟨_, _, he⟩
    · exact readReg_not_invalid hm he
    · cases he
  intro he
  cases t
  case connect =>
    obtain ⟨cs, hcs, fl, hfl, h1, h2, h3, _⟩ := cfDerive_of_req h
    simp only [reqOk, Bool.and_eq_true] at h
    obtain ⟨⟨⟨⟨⟨hn, hv⟩, _⟩, hk⟩, hc⟩, _⟩ := h
    simp only [bodyEnc, beConnect] at he
    rw [hfl, except_ok_bind] at he
    rcases except_bind_error.1 he with he | ⟨_, _, he⟩
    · exact encTextReg_not_invalid hn he
    rcases except_bind_error.1 he with he | ⟨_, _, he⟩
    · exact readReg_not_invalid hv he
    rcases except_bind_error.1 he with he | ⟨_, _, he⟩
    · exact readReg_not_invalid hk he
    rcases except_bind_error.1 he with he | ⟨_, _, he⟩
    · exact encTextReg_not_invalid hc he
    rcases except_bind_error.1 he with he | ⟨_, _, he⟩
    · exact encTextIf_not_invalid (by rw [h3, willPresent, Bool.and_eq_true]; exact And.left) he
    rcases except_bind_error.1 he with he | ⟨_, _, he⟩
    · exact encTextIf_not_invalid (by rw [h3, willPresent, Bool.and_eq_true]; exact And.right) he
    rcases except_bind_error.1 he with he | ⟨_, _, he⟩
    · exact encTextIf_not_invalid (by rw [h1]; exact nonEmpty_isSome) he
    rcases except_bind_error.1 he with he | ⟨_, _, he⟩
    · exact encTextIf_not_invalid (by rw [h2]; exact nonEmpty_isSome) he
    cases he
  case connack =>
    rcases except_bind_error.1 he with he | ⟨_, _, he⟩
    · exact readReg_not_invalid h he
    · cases he
  case publish =>
    simp only [reqOk, Bool.and_eq_true, Bool.or_eq_true, beq_iff_eq] at h
    obtain ⟨⟨ht, hp⟩, hm⟩ := h
    rcases except_bind_error.1 he with he | ⟨_, _, he⟩
    · exact encTextReg_not_invalid ht he
    rcases except_bind_error.1 he with he | ⟨_, _, he⟩
    · unfold encPublishId at he
      split at he
      · rename_i hq
        rcases except_bind_error.1 he with he | ⟨_, _, he⟩
        · exact readReg_not_invalid (hm.resolve_left (by simpa using hq)) he
        · cases he
      · cases he
    rcases except_bind_error.1 he with he | ⟨_, _, he⟩
    · exact readReg_not_invalid hp he
    rcases except_bind_error.1 he with he | ⟨_, _, he⟩
    · exact encRest_not_invalid _ he
    cases he
  case subscribe =>
    simp only [reqOk, Bool.and_eq_true] at h
    rcases except_bind_error.1 he with he | ⟨_, _, he⟩
    · exact readReg_not_invalid h.1 he
    rcases except_bind_error.1 he with he | ⟨_, _, he⟩
    · exact readReg_not_invalid h.2 he
    rcases except_bind_error.1 he with he | ⟨_, _, he⟩
    · exact encSubs_not_invalid _ he
    cases he
  case suback =>
    simp only [reqOk, Bool.and_eq_true] at h
    rcases except_bind_error.1 he with he | ⟨_, _, he⟩
    · exact readReg_not_invalid h.1 he
    rcases except_bind_error.1 he with he | ⟨_, _, he⟩
    · exact readReg_not_invalid h.2 he
    cases he
  case unsubscribe =>
    simp only [reqOk, Bool.and_eq_true] at h
    rcases except_bind_error.1 he with he | ⟨_, _, he⟩
    · exact readReg_not_invalid h.1 he
    rcases except_bind_error.1 he with he | ⟨_, _, he⟩
    · exact readReg_not_invalid h.2 he
    rcases except_bind_error.1 he with he | ⟨_, _, he⟩
    · exact encTopics_not_invalid _ he
    cases he
  case pingreq => cases he
  case pingresp => cases he
  case disconnect => cases he
  all_goals exact msg h he

/-! ### The connect body -/

/-- The bits of the flags byte that is written, and that it is read back (R141, R143). -/
theorem cfEnc_bits (fl : ConnFlags) : (cfEnc fl).getLsbD 7 = fl.uf ∧ (cfEnc fl).getLsbD 6 = fl.pf ∧ (cfEnc fl).getLsbD 5 = fl.wr ∧
    (cfEnc fl).toNat / 8 % 4 = fl.wq.toNat ∧ (cfEnc fl).getLsbD 2 = fl.wf ∧ (cfEnc fl).getLsbD 1 = fl.cs ∧
    (cfEnc fl).getLsbD 0 = false ∧ cfDec (cfEnc fl) = fl := by
  obtain ⟨uf, pf, wr, wq, wf, cs⟩ := fl
  revert wq
  refine bitVec2_forall ?_
  cases uf <;> cases pf <;> cases wr <;> cases wf <;> cases cs <;> decide

theorem nonEmpty_eq (o : Option Text) : nonEmpty o = (o.getD [] != []) := by
  rcases o with _ | _ | ⟨b, t⟩ <;> rfl

/-- A text that the encoder accepts (R27). -/
def TextOk (t : Text) : Prop := t.length ≤ textMax ∧ utf8Ok t = true

theorem textOk_nil : TextOk [] := ⟨Nat.zero_le _, rfl⟩

theorem textOk_getD {o : Option Text} (h : ∀ t, o = some t → TextOk t) : TextOk (o.getD []) := by
  cases o with
  | none => exact textOk_nil
  | some t => exact h t rfl

theorem encTextReg_ok {r : Option Text} {b : Bytes} (h : encTextReg r = .ok b) : ∃ t, r = some t ∧ TextOk t ∧ b = wireText t := by
  obtain ⟨t, h1, h2⟩ := except_bind_ok.1 h
  obtain ⟨h3, h4, _⟩ := encText_ok h2
  rw [encText_eq_wire h3 h4] at h2
  cases h2
  exact ⟨t, readReg_eq_ok.1 h1, ⟨h3, h4⟩, rfl⟩

theorem encTextReg_of {t : Text} (h : TextOk t) : encTextReg (some t) = .ok (wireText t) := encText_eq_wire h.1 h.2

theorem encTextIf_of {b : Bool} {r : Option Text} (h1 : b = true → r.isSome = true) (h2 : TextOk (r.getD [])) :
    encTextIf b r = .ok (if b then wireText (r.getD []) else []) := by
  unfold encTextIf
  cases b with
  | false => rfl
  | true =>
    obtain ⟨t, rfl⟩ := Option.isSome_iff_exists.1 (h1 rfl)
    exact encTextReg_of h2

theorem encTextIf_ok {b : Bool} {r : Option Text} {x : Bytes} (h : encTextIf b r = .ok x) (hb : b = true) : TextOk (r.getD []) := by
  subst hb
  obtain ⟨t, rfl, h1, _⟩ := encTextReg_ok h
  exact h1

/-- `BE_CONNECT` on a register file that passes the check and whose texts are well-formed. -/
theorem beConnect_of {p : Pkt} {name cid : Text} {ver : Byte} {ka : Word} {fl : ConnFlags} (hreq : reqOk .connect p = true)
    (hfl : cfDerive p = .ok fl) (hn : p.protoName = some name) (hv : p.protoVer = some ver) (hk : p.keepAlive = some ka)
    (hc : p.clientId = some cid)
    (hw : ∀ t ∈ [name, cid, p.willTopic.getD [], p.willMessage.getD [], p.username.getD [], p.password.getD []], TextOk t) :
    beConnect p = .ok (wireConnect name ver (cfEnc fl) ka cid (p.willTopic.getD []) (p.willMessage.getD [])
      (p.username.getD []) (p.password.getD [])) := by
  simp only [List.mem_cons, List.not_mem_nil, or_false, forall_eq_or_imp, forall_eq] at hw
  obtain ⟨w1, w2, w3, w4, w5, w6⟩ := hw
  obtain ⟨cs, hcs, fl', hfl', h1, h2, h3, _⟩ := cfDerive_of_req hreq
  rw [hfl] at hfl'
  cases hfl'
  obtain ⟨c7, c6, _, _, c2, _⟩ := cfEnc_bits fl
  have hwp : fl.wf = true → p.willTopic.isSome = true ∧ p.willMessage.isSome = true := by
    rw [h3, willPresent, Bool.and_eq_true]
    exact id
  rw [beConnect, hfl, except_ok_bind, hn, encTextReg_of w1, except_ok_bind, hv, readReg_some, except_ok_bind, hk,
    readReg_some, except_ok_bind, hc, encTextReg_of w2, except_ok_bind, encTextIf_of (fun h => (hwp h).1) w3, except_ok_bind,
    encTextIf_of (fun h => (hwp h).2) w4, except_ok_bind, encTextIf_of (fun h => nonEmpty_isSome (h1 ▸ h)) w5, except_ok_bind,
    encTextIf_of (fun h => nonEmpty_isSome (h2 ▸ h)) w6, except_ok_bind, wireConnect, c7, c6, c2]
  cases fl.wf <;> simp [encByte, wireWord_eq]

/-- What a connect body that has been built says about the register file. -/
theorem beConnect_ok {p : Pkt} {body : Bytes} (hreq : reqOk .connect p = true) (h : beConnect p = .ok body) :
    ∃ name ver ka cid fl, p.protoName = some name ∧ p.protoVer = some ver ∧ p.keepAlive = some ka ∧ p.clientId = some cid ∧
      cfDerive p = .ok fl ∧
      (∀ t ∈ [name, cid, p.willTopic.getD [], p.willMessage.getD [], p.username.getD [], p.password.getD []], TextOk t) ∧
      body = wireConnect name ver (cfEnc fl) ka cid (p.willTopic.getD []) (p.willMessage.getD []) (p.username.getD []) (p.password.getD []) := by
  obtain ⟨cs, hcs, fl, hfl, h1, h2, h3, h4, _, _⟩ := cfDerive_of_req hreq
  have hb := h
  unfold beConnect at h
  rw [hfl, except_ok_bind] at h
  obtain ⟨b1, e1, h⟩ := except_bind_ok.1 h
  obtain ⟨ver, e2, h⟩ := except_bind_ok.1 h
  obtain ⟨ka, e3, h⟩ := except_bind_ok.1 h
  obtain ⟨b2, e4, h⟩ := except_bind_ok.1 h
  obtain ⟨b3, e5, h⟩ := except_bind_ok.1 h
  obtain ⟨b4, e6, h⟩ := except_bind_ok.1 h
  obtain ⟨b5, e7, h⟩ := except_bind_ok.1 h
  obtain ⟨b6, e8, h⟩ := except_bind_ok.1 h
  obtain ⟨name, hn, n1, _⟩ := encTextReg_ok e1
  obtain ⟨cid, hc, n2, _⟩ := encTextReg_ok e4
  have hv := readReg_eq_ok.1 e2
  have hk := readReg_eq_ok.1 e3
  have hall : willAllOrNone p = true := by
    simp only [reqOk, Bool.and_eq_true] at hreq
    exact hreq.2
  have w12 : TextOk (p.willTopic.getD []) ∧ TextOk (p.willMessage.getD []) := by
    cases hwp : willPresent p with
    | true => exact ⟨encTextIf_ok e5 (h3.trans hwp), encTextIf_ok e6 (h3.trans hwp)⟩
    | false =>
      have : p.willTopic = none ∧ p.willMessage = none := by
        revert hwp hall
        unfold willPresent willAllOrNone
        cases p.willTopic <;> cases p.willMessage <;> simp
      rw [this.1, this.2]
      exact ⟨textOk_nil, textOk_nil⟩
  have opt : ∀ {o : Option Text} {x : Bytes}, encTextIf (nonEmpty o) o = .ok x → TextOk (o.getD []) := by
    intro o x ho
    cases hne : nonEmpty o with
    | true => exact encTextIf_ok ho hne
    | false =>
      rw [nonEmpty_eq] at hne
      have : o.getD [] = [] := by simpa using hne
      rw [this]
      exact textOk_nil
  have hw : ∀ t ∈ [name, cid, p.willTopic.getD [], p.willMessage.getD [], p.username.getD [], p.password.getD []], TextOk t := by
    simp only [List.mem_cons, List.not_mem_nil, or_false, forall_eq_or_imp, forall_eq]
    exact ⟨n1, n2, w12.1, w12.2, opt (h1 ▸ e7), opt (h2 ▸ e8)⟩
  refine ⟨name, ver, ka, cid, fl, hn, hv, hk, hc, hfl, hw, ?_⟩
  rw [beConnect_of hreq hfl hn hv hk hc hw] at hb
  exact (Except.ok.inj hb).symm

end Sys2Proof.Machine
end

