-- ==== Sys2Proof/Laws/BodyErrors.lean ====
section
/-! SUPPORT. Where a body decoder raises, said once for fields in wire order (R102 to R104, R151, R153, R158 to R160): the first field that cannot be decoded raises at its first byte, and a full list at the first byte of the entry that does not fit (R208). Where a body encoder raises: at the first text that is refused (R109, R172, R179, R181). -/

namespace Sys2Proof.Machine

/-- `State.FieldFails` over a byte sequence: the field at offset `a` cannot be decoded. -/
def FieldErr (buf : Bytes) (lim a : Nat) (k : ErrKind) : WireField → Prop
  | .byte _ => k = .truncatedInput ∧ lim < a + 1
  | .word _ => k = .truncatedInput ∧ lim < a + 2
  | .text t =>
    (k = .truncatedInput ∧ (lim < a + 2 ∨ ∃ (l : Word) (r : Bytes), buf.drop a = encWord l ++ r ∧ lim < a + 2 + l.toNat)) ∨
    (k = .invalidEncoding ∧ t.length ≤ textMax ∧ utf8Ok t = false ∧ a + 2 + t.length ≤ lim ∧ ∃ r, buf.drop a = wireText t ++ r)

/-- `State.FailsAt` over a byte sequence: of the fields `fs` from `cur` on, the first that cannot be decoded is `x`, at `pos`. -/
def FieldsFail (buf : Bytes) (lim cur : Nat) (fs : List WireField) (x : WireField) (k : ErrKind) (pos : Nat) : Prop :=
  ∃ pre post r, fs = pre ++ x :: post ∧ (∀ y ∈ pre, y.Ok) ∧ buf.drop cur = wireFields pre ++ r ∧
    pos = cur + (wireFields pre).length ∧ pos ≤ lim ∧ FieldErr buf lim pos k x

@[simp] theorem wireFields_nil : wireFields [] = [] := rfl
@[simp] theorem wireFields_cons (x : WireField) (fs : List WireField) : wireFields (x :: fs) = x.bytes ++ wireFields fs := rfl
/-- The failing fields of a state are those of its input. -/
theorem State.FailsAt.fields {s : State} {fs pre : List WireField} {x : WireField} {k : ErrKind} (h : s.FailsAt fs pre x k) :
    s.inputOk s.working.lim = true ∧
    FieldsFail s.input s.working.lim s.working.cur fs x k (s.working.cur + (wireFields pre).length) := by
  obtain ⟨⟨post, h1⟩, h2, h3, h4⟩ := h
  obtain ⟨hl, _⟩ := State.inputOk_iff.1 h3.1
  have hle := h3.2.1
  refine ⟨h3.1, pre, post, _, h1, h2, h3.drop, rfl, hle, ?_⟩
  cases x with
  | byte b => exact h4
  | word w => exact h4
  | text t =>
    rcases h4 with ⟨hk, h4⟩ | ⟨hk, hn, hu, hh, h4⟩
    · refine .inl ⟨hk, ?_⟩
      by_cases h2 : s.working.lim < s.working.cur + (wireFields pre).length + 2
      · exact .inl h2
      · obtain ⟨l, hh, h4⟩ := h4.resolve_left h2
        exact .inr ⟨l, _, State.input_drop_of_holds hh (by rw [encWord_length]; omega), h4⟩
    · exact .inr ⟨hk, hn, hu, h4, _, State.input_drop_of_holds hh (by rw [wireText_length]; omega)⟩

theorem decByte_fails {buf : Bytes} {lim a : Nat} {k : ErrKind} {b : Byte} (h : FieldErr buf lim a k (.byte b)) :
    decByte buf a lim = .error ⟨k, a⟩ := by
  obtain ⟨rfl, h⟩ := h
  rw [decByte, if_pos (by omega)]

theorem decWord_fails {buf : Bytes} {lim a : Nat} {k : ErrKind} {w : Word} (h : FieldErr buf lim a k (.word w)) :
    decWord buf a lim = .error ⟨k, a⟩ := by
  obtain ⟨rfl, h⟩ := h
  rw [decWord, if_pos (by omega)]

theorem decText_fails {buf : Bytes} {lim a : Nat} {k : ErrKind} {t : Text} (h : FieldErr buf lim a k (.text t)) :
    decText buf a lim = .error ⟨k, a⟩ := by
  unfold decText
  rcases h with ⟨rfl, h | ⟨l, r, hd, h⟩⟩ | ⟨rfl, hn, hu, hl, r, hd⟩
  · rw [if_pos (by omega)]
  · by_cases h2 : lim - a < 2
    · rw [if_pos h2]
    · rw [if_neg h2, wordAt_of_drop hd]
      dsimp only
      rw [if_pos (by omega)]
  · have hd' := hd
    rw [wireText, wireWord_eq, List.append_assoc] at hd'
    have hw : (wordAt buf a).toNat = t.length := by
      rw [wordAt_of_drop hd', BitVec.toNat_ofNat, Nat.mod_eq_of_lt (by unfold textMax at hn; omega)]
    have hs := drop_add_of_drop hd'
    rw [encWord_length] at hs
    rw [if_neg (by omega), hw]
    dsimp only
    rw [if_neg (by omega), slice_of_drop hs, hu]
    rfl

theorem FieldsFail.nil {buf : Bytes} {lim cur : Nat} {x : WireField} {k : ErrKind} {pos : Nat} :
    ¬ FieldsFail buf lim cur [] x k pos := by
  rintro ⟨pre, post, r, h, _⟩
  cases pre <;> cases h

/-- The first field fails, or it stands there and the failure is behind it. -/
theorem FieldsFail.cons {buf : Bytes} {lim cur : Nat} {y : WireField} {fs : List WireField} {x : WireField} {k : ErrKind} {pos : Nat}
    (h : FieldsFail buf lim cur (y :: fs) x k pos) :
    (pos = cur ∧ x = y ∧ FieldErr buf lim cur k y) ∨
    (y.Ok ∧ (∃ r, buf.drop cur = y.bytes ++ r) ∧ cur + y.bytes.length ≤ lim ∧
      FieldsFail buf lim (cur + y.bytes.length) fs x k pos) := by
  obtain ⟨pre, post, r, h1, h2, h3, h4, h5, h6⟩ := h
  cases pre with
  | nil =>
    cases h1
    subst h4
    exact .inl ⟨rfl, rfl, h6⟩
  | cons z pre =>
    cases h1
    rw [wireFields_cons, List.append_assoc] at h3
    rw [wireFields_cons, List.length_append] at h4
    exact .inr ⟨h2 _ (.head _), ⟨_, h3⟩, by omega, pre, post, r, rfl, fun z hz => h2 z (.tail _ hz), drop_add_of_drop h3,
      by omega, h5, h6⟩

theorem FieldsFail.byte {buf : Bytes} {lim cur : Nat} {b : Byte} {fs : List WireField} {x : WireField} {k : ErrKind} {pos : Nat}
    (h : FieldsFail buf lim cur (.byte b :: fs) x k pos) :
    decByte buf cur lim = .error ⟨k, pos⟩ ∨
    (decByte buf cur lim = .ok (b, cur + 1) ∧ FieldsFail buf lim (cur + 1) fs x k pos) := by
  rcases h.cons with ⟨rfl, _, he⟩ | ⟨_, ⟨r, hd⟩, hl, h⟩
  · exact .inl (decByte_fails he)
  · exact .inr ⟨decByte_at hd hl, h⟩

theorem FieldsFail.word {buf : Bytes} {lim cur : Nat} {w : Word} {fs : List WireField} {x : WireField} {k : ErrKind} {pos : Nat}
    (h : FieldsFail buf lim cur (.word w :: fs) x k pos) :
    decWord buf cur lim = .error ⟨k, pos⟩ ∨
    (decWord buf cur lim = .ok (w, cur + 2) ∧ FieldsFail buf lim (cur + 2) fs x k pos) := by
  rcases h.cons with ⟨rfl, _, he⟩ | ⟨_, ⟨r, hd⟩, hl, h⟩
  · exact .inl (decWord_fails he)
  · exact .inr ⟨decWord_at hd hl, h⟩

theorem FieldsFail.text {buf : Bytes} {lim cur : Nat} {t : Text} {fs : List WireField} {x : WireField} {k : ErrKind} {pos : Nat}
    (h : FieldsFail buf lim cur (.text t :: fs) x k pos) :
    decText buf cur lim = .error ⟨k, pos⟩ ∨
    (decText buf cur lim = .ok (t, cur + (wireText t).length) ∧ FieldsFail buf lim (cur + (wireText t).length) fs x k pos) := by
  rcases h.cons with ⟨rfl, _, he⟩ | ⟨hok, ⟨r, hd⟩, hl, h⟩
  · exact .inl (decText_fails he)
  · exact .inr ⟨decText_at (encText_eq_wire hok.1 hok.2) hd hl, h⟩

/-! ### The bodies -/

/-- `BD_CONNECT` raises at the first field that cannot be decoded (R151). -/
theorem bdConnect_fails {buf : Bytes} {cur lim : Nat} {p : Pkt} {name cid wt wm un pw : Text} {ver f : Byte} {ka : Word}
    {x : WireField} {k : ErrKind} {pos : Nat}
    (h : FieldsFail buf lim cur (connectFields name ver f ka cid wt wm un pw) x k pos) :
    bdConnect buf cur lim p = .error ⟨k, pos⟩ := by
  obtain ⟨c7, c6, _, _, c2, _⟩ := cfDec_bits f
  simp only [connectFields, ← c7, ← c6, ← c2, List.cons_append, List.nil_append, List.append_assoc] at h
  unfold bdConnect
  rcases h.text with e | ⟨e, h⟩ <;> simp only [e, except_ok_bind, except_error_bind]
  rcases h.byte with e | ⟨e, h⟩ <;> simp only [e, except_ok_bind, except_error_bind]
  rcases h.byte with e | ⟨e, h⟩ <;> simp only [e, except_ok_bind, except_error_bind]
  rcases h.word with e | ⟨e, h⟩ <;> simp only [e, except_ok_bind, except_error_bind]
  rcases h.text with e | ⟨e, h⟩ <;> simp only [e, except_ok_bind, except_error_bind]
  have password : ∀ {cur p}, FieldsFail buf lim cur (if (cfDec f).pf then [.text pw] else []) x k pos →
      decPassword (cfDec f) buf cur lim p = .error ⟨k, pos⟩ := by
    intro cur p h
    unfold decPassword
    cases hf : (cfDec f).pf <;> simp only [hf, if_true, if_false, Bool.false_eq_true] at h ⊢
    · exact absurd h FieldsFail.nil
    · rcases h.text with e | ⟨e, h⟩
      · rw [e]; rfl
      · exact absurd h FieldsFail.nil
  have username : ∀ {cur p}, FieldsFail buf lim cur
      ((if (cfDec f).uf then [.text un] else []) ++ if (cfDec f).pf then [.text pw] else []) x k pos →
      (do let (cur, p) ← decUsername (cfDec f) buf cur lim p; decPassword (cfDec f) buf cur lim p) = .error ⟨k, pos⟩ := by
    intro cur p h
    unfold decUsername
    cases hf : (cfDec f).uf <;> simp only [hf, if_true, if_false, Bool.false_eq_true, List.nil_append, List.cons_append] at h ⊢
    · exact password h
    · rcases h.text with e | ⟨e, h⟩
      · rw [e]; rfl
      · rw [e]; exact password h
  unfold decWill
  cases hf : (cfDec f).wf <;> simp only [hf, if_true, if_false, Bool.false_eq_true, List.nil_append, List.cons_append] at h ⊢
  · exact username h
  · rcases h.text with e | ⟨e, h⟩
    · rw [e]; rfl
    · rcases h.text with e' | ⟨e', h⟩
      · simp only [e, e', except_ok_bind, except_error_bind]
      · simp only [e, e', except_ok_bind, except_pure]; exact username h

/-- `BD_PUBLISH` raises at the topic or the message-id that cannot be decoded (R153). -/
theorem bdPublish_fails {q : BitVec 2} {buf : Bytes} {cur lim : Nat} {p : Pkt} {t : Text} {m : Word} {x : WireField} {k : ErrKind}
    {pos : Nat} (h : FieldsFail buf lim cur (publishFields q t m) x k pos) :
    bdPublish q buf cur lim p = .error ⟨k, pos⟩ := by
  unfold publishFields at h
  rw [bdPublish]
  rcases h.text with e | ⟨e, h⟩ <;> rw [e]
  · rfl
  · by_cases hq : q = 0
    · rw [if_pos hq] at h
      exact absurd h FieldsFail.nil
    · rw [if_neg hq] at h
      simp only [BitVec.ofNat_eq_ofNat] at hq
      rcases h.word with e' | ⟨e', h⟩
      · rw [wireText_length] at e'
        simp [decPublishId, hq, e']
      · exact absurd h FieldsFail.nil

/-- The loop of `BD_SUBSCRIBE` raises at the field that cannot be decoded, where the slice does not end before its entry. -/
theorem decSubs_fails {cap : Option Nat} {buf : Bytes} {lim passes cur : Nat} {acc l : List (Text × Byte)} {x : WireField}
    {k : ErrKind} {pos : Nat} (hc : countFits cap (acc.length + l.length) = true)
    (h : FieldsFail buf lim cur (l.flatMap fun e => [.text e.1, .byte e.2]) x k pos) (hx : (∃ t, x = .text t) → pos < lim)
    (hp : lim - cur ≤ passes) : decSubs cap buf lim passes cur acc = .error ⟨k, pos⟩ := by
  induction l generalizing passes cur acc with
  | nil => exact absurd h FieldsFail.nil
  | cons e l ih =>
    simp only [List.flatMap_cons, List.cons_append, List.nil_append] at h
    have hlt : cur < lim := by
      rcases h.cons with ⟨h1, h2, _⟩ | ⟨_, _, h1, _⟩
      · exact h1 ▸ hx ⟨_, h2⟩
      · simp only [WireField.bytes, wireText_length] at h1; omega
    cases passes with
    | zero => omega
    | succ passes =>
      rw [decSubs, if_pos hlt, listFull_of_fits hc (by simp), if_neg (by simp)]
      rcases h.text with e1 | ⟨e1, h⟩
      · rw [e1]; rfl
      rw [e1, except_ok_bind]
      dsimp only
      rcases h.byte with e2 | ⟨e2, h⟩
      · rw [e2]; rfl
      rw [e2, except_ok_bind]
      dsimp only
      exact ih (by rw [← hc]; congr 1; simp; omega) h (by rw [wireText_length]; omega)

/-- The loop of `BD_UNSUBSCRIBE`, likewise. -/
theorem decTopics_fails {cap : Option Nat} {buf : Bytes} {lim passes cur : Nat} {acc l : List Text} {x : WireField}
    {k : ErrKind} {pos : Nat} (hc : countFits cap (acc.length + l.length) = true)
    (h : FieldsFail buf lim cur (l.map .text) x k pos) (hx : (∃ t, x = .text t) → pos < lim)
    (hp : lim - cur ≤ passes) : decTopics cap buf lim passes cur acc = .error ⟨k, pos⟩ := by
  induction l generalizing passes cur acc with
  | nil => exact absurd h FieldsFail.nil
  | cons t l ih =>
    rw [List.map_cons] at h
    have hlt : cur < lim := by
      rcases h.cons with ⟨h1, h2, _⟩ | ⟨_, _, h1, _⟩
      · exact h1 ▸ hx ⟨_, h2⟩
      · simp only [WireField.bytes, wireText_length] at h1; omega
    cases passes with
    | zero => omega
    | succ passes =>
      rw [decTopics, if_pos hlt, listFull_of_fits hc (by simp), if_neg (by simp)]
      rcases h.text with e1 | ⟨e1, h⟩
      · rw [e1]; rfl
      rw [e1, except_ok_bind]
      dsimp only
      exact ih (by rw [← hc]; congr 1; simp; omega) h (by rw [wireText_length]; omega)

/-- `BD_SUBSCRIBE` raises at the field that cannot be decoded (R158). -/
theorem bdSubscribe_fails {cap : Option Nat} {buf : Bytes} {cur lim : Nat} {p : Pkt} {m : Word} {l : List (Text × Byte)} {x : WireField}
    {k : ErrKind} {pos : Nat} (hc : countFits cap l.length = true) (h : FieldsFail buf lim cur (subscribeFields m l) x k pos)
    (hx : (∃ t, x = .text t) → pos < lim) : bdSubscribe cap buf cur lim p = .error ⟨k, pos⟩ := by
  rw [bdSubscribe]
  rcases h.word with e | ⟨e, h⟩ <;> rw [e]
  · rfl
  · rw [except_ok_bind]
    dsimp only
    rw [decSubs_fails (acc := []) (by simpa using hc) h hx (Nat.le_refl _)]
    rfl

/-- `BD_UNSUBSCRIBE` raises at the field that cannot be decoded (R160). -/
theorem bdUnsubscribe_fails {cap : Option Nat} {buf : Bytes} {cur lim : Nat} {p : Pkt} {m : Word} {l : List Text} {x : WireField}
    {k : ErrKind} {pos : Nat} (hc : countFits cap l.length = true) (h : FieldsFail buf lim cur (unsubscribeFields m l) x k pos)
    (hx : (∃ t, x = .text t) → pos < lim) : bdUnsubscribe cap buf cur lim p = .error ⟨k, pos⟩ := by
  rw [bdUnsubscribe]
  rcases h.word with e | ⟨e, h⟩ <;> rw [e]
  · rfl
  · rw [except_ok_bind]
    dsimp only
    rw [decTopics_fails (acc := []) (by simpa using hc) h hx (Nat.le_refl _)]
    rfl

/-! ### Full lists -/

/-- The loop of a subscribe meets a full list before its bytes end (R158, R208). -/
theorem decSubs_full {c : Nat} {buf r : Bytes} {lim passes cur : Nat} {acc l : List (Text × Byte)}
    (hw : ∀ e ∈ l, e.1.length ≤ textMax ∧ utf8Ok e.1 = true) (hc : c = acc.length + l.length)
    (hd : buf.drop cur = l.flatMap wireEntry ++ r) (hl : cur + (l.flatMap wireEntry).length < lim) (hp : lim - cur ≤ passes) :
    decSubs (some c) buf lim passes cur acc = .error ⟨.capacityExceeded, cur + (l.flatMap wireEntry).length⟩ := by
  induction l generalizing passes cur acc with
  | nil =>
    simp at hl hc
    cases passes with
    | zero => omega
    | succ passes => simp [decSubs, hl, listFull, hc]
  | cons e l ih =>
    obtain ⟨t, q⟩ := e
    obtain ⟨ht, hu⟩ := hw (t, q) (.head _)
    simp only [List.flatMap_cons, List.length_append, wireEntry, wireText_length, List.length_singleton, List.append_assoc] at hd hl ⊢
    cases passes with
    | zero => omega
    | succ passes =>
      have hlf : listFull (some c) acc.length = false := by simp [listFull, hc]
      have hd2 := drop_add_of_drop hd
      rw [decSubs, if_pos (by omega), hlf, if_neg (by simp),
        decText_at (lim := lim) (encText_eq_wire ht hu) hd (by simp; omega), except_ok_bind]
      dsimp only
      rw [decByte_at (lim := lim) (v := q) hd2 (by simp; omega), except_ok_bind]
      dsimp only
      rw [ih (fun e he => hw e (.tail _ he)) (by simp [hc]; omega) (drop_succ_of_drop hd2)
        (by simp only [wireText_length]; omega) (by simp only [wireText_length]; omega)]
      simp only [wireText_length]
      congr 2; omega

/-- The loop of an unsubscribe meets a full list before its bytes end (R160, R208). -/
theorem decTopics_full {c : Nat} {buf r : Bytes} {lim passes cur : Nat} {acc l : List Text}
    (hw : ∀ t ∈ l, t.length ≤ textMax ∧ utf8Ok t = true) (hc : c = acc.length + l.length)
    (hd : buf.drop cur = l.flatMap wireText ++ r) (hl : cur + (l.flatMap wireText).length < lim) (hp : lim - cur ≤ passes) :
    decTopics (some c) buf lim passes cur acc = .error ⟨.capacityExceeded, cur + (l.flatMap wireText).length⟩ := by
  induction l generalizing passes cur acc with
  | nil =>
    simp at hl hc
    cases passes with
    | zero => omega
    | succ passes => simp [decTopics, hl, listFull, hc]
  | cons t l ih =>
    obtain ⟨ht, hu⟩ := hw t (.head _)
    simp only [List.flatMap_cons, List.length_append, wireText_length, List.append_assoc] at hd hl ⊢
    cases passes with
    | zero => omega
    | succ passes =>
      have hlf : listFull (some c) acc.length = false := by simp [listFull, hc]
      rw [decTopics, if_pos (by omega), hlf, if_neg (by simp),
        decText_at (lim := lim) (encText_eq_wire ht hu) hd (by simp; omega), except_ok_bind]
      dsimp only
      rw [ih (fun e he => hw e (.tail _ he)) (by simp [hc]; omega) (drop_add_of_drop hd)
        (by simp only [wireText_length]; omega) (by simp only [wireText_length]; omega)]
      simp only [wireText_length]
      congr 2; omega

/-! ### The body encoders -/

/-- What `ENC_TEXT` raises on a text that it refuses, the length test first (R109). -/
def textStop (t : Text) : EncStop := .raise (if textMax < t.length then .lengthOutOfRange else .invalidEncoding)

theorem textStop_long {t : Text} (h : textMax < t.length) : textStop t = .raise .lengthOutOfRange := by rw [textStop, if_pos h]
theorem textStop_bad {t : Text} (h : t.length ≤ textMax) : textStop t = .raise .invalidEncoding := by
  rw [textStop, if_neg (by omega)]

theorem not_textOk_long {t : Text} (h : textMax < t.length) : ¬ TextOk t := fun h' => by have := h'.1; omega
theorem not_textOk_bad {t : Text} (h : utf8Ok t = false) : ¬ TextOk t := fun h' => by rw [h'.2] at h; cases h

theorem encText_refused {t : Text} (h : ¬ TextOk t) : encText t = .error (textStop t) := by
  unfold encText textStop
  split
  · rfl
  · rename_i hn
    rw [if_neg (fun hu => h ⟨by omega, hu⟩)]

theorem firstBad_nil {t : Text} : ¬ firstBad [] t := by
  rintro ⟨pre, post, h, _⟩
  cases pre <;> cases h

theorem firstBad_cons {u t : Text} {ts : List Text} (h : firstBad (u :: ts) t) : u = t ∨ (TextOk u ∧ firstBad ts t) := by
  obtain ⟨pre, post, h1, h2⟩ := h
  cases pre with
  | nil => cases h1; exact .inl rfl
  | cons v pre =>
    cases h1
    exact .inr ⟨h2 _ (.head _), pre, post, rfl, fun u hu => h2 u (.tail _ hu)⟩

/-- The next text is refused, or it is encoded and a later one is refused. -/
theorem firstBad_encText {u t : Text} {ts : List Text} (h : firstBad (u :: ts) t) (hb : ¬ TextOk t) :
    encText u = .error (textStop t) ∨ (TextOk u ∧ encText u = .ok (wireText u) ∧ firstBad ts t) := by
  rcases firstBad_cons h with rfl | ⟨h1, h2⟩
  · exact .inl (encText_refused hb)
  · exact .inr ⟨h1, encText_eq_wire h1.1 h1.2, h2⟩

theorem encSubs_fails {l : List (Text × Byte)} {t : Text} (h : firstBad (l.map fun e => e.1) t) (hb : ¬ TextOk t) :
    encSubs l = .error (textStop t) := by
  induction l with
  | nil => exact absurd h firstBad_nil
  | cons e l ih =>
    obtain ⟨u, q⟩ := e
    rcases firstBad_encText h hb with e | ⟨_, e, h⟩ <;> rw [encSubs, e]
    · rfl
    · rw [except_ok_bind, ih h]; rfl

theorem encTopics_fails {l : List Text} {t : Text} (h : firstBad l t) (hb : ¬ TextOk t) : encTopics l = .error (textStop t) := by
  induction l with
  | nil => exact absurd h firstBad_nil
  | cons u l ih =>
    rcases firstBad_encText h hb with e | ⟨_, e, h⟩ <;> rw [encTopics, e]
    · rfl
    · rw [except_ok_bind, ih h]; rfl

/-- A username or password in the order of `BE_CONNECT`: it is refused, or it is encoded or left out and a later text is refused. -/
theorem firstBad_optional {o : Option Text} {ts : List Text} {t : Text} (h : firstBad (o.toList ++ ts) t) (hb : ¬ TextOk t) :
    encTextIf (nonEmpty o) o = .error (textStop t) ∨ ((∃ x, encTextIf (nonEmpty o) o = .ok x) ∧ firstBad ts t) := by
  rcases o with _ | _ | ⟨b, u⟩
  · exact .inr ⟨⟨[], rfl⟩, h⟩
  · rcases firstBad_cons h with rfl | ⟨_, h⟩
    · exact absurd textOk_nil hb
    · exact .inr ⟨⟨[], rfl⟩, h⟩
  · rcases firstBad_encText h hb with e | ⟨_, e, h⟩
    · exact .inl e
    · exact .inr ⟨⟨_, e⟩, h⟩

/-- `BE_CONNECT` raises at the first text in wire order that is refused (R172). -/
theorem beConnect_fails {p : Pkt} {name cid t : Text} {will : Option Will} (hreq : reqOk .connect p = true)
    (hn : p.protoName = some name) (hc : p.clientId = some cid) (hwt : p.willTopic = will.map (·.topic))
    (hwm : p.willMessage = will.map (·.message))
    (h : firstBad ([name, cid] ++ (will.map fun w => [w.topic, w.message]).getD [] ++ p.username.toList ++ p.password.toList) t)
    (hb : ¬ TextOk t) : beConnect p = .error (textStop t) := by
  obtain ⟨cs, _, fl, hfl, h1, h2, h3, _⟩ := cfDerive_of_req hreq
  simp only [reqOk, Bool.and_eq_true] at hreq
  obtain ⟨ver, _, hv⟩ := readReg_of_isSome hreq.1.1.1.1.2
  obtain ⟨ka, _, hk⟩ := readReg_of_isSome hreq.1.1.2
  have h3' : fl.wf = will.isSome := by rw [h3, willPresent, hwt, hwm]; cases will <;> rfl
  simp only [List.cons_append, List.nil_append, List.append_assoc] at h
  rw [beConnect, hfl, except_ok_bind, hn, hv, hk, hc, h3', h1, h2, hwt, hwm]
  simp only [encTextReg, readReg_some, except_ok_bind]
  rcases firstBad_encText h hb with e | ⟨_, e, h⟩ <;> simp only [e, except_ok_bind, except_error_bind]
  rcases firstBad_encText h hb with e | ⟨_, e, h⟩ <;> simp only [e, except_ok_bind, except_error_bind]
  have tail : firstBad (p.username.toList ++ p.password.toList) t → ∀ f : Bytes → Bytes → Bytes,
      (do let un ← encTextIf (nonEmpty p.username) p.username
          let pw ← encTextIf (nonEmpty p.password) p.password
          return f un pw : Except EncStop Bytes) = .error (textStop t) := by
    intro h f
    rcases firstBad_optional h hb with e | ⟨⟨x, e⟩, h⟩
    · rw [e]; rfl
    · rw [e, except_ok_bind]
      rw [← List.append_nil p.password.toList] at h
      rcases firstBad_optional h hb with e | ⟨_, h⟩
      · rw [e]; rfl
      · exact absurd h firstBad_nil
  cases will with
  | none => exact tail h _
  | some w =>
    simp only [Option.map_some, Option.isSome_some, Option.getD_some, List.cons_append, List.nil_append, encTextIf, encTextReg,
      readReg_some, except_ok_bind, if_true] at h ⊢
    rcases firstBad_encText h hb with e | ⟨_, e, h⟩ <;> simp only [e, except_ok_bind, except_error_bind]
    rcases firstBad_encText h hb with e | ⟨_, e, h⟩ <;> simp only [e, except_ok_bind, except_error_bind]
    exact tail h _

end Sys2Proof.Machine
end

