-- ==== Sys2Proof/Laws/RemainingLength.lean ====
section
/-! SUPPORT. What the remaining-length decoder and encoder can do, said once over the bytes of the field (R74, R120 to R125). -/

namespace Sys2Proof.Machine

theorem flagAt_seven (b : Byte) : flagAt b 7 = decide (128 ≤ b.toNat) := by
  obtain ⟨n⟩ := b
  revert n
  decide +kernel

theorem lowSeven_toNat (b : Byte) : (extractBits b 6 0).toNat = b.toNat % 128 := by
  rw [extractBits_toNat]; simp

/-- The loop variables after the whole field `f` has been read. -/
def rlAfter (st : RlState) (f : Bytes) : RlState where
  cur := st.cur + f.length
  acc := st.acc + rlValue f * st.mult
  mult := st.mult * 128 ^ f.length
  count := st.count + f.length

theorem rlNext_eq (buf : Bytes) (st : RlState) : rlNext buf st = rlAfter st [byteAt buf st.cur] := by
  simp [rlNext, rlAfter, rlValue, lowSeven_toNat]

theorem rlAfter_cons (st : RlState) (b : Byte) (f : Bytes) : rlAfter (rlAfter st [b]) f = rlAfter st (b :: f) := by
  simp only [rlAfter, rlValue, List.length_cons, List.length_nil, RlState.mk.injEq]
  refine ⟨by omega, ?_, ?_, by omega⟩
  · ring
  · ring

theorem rlValue_lt (f : Bytes) : rlValue f < 128 ^ f.length := by
  induction f with
  | nil => simp [rlValue]
  | cons b f ih =>
    rw [rlValue, List.length_cons, pow_succ]
    have := Nat.mod_lt b.toNat (show 0 < 128 by omega)
    omega

/-- A field of at most 4 bytes holds a value of at most `RL_MAX` (R123). -/
theorem rlValue_le (f : Bytes) (h : f.length ≤ 4) : rlValue f ≤ rlMax := by
  have h1 := rlValue_lt f
  have h2 : 128 ^ f.length ≤ 128 ^ 4 := Nat.pow_le_pow_right (by omega) h
  unfold rlMax
  omega

/-! ### The loop on a given field -/

/-- A field that ends is read to its end (R120). -/
theorem rlLoop_ends {buf r f : Bytes} {lim start passes : Nat} {strict : Bool} {st : RlState} (he : rlEnds f = true)
    (hn : f.length ≤ passes) (hd : buf.drop st.cur = f ++ r) (hl : st.cur + f.length ≤ lim) :
    rlLoop buf lim start strict passes st = .ok (rlAfter st f) := by
  induction f generalizing passes st with
  | nil => cases he
  | cons b f ih =>
    have hb : byteAt buf st.cur = b := byteAt_of_drop hd
    cases passes with
    | zero => simp at hn
    | succ passes =>
      simp only [List.length_cons] at hn hl
      rw [rlLoop, if_neg (by omega), hb, flagAt_seven, rlNext_eq, hb]
      cases f with
      | nil =>
        have he : b.toNat < 128 := of_decide_eq_true he
        rw [if_pos (by simp; omega)]
      | cons c f =>
        simp only [rlEnds, Bool.and_eq_true, decide_eq_true_eq] at he
        simp only [List.length_cons] at hn hl
        rw [if_neg (by simp; omega), if_neg (by omega), ih he.2 (by simp; omega) (drop_succ_of_drop hd)
          (by simp [rlAfter]; omega), rlAfter_cons]

/-- A field that goes on for as many bytes as there are passes: accepted lax, malformed strict (R120, R121). -/
theorem rlLoop_overlong {buf r f : Bytes} {lim start passes : Nat} {strict : Bool} {st : RlState} (hc : allContinue f = true)
    (hn : f.length = passes) (h0 : f ≠ []) (hd : buf.drop st.cur = f ++ r) (hl : st.cur + f.length ≤ lim) :
    rlLoop buf lim start strict passes st =
      if strict then .error ⟨.malformedRemainingLength, start⟩ else .ok (rlAfter st f) := by
  induction f generalizing passes st with
  | nil => exact absurd rfl h0
  | cons b f ih =>
    have hb : byteAt buf st.cur = b := byteAt_of_drop hd
    cases passes with
    | zero => simp at hn
    | succ passes =>
      simp only [List.length_cons] at hn hl
      simp only [allContinue, List.all_cons, Bool.and_eq_true, decide_eq_true_eq] at hc
      rw [rlLoop, if_neg (by omega), hb, flagAt_seven, rlNext_eq, hb, if_neg (by simp; omega)]
      cases f with
      | nil =>
        rw [if_pos (by simp at hn; omega)]
      | cons c f =>
        simp only [List.length_cons] at hn hl
        rw [if_neg (by omega), ih hc.2 (by simp; omega) (by simp) (drop_succ_of_drop hd)
          (by simp [rlAfter]; omega), rlAfter_cons]

/-- A field that the bound cuts off before its end (R120). -/
theorem rlLoop_cut {buf r f : Bytes} {lim start passes : Nat} {strict : Bool} {st : RlState} (hc : allContinue f = true)
    (hn : f.length < passes) (hd : buf.drop st.cur = f ++ r) (hl : st.cur + f.length = lim) :
    rlLoop buf lim start strict passes st = .error ⟨.truncatedInput, start⟩ := by
  induction f generalizing passes st with
  | nil =>
    cases passes with
    | zero => simp at hn
    | succ passes => rw [rlLoop, if_pos (by simp at hl; omega)]
  | cons b f ih =>
    have hb : byteAt buf st.cur = b := byteAt_of_drop hd
    cases passes with
    | zero => simp at hn
    | succ passes =>
      simp only [List.length_cons] at hn hl
      simp only [allContinue, List.all_cons, Bool.and_eq_true, decide_eq_true_eq] at hc
      rw [rlLoop, if_neg (by omega), hb, flagAt_seven, rlNext_eq, hb, if_neg (by simp; omega), if_neg (by omega),
        ih hc.2 (by omega) (drop_succ_of_drop hd) (by simp [rlAfter]; omega)]

/-! ### What the loop has read where it answers, and where it raises -/

theorem rlLoop_ok {buf : Bytes} {lim start passes : Nat} {strict : Bool} {st st' : RlState} (hb : lim ≤ buf.length)
    (hp : 0 < passes) (h : rlLoop buf lim start strict passes st = .ok st') :
    ∃ f, f ≠ [] ∧ f.length ≤ passes ∧ st' = rlAfter st f ∧ st'.cur ≤ lim ∧ buf.drop st.cur = f ++ buf.drop st'.cur ∧
      (rlEnds f = true ∨ (allContinue f = true ∧ f.length = passes ∧ strict = false)) := by
  induction passes generalizing st with
  | zero => omega
  | succ passes ih =>
    rw [rlLoop] at h
    split at h
    · cases h
    · rename_i hlt
      have hdrop : buf.drop st.cur = byteAt buf st.cur :: buf.drop (st.cur + 1) := drop_eq_byteAt_cons (by omega)
      rw [flagAt_seven, rlNext_eq] at h
      split at h
      · rename_i hf
        cases h
        refine ⟨[byteAt buf st.cur], by simp, by simp, rfl, by simp [rlAfter]; omega, hdrop, .inl ?_⟩
        simp at hf
        simp [rlEnds, hf]
      · rename_i hf
        have hf : 128 ≤ (byteAt buf st.cur).toNat := by simpa using hf
        split at h
        · rename_i hp0
          split at h
          · cases h
          · rename_i hs
            cases h
            refine ⟨[byteAt buf st.cur], by simp, by simp, rfl, by simp [rlAfter]; omega, hdrop, .inr ⟨?_, by simp [hp0], by simpa using hs⟩⟩
            simp [allContinue, hf]
        · obtain ⟨f, h1, h2, h3, h4, h5, h6⟩ := ih (by omega) h
          refine ⟨byteAt buf st.cur :: f, by simp, by simp; omega, by rw [h3, rlAfter_cons], h4, ?_, ?_⟩
          · rw [hdrop, List.cons_append, ← h5]
            rfl
          · rcases h6 with h6 | ⟨h6, h7, h8⟩
            · left
              cases f with
              | nil => exact absurd rfl h1
              | cons c f => simp only [rlEnds, h6, Bool.and_true, decide_eq_true_eq]; exact hf
            · right
              refine ⟨?_, by simp [h7], h8⟩
              simp only [allContinue, List.all_cons, Bool.and_eq_true, decide_eq_true_eq]
              exact ⟨hf, h6⟩

/-- Everything `RL_DEC` has read where it answers a value (R120, R125). -/
theorem rlDec_ok {buf : Bytes} {cur lim : Nat} {strict : Bool} {st : RlState} (hb : lim ≤ buf.length)
    (h : rlDec buf cur lim strict = .ok st) :
    ∃ f, f ≠ [] ∧ f.length ≤ 4 ∧ st.cur = cur + f.length ∧ st.acc = rlValue f ∧ st.cur ≤ lim ∧
      buf.drop cur = f ++ buf.drop st.cur ∧
      (rlEnds f = true ∨ (allContinue f = true ∧ f.length = 4 ∧ strict = false)) := by
  obtain ⟨f, h1, h2, h3, h4, h5, h6⟩ := rlLoop_ok hb (by omega) h
  exact ⟨f, h1, h2, by rw [h3]; rfl, by rw [h3]; simp [rlAfter], h4, h5, h6⟩

theorem rlLoop_error {buf : Bytes} {lim start passes : Nat} {strict : Bool} {st : RlState} {e : Err}
    (h : rlLoop buf lim start strict passes st = .error e) :
    e = ⟨.truncatedInput, start⟩ ∨ (e = ⟨.malformedRemainingLength, start⟩ ∧ strict = true) := by
  induction passes generalizing st with
  | zero => cases h
  | succ passes ih =>
    rw [rlLoop] at h
    split at h
    · cases h; exact .inl rfl
    · split at h
      · cases h
      · split at h
        · split at h
          · cases h
            exact .inr ⟨rfl, by assumption⟩
          · cases h
        · exact ih h

/-- `RL_DEC` raises at the field's first byte (R120). -/
theorem rlDec_error {buf : Bytes} {cur lim : Nat} {strict : Bool} {e : Err} (h : rlDec buf cur lim strict = .error e) :
    e = ⟨.truncatedInput, cur⟩ ∨ (e = ⟨.malformedRemainingLength, cur⟩ ∧ strict = true) := rlLoop_error h

theorem rlDec_ends {buf r f : Bytes} {cur lim : Nat} {strict : Bool} (he : rlEnds f = true) (hn : f.length ≤ 4)
    (hd : buf.drop cur = f ++ r) (hl : cur + f.length ≤ lim) :
    rlDec buf cur lim strict = .ok ⟨cur + f.length, rlValue f, 128 ^ f.length, f.length⟩ := by
  rw [rlDec, rlLoop_ends he hn hd hl]
  simp [rlAfter]

theorem rlDec_overlong {buf r f : Bytes} {cur lim : Nat} {strict : Bool} (hc : allContinue f = true) (hn : f.length = 4)
    (hd : buf.drop cur = f ++ r) (hl : cur + 4 ≤ lim) :
    rlDec buf cur lim strict =
      if strict then .error ⟨.malformedRemainingLength, cur⟩ else .ok ⟨cur + 4, rlValue f, 128 ^ 4, 4⟩ := by
  have h0 : f ≠ [] := by rintro rfl; simp at hn
  rw [rlDec, rlLoop_overlong hc hn h0 hd (by rw [hn]; exact hl)]
  simp [rlAfter, hn]

theorem rlDec_cut {buf r f : Bytes} {cur lim : Nat} {strict : Bool} (hc : allContinue f = true) (hn : f.length < 4)
    (hd : buf.drop cur = f ++ r) (hl : cur + f.length = lim) :
    rlDec buf cur lim strict = .error ⟨.truncatedInput, cur⟩ := by
  rw [rlDec, rlLoop_cut hc hn hd hl]

/-! ### The encoder's field -/

/-- The encoder's field: it ends, its value is the operand, and it is as short as the operand allows (R122, R124). -/
theorem rlDigits_spec (passes x : Nat) (h : x < 128 ^ (passes + 1)) :
    rlEnds (rlDigits passes x) = true ∧ rlValue (rlDigits passes x) = x ∧ (rlDigits passes x).length ≤ passes + 1 ∧
      ∀ n, 0 < n → x < 128 ^ n → (rlDigits passes x).length ≤ n := by
  induction passes generalizing x with
  | zero =>
    rw [rlDigits, if_neg (by omega)]
    refine ⟨?_, ?_, by simp, fun n hn _ => by simp; omega⟩
    · simp only [rlEnds, BitVec.toNat_ofNat, decide_eq_true_eq]; omega
    · simp only [rlValue, BitVec.toNat_ofNat]; omega
  | succ passes ih =>
    rw [rlDigits]
    split
    · rename_i hx
      have hlt : x / 128 < 128 ^ (passes + 1) := Nat.div_lt_of_lt_mul (by rw [pow_succ] at h; omega)
      obtain ⟨h1, h2, h3, h4⟩ := ih (x / 128) hlt
      refine ⟨?_, ?_, by simp; omega, fun n hn hxn => ?_⟩
      · cases hd : rlDigits passes (x / 128) with
        | nil => rw [hd] at h1; cases h1
        | cons c f =>
          rw [rlEnds, ← hd, h1, Bool.and_true]
          simp only [BitVec.toNat_ofNat, decide_eq_true_eq]
          omega
      · rw [rlValue, h2]
        simp only [BitVec.toNat_ofNat]
        omega
      · cases n with
        | zero => omega
        | succ n =>
          cases n with
          | zero => rw [zero_add, pow_one] at hxn; omega
          | succ n =>
            have := h4 (n + 1) (by omega) (Nat.div_lt_of_lt_mul (by rw [pow_succ] at hxn; omega))
            simp; omega
    · refine ⟨?_, ?_, by simp, fun n hn _ => by simp; omega⟩
      · simp only [rlEnds, BitVec.toNat_ofNat, decide_eq_true_eq]; omega
      · simp only [rlValue, BitVec.toNat_ofNat]; omega

theorem rlDigits_ne_nil {passes x : Nat} (h : x < 128 ^ (passes + 1)) : rlDigits passes x ≠ [] := by
  intro he
  have := (rlDigits_spec passes x h).1
  rw [he] at this
  cases this

/-- The length of the encoder's field is the table of R124. -/
theorem rlDigits_length (x : Nat) (h : x ≤ rlMax) :
    (rlDigits 3 x).length = if x ≤ 127 then 1 else if x ≤ 16383 then 2 else if x ≤ 2097151 then 3 else 4 := by
  have hx : x < 128 ^ (3 + 1) := by unfold rlMax at h; omega
  obtain ⟨_, h2, h3, h4⟩ := rlDigits_spec 3 x hx
  have h0 := List.length_pos_of_ne_nil (rlDigits_ne_nil hx)
  have hlt := rlValue_lt (rlDigits 3 x)
  rw [h2] at hlt
  have key : ∀ n, (rlDigits 3 x).length ≤ n → x < 128 ^ n := fun n hn =>
    Nat.lt_of_lt_of_le hlt (Nat.pow_le_pow_right (by omega) hn)
  split
  · have := h4 1 (by omega) (by omega); omega
  · have k1 : ¬ (rlDigits 3 x).length ≤ 1 := fun h => by have := key 1 h; omega
    split
    · have := h4 2 (by omega) (by omega); omega
    · have k2 : ¬ (rlDigits 3 x).length ≤ 2 := fun h => by have := key 2 h; omega
      split
      · have := h4 3 (by omega) (by omega); omega
      · have k3 : ¬ (rlDigits 3 x).length ≤ 3 := fun h => by have := key 3 h; omega
        omega

theorem rlEnc_ok {x : Nat} (h : x ≤ rlMax) : rlEnc x = .ok (rlDigits 3 x) := by rw [rlEnc, if_neg (by omega)]

theorem rlEnc_raise {x : Nat} (h : rlMax < x) : rlEnc x = .error (.raise .lengthOutOfRange) := by rw [rlEnc, if_pos h]

/-- Everything the encoder can do. -/
theorem rlEnc_spec {x : Nat} {f : Bytes} (h : rlEnc x = .ok f) :
    x ≤ rlMax ∧ rlEnds f = true ∧ rlValue f = x ∧ f.length ≤ 4 ∧ f = rlDigits 3 x ∧ ∀ n, 0 < n → x < 128 ^ n → f.length ≤ n := by
  unfold rlEnc at h
  split at h
  · cases h
  · rename_i hx
    cases h
    have hlt : x < 128 ^ (3 + 1) := by unfold rlMax at hx; omega
    obtain ⟨h1, h2, h3, h4⟩ := rlDigits_spec 3 x hlt
    exact ⟨by omega, h1, h2, h3, rfl, h4⟩

/-! ### Fields as numbers -/

/-- Two fields that end, of one length and one value, are one field. -/
theorem rlEnds_inj {f g : Bytes} (hf : rlEnds f = true) (hg : rlEnds g = true) (hl : f.length = g.length)
    (hv : rlValue f = rlValue g) : f = g := by
  induction f generalizing g with
  | nil => cases hf
  | cons b f ih =>
    cases g with
    | nil => cases hg
    | cons c g =>
      simp only [rlValue] at hv
      have hb := b.isLt
      have hc := c.isLt
      cases f with
      | nil =>
        cases g with
        | nil =>
          simp only [rlEnds, decide_eq_true_eq] at hf hg
          simp only [rlValue] at hv
          rw [BitVec.eq_of_toNat_eq (x := b) (y := c) (by omega)]
        | cons d g => simp at hl
      | cons d f =>
        cases g with
        | nil => simp at hl
        | cons e g =>
          simp only [rlEnds, Bool.and_eq_true, decide_eq_true_eq] at hf hg
          rw [ih hf.2 hg.2 (by simpa using hl) (by omega), BitVec.eq_of_toNat_eq (x := b) (y := c) (by omega)]

/-- The last byte of a field that ends, and what it says about the value. -/
theorem rlEnds_last {f : Bytes} (hf : rlEnds f = true) :
    (f.getD (f.length - 1) 0).toNat < 128 ∧
    (f.getD (f.length - 1) 0 ≠ 0 → 128 ^ (f.length - 1) ≤ rlValue f) ∧
    (f.getD (f.length - 1) 0 = 0 → rlValue f < 128 ^ (f.length - 1)) := by
  induction f with
  | nil => cases hf
  | cons b f ih =>
    cases f with
    | nil =>
      simp only [rlEnds, decide_eq_true_eq] at hf
      refine ⟨by simpa using hf, fun h => ?_, fun h => ?_⟩
      · have h : b ≠ 0 := h
        have : b.toNat ≠ 0 := fun h0 => h (BitVec.eq_of_toNat_eq h0)
        simp [rlValue]; omega
      · have h : b = 0 := h
        subst h
        simp [rlValue]
    | cons c f =>
      simp only [rlEnds, Bool.and_eq_true, decide_eq_true_eq] at hf
      obtain ⟨h1, h2, h3⟩ := ih hf.2
      have e : (b :: c :: f).getD ((b :: c :: f).length - 1) 0 = (c :: f).getD ((c :: f).length - 1) 0 := by simp
      have e2 : (b :: c :: f).length - 1 = ((c :: f).length - 1) + 1 := by simp
      rw [e, e2, pow_succ, show rlValue (b :: c :: f) = b.toNat % 128 + 128 * rlValue (c :: f) from rfl]
      refine ⟨h1, fun h => ?_, fun h => ?_⟩
      · have := h2 h; omega
      · have := h3 h; omega

theorem allContinue_last {f : Bytes} (hf : allContinue f = true) (h0 : f ≠ []) : 128 ≤ (f.getD (f.length - 1) 0).toNat := by
  simp only [allContinue, List.all_eq_true, decide_eq_true_eq] at hf
  have hlen := List.length_pos_of_ne_nil h0
  apply hf
  rw [List.getD_eq_getElem _ _ (by omega)]
  exact List.getElem_mem _

end Sys2Proof.Machine
end

