-- ==== Sys2Proof/Laws/FixedHeader.lean ====
section
/-! SUPPORT. What the fixed-header decoder and encoder can do, said once over the bytes of the header (R131, R132). -/

namespace Sys2Proof.Machine

/-- `FH_DEC` where a legal header stands at offset 0 and the body is there. -/
theorem fhDec_at {tc : List Tag} {strict : Bool} {buf : Bytes} {t : Tag} {b0 : Byte} {f r : Bytes} (hb : buf = b0 :: (f ++ r))
    (ht : lookupTag tc (headerCode b0) = some t) (hq : (headerFlags b0).qos ≠ 3) (he : rlEnds f = true) (hn : f.length ≤ 4)
    (hl : rlValue f ≤ r.length) : fhDec tc strict buf = .ok ⟨t, headerFlags b0, 1 + f.length, rlValue f⟩ := by
  have hlen : buf.length = 1 + f.length + r.length := by rw [hb]; simp; omega
  have h0 : byteAt buf 0 = b0 := by rw [hb]; rfl
  have hrl : rlDec buf 1 buf.length strict = _ := rlDec_ends (r := r) he hn (by rw [hb]; rfl) (by omega)
  rw [fhDec, if_neg (by omega)]
  simp only [h0, ht, hq, if_false, hrl]
  rw [if_neg (by omega)]

/-- The same, for every field `FH_DEC` accepts: also the one that `RL_STRICT` = 0 cuts after a 4th byte with bit 7 set (R120). -/
theorem fhDec_of {tc : List Tag} {strict : Bool} {buf : Bytes} {t : Tag} {b0 : Byte} {f r : Bytes} (hb : buf = b0 :: (f ++ r))
    (ht : lookupTag tc (headerCode b0) = some t) (hq : (headerFlags b0).qos ≠ 3)
    (hf : (rlEnds f = true ∧ f.length ≤ 4) ∨ (allContinue f = true ∧ f.length = 4 ∧ strict = false))
    (hl : rlValue f ≤ r.length) : fhDec tc strict buf = .ok ⟨t, headerFlags b0, 1 + f.length, rlValue f⟩ := by
  rcases hf with ⟨he, hn⟩ | ⟨hc, h4, hs⟩
  · exact fhDec_at hb ht hq he hn hl
  · have hlen : buf.length = 1 + f.length + r.length := by rw [hb]; simp; omega
    have h0 : byteAt buf 0 = b0 := by rw [hb]; rfl
    have hrl : rlDec buf 1 buf.length strict = _ := rlDec_overlong (r := r) hc h4 (by rw [hb]; rfl) (by omega)
    subst hs
    rw [fhDec, if_neg (by omega)]
    simp only [h0, ht, hq, if_false, hrl, Bool.false_eq_true]
    rw [if_neg (by omega), h4]

/-- Everything `FH_DEC` has read where it answers a header. -/
theorem fhDec_ok {tc : List Tag} {strict : Bool} {buf : Bytes} {hd : Header} (h : fhDec tc strict buf = .ok hd) :
    ∃ b0 f r, buf = b0 :: (f ++ r) ∧ lookupTag tc (headerCode b0) = some hd.tag ∧ hd.flags = headerFlags b0 ∧
      hd.flags.qos ≠ 3 ∧ hd.h = 1 + f.length ∧ hd.n = rlValue f ∧ hd.n ≤ r.length ∧ f ≠ [] ∧ f.length ≤ 4 ∧
      (rlEnds f = true ∨ (allContinue f = true ∧ f.length = 4 ∧ strict = false)) := by
  unfold fhDec at h
  split at h
  · cases h
  · rename_i hlen
    split at h
    · cases h
    · rename_i t ht
      split at h
      · cases h
      · rename_i hq
        split at h
        · cases h
        · rename_i rl hrl
          split at h
          · cases h
          · rename_i hn
            cases h
            obtain ⟨f, f0, f4, hcur, hacc, hlim, hdrop, hf⟩ := rlDec_ok (Nat.le_refl _) hrl
            have hb : buf = byteAt buf 0 :: buf.drop 1 := by
              have := drop_eq_byteAt_cons (buf := buf) (cur := 0) (by omega)
              simpa using this
            refine ⟨byteAt buf 0, f, buf.drop rl.cur, ?_, ht, rfl, hq, hcur, hacc, by simp; omega, f0, f4, hf⟩
            rw [← hdrop]
            exact hb

/-- The header and the body it announces lie inside the buffer (R28, R131). -/
theorem fhDec_bounds {tc : List Tag} {strict : Bool} {buf : Bytes} {hd : Header} (h : fhDec tc strict buf = .ok hd) :
    2 ≤ hd.h ∧ hd.h ≤ 5 ∧ hd.n ≤ rlMax ∧ hd.h + hd.n ≤ buf.length := by
  obtain ⟨b0, f, r, hb, _, _, _, h1, h2, h3, f0, f4, _⟩ := fhDec_ok h
  have := List.length_pos_of_ne_nil f0
  have := rlValue_le f f4
  refine ⟨by omega, by omega, by omega, ?_⟩
  rw [hb]
  simp
  omega

/-- The position of every error of `FH_DEC` lies inside the buffer (R37). -/
theorem fhDec_error {tc : List Tag} {strict : Bool} {buf : Bytes} {e : Err} (h : fhDec tc strict buf = .error e) :
    e.pos ≤ buf.length ∧ e.pos ≤ 5 := by
  unfold fhDec at h
  split at h
  · cases h; exact ⟨Nat.zero_le _, Nat.zero_le _⟩
  · rename_i hlen
    split at h
    · cases h; exact ⟨Nat.zero_le _, Nat.zero_le _⟩
    · split at h
      · cases h; exact ⟨Nat.zero_le _, Nat.zero_le _⟩
      · split at h
        · rename_i hrl
          cases h
          rcases rlDec_error hrl with rfl | ⟨rfl, _⟩
          · exact ⟨show 1 ≤ _ by omega, show 1 ≤ 5 by omega⟩
          · exact ⟨show 1 ≤ _ by omega, show 1 ≤ 5 by omega⟩
        · rename_i rl hrl
          split at h
          · cases h
            obtain ⟨f, f0, f4, hcur, hacc, hlim, hdrop, hf⟩ := rlDec_ok (Nat.le_refl _) hrl
            exact ⟨hlim, show rl.cur ≤ 5 by omega⟩
          · cases h

theorem fhEnc_ok {tc : List Tag} {t : Tag} {fl : Hdr} {body im : Bytes} (h : fhEnc tc t fl body = .ok im) :
    body.length ≤ rlMax ∧ im = headerByte (lookupCode tc t) fl :: (rlDigits 3 body.length ++ body) := by
  unfold fhEnc at h
  obtain ⟨f, hf, he⟩ := except_bind_ok.1 h
  obtain ⟨h1, _, _, _, h2, _⟩ := rlEnc_spec hf
  cases he
  exact ⟨h1, by rw [h2]⟩

theorem fhEnc_of_le {tc : List Tag} {t : Tag} {fl : Hdr} {body : Bytes} (h : body.length ≤ rlMax) :
    fhEnc tc t fl body = .ok (headerByte (lookupCode tc t) fl :: (rlDigits 3 body.length ++ body)) := by
  rw [fhEnc, rlEnc_ok h]
  rfl

end Sys2Proof.Machine
end

