-- ==== Sys2Proof/Laws/Commands.lean ====
section
/-! SUPPORT. What a command can do, said once: the pure functions decode and encode, the two commands, and a step. -/

namespace Sys2Proof.Machine

/-! ### decode -/

theorem decodePacket_ok {b : Build} {strict : Bool} {buf : Bytes} {p : Pkt} {n : Nat} (h : decodePacket b strict buf = .ok (p, n)) :
    ∃ hd cur, fhDec b.typeCode strict buf = .ok hd ∧
      bodyDec b hd.tag buf hd.h (hd.h + hd.n) hd.flags.qos (shadowOf b.typeCode hd) = .ok (cur, p) ∧ n = hd.h + hd.n ∧
      n ≤ buf.length := by
  obtain ⟨hd, h1, h⟩ := except_bind_ok.1 h
  obtain ⟨⟨cur, p'⟩, h2, h⟩ := except_bind_ok.1 h
  cases h
  exact ⟨hd, cur, h1, h2, rfl, (fhDec_bounds h1).2.2.2⟩

theorem decodePacket_error {b : Build} {strict : Bool} {buf : Bytes} {e : Err} (h : decodePacket b strict buf = .error e) :
    e.pos ≤ buf.length := by
  rcases except_bind_error.1 h with h | ⟨hd, h1, h⟩
  · exact (fhDec_error h).1
  · have hb := (fhDec_bounds h1).2.2.2
    rcases except_bind_error.1 h with h | ⟨_, _, h⟩
    · exact Nat.le_trans (bodyDec_error hb (by omega) h) hb
    · cases h

/-! ### encode -/

theorem encodeChecked_ok {b : Build} {t : Tag} {p : Pkt} {im : Bytes} (h : encodeChecked b t p = .ok im) :
    ∃ body, bodyEnc b t p = .ok body ∧ body.length ≤ rlMax ∧ im.length ≤ b.obCap ∧
      im = headerByte (lookupCode b.typeCode t) ⟨p.dup, p.qos, p.retain⟩ :: (rlDigits 3 body.length ++ body) := by
  obtain ⟨body, h1, h⟩ := except_bind_ok.1 h
  split at h
  · cases h
  · obtain ⟨image, h2, h⟩ := except_bind_ok.1 h
    obtain ⟨h3, h4⟩ := fhEnc_ok h2
    split at h
    · cases h
    · rename_i hlen
      cases h
      exact ⟨body, h1, h3, by omega, h4⟩

theorem encodePacket_ok {b : Build} {p : Pkt} {im : Bytes} (h : encodePacket b p = .ok im) :
    ∃ c t, p.ptype = some c ∧ lookupTag b.typeCode c = some t ∧ p.qos ≠ 3 ∧ reqOk t p = true ∧ encodeChecked b t p = .ok im := by
  unfold encodePacket at h
  split at h
  · cases h
  · rename_i c hc
    split at h
    · cases h
    · rename_i t ht
      split at h
      · cases h
      · rename_i hq
        obtain ⟨_, h1, h2⟩ := except_bind_ok.1 h
        unfold reqCheck at h1
        split at h1
        · rename_i hr
          exact ⟨c, t, hc, ht, hq, hr, h2⟩
        · cases h1

theorem encodePacket_eq {b : Build} {p : Pkt} {c : BitVec 4} {t : Tag} (hc : p.ptype = some c) (ht : lookupTag b.typeCode c = some t)
    (hq : p.qos ≠ 3) (hr : reqOk t p = true) : encodePacket b p = encodeChecked b t p := by
  unfold encodePacket
  rw [hc]
  simp only [ht]
  rw [if_neg hq, reqCheck, if_pos hr]
  rfl

theorem encodePacket_length {b : Build} {p : Pkt} {im : Bytes} (h : encodePacket b p = .ok im) :
    im.length ≤ b.obCap ∧ im.length ≤ packetMax := by
  obtain ⟨c, t, _, _, _, _, h⟩ := encodePacket_ok h
  obtain ⟨body, _, h1, h2, h3⟩ := encodeChecked_ok h
  refine ⟨h2, ?_⟩
  have := (rlEnc_spec (rlEnc_ok h1)).2.2.2.1
  rw [h3]
  simp only [List.length_cons, List.length_append]
  unfold rlMax at h1
  unfold packetMax
  omega

/-- An encode reads no invalid register: what it needs is checked first (R22, R171). -/
theorem encodePacket_not_invalid (b : Build) (p : Pkt) : encodePacket b p ≠ .error .invalidRegister := by
  intro h
  unfold encodePacket at h
  split at h
  · cases h
  · split at h
    · cases h
    · split at h
      · cases h
      · rcases except_bind_error.1 h with h | ⟨_, h1, h⟩
        · unfold reqCheck at h
          split at h <;> cases h
        · unfold reqCheck at h1
          split at h1
          · rename_i hr
            rcases except_bind_error.1 h with h | ⟨_, _, h⟩
            · exact bodyEnc_not_invalid hr h
            · split at h
              · cases h
              · rcases except_bind_error.1 h with h | ⟨_, _, h⟩
                · rcases except_bind_error.1 h with h | ⟨_, _, h⟩
                  · unfold rlEnc at h
                    split at h <;> cases h
                  · cases h
                · split at h <;> cases h
          · cases h1

/-! ### The commands -/

/-- Everything a DECODE can do (R193, R240). -/
theorem execDecode_cases (s : State) :
    (s.busy = true ∧ execDecode s = .next s) ∨
    (s.busy = false ∧ s.build.ibCap < s.ibLen.toNat ∧ execDecode s = .fault .inputBeyondBuffer) ∨
    (s.busy = false ∧ s.ibLen.toNat ≤ s.build.ibCap ∧
      ((∃ p n, decodePacket s.build s.strict s.input = .ok (p, n) ∧ execDecode s = .next (s.commitDecode p n)) ∨
        ∃ e, decodePacket s.build s.strict s.input = .error e ∧ execDecode s = .next (s.enterError true e))) := by
  unfold execDecode
  cases hb : s.busy with
  | true => exact .inl ⟨rfl, rfl⟩
  | false =>
    right
    rw [if_neg (by simp)]
    by_cases hl : s.ibLen.toNat ≤ s.build.ibCap
    · right
      refine ⟨rfl, hl, ?_⟩
      rw [if_pos (State.inputOk_iff.2 ⟨Nat.le_refl _, hl⟩), State.startCommand_runDecode, State.runDecode]
      cases hd : decodePacket s.build s.strict s.input with
      | ok r => exact .inl ⟨r.1, r.2, rfl, rfl⟩
      | error e => exact .inr ⟨e, rfl, rfl⟩
    · left
      refine ⟨rfl, by omega, ?_⟩
      rw [if_neg (fun h => hl (State.inputOk_iff.1 h).2)]

/-- Everything an ENCODE can do (R193, R240). -/
theorem execEncode_cases (s : State) :
    (s.busy = true ∧ execEncode s = .next s) ∨
    (s.busy = false ∧
      ((∃ im, encodePacket s.build s.pkt = .ok im ∧ execEncode s = .next (s.commitEncode im)) ∨
        ∃ k, encodePacket s.build s.pkt = .error (.raise k) ∧ execEncode s = .next (s.enterError false ⟨k, 0⟩))) := by
  unfold execEncode
  cases hb : s.busy with
  | true => exact .inl ⟨rfl, rfl⟩
  | false =>
    right
    refine ⟨rfl, ?_⟩
    rw [if_neg (by simp), State.startCommand_runEncode, State.runEncode]
    cases hd : encodePacket s.build s.pkt with
    | ok im => exact .inl ⟨im, rfl, rfl⟩
    | error e =>
      cases e with
      | raise k => exact .inr ⟨k, rfl, rfl⟩
      | invalidRegister => exact absurd hd (encodePacket_not_invalid _ _)

/-- Everything a step can do (R17, R34): nothing without a `CMD` write, else one of the two commands. -/
theorem step_cases {s t : State} (h : step s = .next t) :
    (s.cmd = none ∧ t = s) ∨ (s.cmd = some 1 ∧ execDecode s.takeCommand = .next t) ∨
      (s.cmd = some 2 ∧ execEncode s.takeCommand = .next t) := by
  unfold step State.fetch at h
  rcases hc : s.cmd with _ | c
  · rw [hc] at h
    cases h
    exact .inl ⟨rfl, rfl⟩
  · rw [hc] at h
    right
    simp only [Option.map_some] at h
    have hcs : ∀ c : BitVec 2, c = 0 ∨ c = 1 ∨ c = 2 ∨ c = 3 := by decide
    rcases hcs c with rfl | rfl | rfl | rfl
    · cases h
    · exact .inl ⟨rfl, h⟩
    · exact .inr ⟨rfl, h⟩
    · cases h

end Sys2Proof.Machine
end

