-- ==== Sys2Proof/Laws/Packet.lean ====
section
/-! SUPPORT. The register file and the Packet (R26): when `packetOf` is defined, that the register file of a well-formed Packet is read back as it, and what a body decoder leaves in the shadow as a Packet's registers. -/

namespace Sys2Proof.Machine

/-- When the register file holds a Packet (R26). -/
theorem packetOf_iff {b : Build} {p : Pkt} {q : Packet} : packetOf b p = some q ↔
    ∃ c body, p.ptype = some c ∧ lookupTag b.typeCode c = some q.tag ∧ p.qos ≠ 3 ∧ reqOk q.tag p = true ∧
      bodyOf q.tag p = some body ∧ q = ⟨q.tag, p.dup, p.qos, p.retain, body⟩ := by
  unfold packetOf
  constructor
  · intro h
    simp only [Option.bind_eq_bind, Option.bind_eq_some_iff] at h
    obtain ⟨c, hc, t, ht, h⟩ := h
    split at h
    · rename_i hr
      obtain ⟨body, hb, h⟩ := Option.bind_eq_some_iff.1 h
      cases h
      exact ⟨c, body, hc, ht, hr.1, hr.2, hb, rfl⟩
    · cases h
  · rintro ⟨c, body, hc, ht, hq, hr, hb, he⟩
    rw [hc]
    simp only [Option.bind_eq_bind, Option.bind_some, ht]
    rw [if_pos ⟨hq, hr⟩, hb, he]
    rfl

/-- The register file of a well-formed Packet is read back as that Packet (R26). -/
theorem packetOf_regs {b : Build} {q : Packet} (hb : b.wf = true) (hq : q.wf = true) : packetOf b (q.regs b) = some q := by
  have htc : typeCodeWf b.typeCode = true := by
    simp only [Build.wf, Bool.and_eq_true] at hb; exact hb.1.1.1
  have hlt := lookupTag_lookupCode htc q.tag
  obtain ⟨t, d, qq, r, body⟩ := q
  unfold Packet.wf at hq
  rw [Bool.and_eq_true] at hq
  obtain ⟨h3, hq⟩ := hq
  have hqos : qq ≠ 3 := by simpa using h3
  rw [packetOf_iff]
  have hreg : ∀ body', (Packet.regs b ⟨t, d, qq, r, body'⟩).ptype = some (lookupCode b.typeCode t) := by intro b'; cases b' <;> rfl
  have hreq : ∀ body', (Packet.regs b ⟨t, d, qq, r, body'⟩).qos = qq := by intro b'; cases b' <;> rfl
  refine ⟨lookupCode b.typeCode t, body, hreg _, hlt, by rw [hreq]; exact hqos, ?_⟩
  cases t <;> cases body <;> dsimp only at hq <;> try (cases hq; done)
  case connect.connect n v c k i w u pw => 
    cases w <;> exact ⟨rfl, rfl, rfl⟩
  case publish.publish tt m pl =>
    simp only [Bool.and_eq_true, beq_iff_eq] at hq
    by_cases h0 : qq = 0
    · subst h0
      have : m = none := by
        have := hq.2
        simpa using this
      subst this
      exact ⟨rfl, rfl, rfl⟩
    · have : m.isSome = true := by
        have := hq.2
        rw [this]; simpa using h0
      obtain ⟨m, rfl⟩ := Option.isSome_iff_exists.1 this
      refine ⟨by simp [reqOk, Packet.regs], ?_, rfl⟩
      change some (Body.publish tt (if qq = 0 then none else some m) pl) = some (Body.publish tt (some m) pl)
      rw [if_neg h0]
  all_goals exact ⟨rfl, rfl, rfl⟩

theorem textWf_of {t : Text} (h1 : t.length ≤ textMax) (h2 : utf8Ok t = true) : textWf t = true := by simp [textWf, h1, h2]
theorem textFits_of {t : Text} (h1 : t.length ≤ textMax) : textFits t = true := by simp [textFits, h1]

/-- A connect body decoded, as a Packet. -/
theorem bdConnect_ok {b : Build} {d r : Bool} {qq : BitVec 2} {buf : Bytes} {cur lim cur' : Nat} {p' : Pkt} (hb : lim ≤ buf.length) (hq : qq ≠ 3)
    (h : bdConnect buf cur lim { Pkt.empty with ptype := some (lookupCode b.typeCode .connect), dup := d, qos := qq, retain := r } = .ok (cur', p')) :
    ∃ body, cur' ≤ lim ∧ (⟨.connect, d, qq, r, body⟩ : Packet).wf = true ∧ p' = Packet.regs b ⟨.connect, d, qq, r, body⟩ ∧ p'.fits b.listCap = true ∧
      ∃ bs, beConnect p' = .ok bs ∧ cur + bs.length ≤ cur' := by
  obtain ⟨⟨name, c1⟩, h1, h⟩ := except_bind_ok.1 h
  obtain ⟨⟨ver, c2⟩, h2, h⟩ := except_bind_ok.1 h
  obtain ⟨⟨f, c3⟩, h3, h⟩ := except_bind_ok.1 h
  obtain ⟨⟨ka, c4⟩, h4, h⟩ := except_bind_ok.1 h
  obtain ⟨⟨cid, c5⟩, h5, h⟩ := except_bind_ok.1 h
  obtain ⟨⟨c6, p6⟩, h6, h⟩ := except_bind_ok.1 h
  obtain ⟨⟨c7, p7⟩, h7, h⟩ := except_bind_ok.1 h
  change decPassword (cfDec f) buf c7 lim p7 = _ at h
  obtain ⟨a1, a2, a3, a4, _⟩ := decText_ok hb h1
  obtain ⟨b1, b2, _⟩ := decByte_ok hb h2
  obtain ⟨d1, d2, _⟩ := decByte_ok hb h3
  obtain ⟨e1, e2, _⟩ := decWord_ok hb h4
  obtain ⟨f1, f2, f3, f4, _⟩ := decText_ok hb h5
  obtain ⟨g1, g⟩ := decWill_ok hb f2 h6
  obtain ⟨i1, i⟩ := decUsername_ok hb g1 h7
  obtain ⟨j1, j⟩ := decPassword_ok hb i1 h
  have hww : ∃ will : Option Will, p6 = { Pkt.empty with ptype := some (lookupCode b.typeCode .connect), dup := d, qos := qq, retain := r, protoName := some name, protoVer := some ver, cleanSession := some (cfDec f).cs, keepAlive := some ka, clientId := some cid, willTopic := will.map (·.topic), willMessage := will.map (·.message), willQos := will.map (·.qos), willRetain := will.map (·.retain) } ∧
      (∀ w, will = some w → TextOk w.topic ∧ TextOk w.message) ∧ c6 = c5 + (if will.isSome then (2 + ((will.map (·.topic)).getD []).length) + (2 + ((will.map (·.message)).getD []).length) else 0) := by
    rcases g with ⟨_, k1, k2⟩ | ⟨t, m, _, k1, k2, k3, k4, k5, k6⟩
    · exact ⟨none, k2, by simp, by simp [k1]⟩
    · refine ⟨some ⟨t, m, (cfDec f).wq, (cfDec f).wr⟩, k6, ?_, by simp [k5]; omega⟩
      rintro w h; cases h; exact ⟨⟨k1, k2⟩, ⟨k3, k4⟩⟩
  obtain ⟨will, w1, w2, w3⟩ := hww
  have huu : ∃ un : Option Text, p7 = { p6 with username := un } ∧ (∀ t, un = some t → TextOk t) ∧ c7 = c6 + (if un.isSome then 2 + (un.getD []).length else 0) := by
    rcases i with ⟨_, k1, k2⟩ | ⟨t, _, k1, k2, k3, k4⟩
    · exact ⟨none, by rw [k2, w1]; rfl, by simp, by simp [k1]⟩
    · refine ⟨some t, k4, ?_, by simp [k3]; omega⟩
      rintro w h; cases h; exact ⟨k1, k2⟩
  obtain ⟨un, u1, u2, u3⟩ := huu
  have hpp : ∃ pw : Option Text, p' = { p7 with password := pw } ∧ (∀ t, pw = some t → TextOk t) ∧ cur' = c7 + (if pw.isSome then 2 + (pw.getD []).length else 0) := by
    rcases j with ⟨_, k1, k2⟩ | ⟨t, _, k1, k2, k3, k4⟩
    · exact ⟨none, by rw [k2, u1, w1]; rfl, by simp, by simp [k1]⟩
    · refine ⟨some t, k4, ?_, by simp [k3]; omega⟩
      rintro w h; cases h; exact ⟨k1, k2⟩
  obtain ⟨pw, p1, p2, p3⟩ := hpp
  refine ⟨.connect name ver (cfDec f).cs ka cid will un pw, j1, ?_, by rw [p1, u1, w1]; rfl, ?_, ?_⟩
  · unfold Packet.wf
    rw [Bool.and_eq_true]
    refine ⟨by simpa using hq, ?_⟩
    simp only [Bool.and_eq_true, Option.all_eq_true]
    exact ⟨⟨⟨⟨textWf_of a3 a4, textWf_of f3 f4⟩, fun w hw => ⟨textWf_of (w2 w hw).1.1 (w2 w hw).1.2, textWf_of (w2 w hw).2.1 (w2 w hw).2.2⟩⟩, fun t ht => textWf_of (u2 t ht).1 (u2 t ht).2⟩, fun t ht => textWf_of (p2 t ht).1 (p2 t ht).2⟩
  · rw [p1, u1, w1]
    simp only [Pkt.fits, Pkt.empty, Bool.and_eq_true, Option.all_some, Option.all_none, and_true]
    refine ⟨⟨⟨⟨⟨textFits_of a3, textFits_of f3⟩, ?_⟩, ?_⟩, ?_⟩, ?_⟩
    · cases will with
      | none => rfl
      | some w => exact textFits_of (w2 w rfl).1.1
    · cases will with
      | none => rfl
      | some w => exact textFits_of (w2 w rfl).2.1
    · cases un with
      | none => rfl
      | some w => exact textFits_of (u2 w rfl).1
    · cases pw with
      | none => rfl
      | some w => exact textFits_of (p2 w rfl).1
  · have hreq : reqOk .connect p' = true := by
      rw [p1, u1, w1]; cases will <;> rfl
    obtain ⟨cs, _, fl, hfl, l1, l2, l3, _⟩ := cfDerive_of_req hreq
    obtain ⟨q7, q6, _, _, q2, _⟩ := cfEnc_bits fl
    have hpu : p'.username = un := by rw [p1, u1]
    have hpp : p'.password = pw := by rw [p1]
    have hpt : p'.willTopic = will.map (·.topic) := by rw [p1, u1, w1]
    have hpm : p'.willMessage = will.map (·.message) := by rw [p1, u1, w1]
    have hpw : willPresent p' = will.isSome := by rw [willPresent, hpt, hpm]; cases will <;> rfl
    refine ⟨_, beConnect_of (name := name) (ver := ver) (ka := ka) (cid := cid) hreq hfl (by rw [p1, u1, w1]) (by rw [p1, u1, w1]) (by rw [p1, u1, w1]) (by rw [p1, u1, w1]) ?_, ?_⟩
    · simp only [List.mem_cons, List.not_mem_nil, or_false, forall_eq_or_imp, forall_eq, hpu, hpp, hpt, hpm]
      refine ⟨⟨a3, a4⟩, ⟨f3, f4⟩, textOk_getD ?_, textOk_getD ?_, textOk_getD u2, textOk_getD p2⟩
      · intro t ht
        obtain ⟨w, hw, rfl⟩ := Option.map_eq_some_iff.1 ht
        exact (w2 w hw).1
      · intro t ht
        obtain ⟨w, hw, rfl⟩ := Option.map_eq_some_iff.1 ht
        exact (w2 w hw).2
    · simp only [wireConnect, q7, q6, q2, l1, l2, l3, hpw, hpu, hpp, hpt, hpm, nonEmpty_eq, List.length_append, wireText_length, wireWord_length, List.length_cons, List.length_nil]
      have x1 : ∀ o : Option Text, (if (o.getD [] != []) = true then wireText (o.getD []) else []).length ≤ (if o.isSome then 2 + (o.getD []).length else 0) := by
        intro o; rcases o with _ | _ | ⟨b, t⟩ <;> simp
      have y1 := x1 un
      have y2 := x1 pw
      have y3 : (if will.isSome = true then wireText ((will.map (·.topic)).getD []) ++ wireText ((will.map (·.message)).getD []) else []).length = (if will.isSome then (2 + ((will.map (·.topic)).getD []).length) + (2 + ((will.map (·.message)).getD []).length) else 0) := by
        cases will <;> simp
      simp only [Nat.zero_add]
      omega

/-- Whatever a body decoder leaves in the shadow is the register file of a well-formed Packet (R25, R27), and can be encoded again in no more bytes (R195). -/
theorem bodyDec_ok {b : Build} {t : Tag} {d r : Bool} {qq : BitVec 2} {buf : Bytes} {cur lim cur' : Nat} {p' : Pkt} (hb : lim ≤ buf.length) (hc : cur ≤ lim)
    (hq : qq ≠ 3) (hmax : lim - cur ≤ rlMax)
    (h : bodyDec b t buf cur lim qq { Pkt.empty with ptype := some (lookupCode b.typeCode t), dup := d, qos := qq, retain := r } = .ok (cur', p')) :
    ∃ body, cur' ≤ lim ∧ (⟨t, d, qq, r, body⟩ : Packet).wf = true ∧ p' = Packet.regs b ⟨t, d, qq, r, body⟩ ∧ p'.fits b.listCap = true ∧
      ∃ bs, bodyEnc b t p' = .ok bs ∧ cur + bs.length ≤ cur' := by
  have hq3 : (qq != 3) = true := by simpa using hq
  cases t
  case connect => exact bdConnect_ok hb hq h
  case connack =>
    obtain ⟨c1, h1, h⟩ := except_bind_ok.1 h
    obtain ⟨⟨rc, c2⟩, h2, h⟩ := except_bind_ok.1 h
    obtain ⟨e1, e2⟩ := (decSkip_bounds hc).1 c1 h1
    obtain ⟨g1, g2, _⟩ := decByte_ok hb h2
    cases h
    refine ⟨.connack rc, g2, by unfold Packet.wf; rw [Bool.and_eq_true]; exact ⟨hq3, rfl⟩, rfl, rfl, _, rfl, ?_⟩
    simp [encByte]; omega
  case publish =>
    obtain ⟨⟨tt, c1⟩, h1, h⟩ := except_bind_ok.1 h
    obtain ⟨⟨c2, p2⟩, h2, h⟩ := except_bind_ok.1 h
    obtain ⟨⟨pl, c3⟩, h3, h⟩ := except_bind_ok.1 h
    obtain ⟨a1, a2, a3, a4, _⟩ := decText_ok hb h1
    have hm : ∃ m : Option Word, m.isSome = (qq != 0) ∧ c2 ≤ lim ∧ c2 = c1 + (if qq = 0 then 0 else 2) ∧ p2 = { Pkt.empty with ptype := some (lookupCode b.typeCode .publish), dup := d, qos := qq, retain := r, topic := some tt, msgId := m } := by
      unfold decPublishId at h2
      split at h2
      · rename_i hq0
        obtain ⟨⟨w, c4⟩, h4, h2⟩ := except_bind_ok.1 h2
        obtain ⟨k1, k2, _⟩ := decWord_ok hb h4
        cases h2
        have : qq ≠ 0 := by simpa using hq0
        exact ⟨some w, hq0.symm, k2, by rw [if_neg this, k1], rfl⟩
      · rename_i hq0
        cases h2
        have : qq = 0 := by simpa using hq0
        exact ⟨none, by rw [this]; rfl, a2, by simp [this], rfl⟩
    obtain ⟨m, m1, m2, m3, m4⟩ := hm
    have hr : utf8Ok pl = true ∧ c3 = lim ∧ pl.length = lim - c2 := by
      unfold decRest at h3
      dsimp only at h3
      split at h3
      · rename_i hu
        cases h3
        exact ⟨hu, rfl, slice_length (by omega)⟩
      · cases h3
    obtain ⟨r1, r2, r3⟩ := hr
    cases h
    refine ⟨.publish tt m pl, by omega, ?_, by rw [m4]; rfl, ?_, wireText tt ++ ((m.map wireWord).getD [] ++ pl), ?_, ?_⟩
    · unfold Packet.wf
      rw [Bool.and_eq_true]
      simp only [Bool.and_eq_true, decide_eq_true_eq, beq_iff_eq]
      exact ⟨hq3, ⟨⟨textWf_of a3 a4, r1⟩, by omega⟩, m1⟩
    · rw [m4]
      simp only [Pkt.fits, Pkt.empty, Bool.and_eq_true, Option.all_some, Option.all_none, and_true, true_and, decide_eq_true_eq]
      exact ⟨textFits_of a3, by omega⟩
    · rw [m4]
      simp only [bodyEnc, bePublish, encTextReg_of ⟨a3, a4⟩, encPublishId, encRest, r1, if_true, except_ok_bind, readReg_some, except_pure]
      cases m with
      | none =>
        rw [← m1]; simp
      | some m =>
        rw [← m1]; simp [wireWord_eq]
    · cases m with
      | none =>
        have h0 : qq = 0 := by simpa using m1
        rw [if_pos h0] at m3
        simp; omega
      | some m =>
        have h0 : qq ≠ 0 := by simpa using m1
        rw [if_neg h0] at m3
        simp; omega
  case subscribe =>
    obtain ⟨⟨m, c1⟩, h1, h⟩ := except_bind_ok.1 h
    obtain ⟨⟨l, c2⟩, h2, h⟩ := except_bind_ok.1 h
    obtain ⟨k1, k2, _⟩ := decWord_ok hb h1
    obtain ⟨l', g1, g2, g3, g4, g5⟩ := decSubs_ok hb k2 (Nat.le_refl _) (countFits_zero _) h2
    rw [List.nil_append] at g1
    subst g1
    cases h
    refine ⟨.subscribe m l, by omega, ?_, rfl, ?_, wireWord m ++ l.flatMap wireEntry, ?_, by rw [List.length_append, wireWord_length]; omega⟩
    · unfold Packet.wf
      rw [Bool.and_eq_true]
      simp only [List.all_eq_true]
      exact ⟨hq3, fun e he => textWf_of (g5 e he).1 (g5 e he).2⟩
    · simp only [Pkt.fits, Pkt.empty, Bool.and_eq_true, Option.all_some, Option.all_none, and_true, true_and, List.all_eq_true]
      exact ⟨g4, fun e he => textFits_of (g5 e he).1⟩
    · simp [bodyEnc, beSubscribe, encSubs_of_wf g5, wireWord_eq]
  case suback =>
    obtain ⟨⟨m, c1⟩, h1, h⟩ := except_bind_ok.1 h
    obtain ⟨⟨l, c2⟩, h2, h⟩ := except_bind_ok.1 h
    obtain ⟨k1, k2, _⟩ := decWord_ok hb h1
    obtain ⟨l', g1, g2, g3, g4⟩ := decGranted_ok hb k2 (Nat.le_refl _) (countFits_zero _) h2
    rw [List.nil_append] at g1
    subst g1
    cases h
    refine ⟨.suback m l, by omega, ?_, rfl, ?_, wireWord m ++ l, ?_, by simp; omega⟩
    · unfold Packet.wf
      rw [Bool.and_eq_true]
      exact ⟨hq3, rfl⟩
    · simp only [Pkt.fits, Pkt.empty, Bool.and_eq_true, Option.all_some, Option.all_none, and_true, true_and]
      exact g4
    · have : l.flatMap encByte = l := List.flatMap_singleton' l
      simp [bodyEnc, beSuback, this, wireWord_eq]
  case unsubscribe =>
    obtain ⟨⟨m, c1⟩, h1, h⟩ := except_bind_ok.1 h
    obtain ⟨⟨l, c2⟩, h2, h⟩ := except_bind_ok.1 h
    obtain ⟨k1, k2, _⟩ := decWord_ok hb h1
    obtain ⟨l', g1, g2, g3, g4, g5⟩ := decTopics_ok hb k2 (Nat.le_refl _) (countFits_zero _) h2
    rw [List.nil_append] at g1
    subst g1
    cases h
    refine ⟨.unsubscribe m l, by omega, ?_, rfl, ?_, wireWord m ++ l.flatMap wireText, ?_, by rw [List.length_append, wireWord_length]; omega⟩
    · unfold Packet.wf
      rw [Bool.and_eq_true]
      simp only [List.all_eq_true]
      exact ⟨hq3, fun e he => textWf_of (g5 e he).1 (g5 e he).2⟩
    · simp only [Pkt.fits, Pkt.empty, Bool.and_eq_true, Option.all_some, Option.all_none, and_true, true_and, List.all_eq_true]
      exact ⟨g4, fun e he => textFits_of (g5 e he).1⟩
    · simp [bodyEnc, beUnsubscribe, encTopics_of_wf g5, wireWord_eq]
  case pingreq | pingresp | disconnect =>
    cases h
    exact ⟨.empty, hc, by unfold Packet.wf; rw [Bool.and_eq_true]; exact ⟨hq3, rfl⟩, rfl, rfl, [], rfl, Nat.le_refl _⟩
  all_goals
    obtain ⟨⟨m, c1⟩, h1, h⟩ := except_bind_ok.1 h
    obtain ⟨k1, k2, _⟩ := decWord_ok hb h1
    cases h
    exact ⟨.msgIdOnly m, k2, by unfold Packet.wf; rw [Bool.and_eq_true]; exact ⟨hq3, rfl⟩, rfl, rfl, encWord m, rfl, by simp; omega⟩

end Sys2Proof.Machine
end

