-- ==== Sys2Proof/Laws/Canonical.lean ====
section
/-! SUPPORT. Which bytes a decode has read and which of them an encode gives back (R192, R195, R197): a decode reads only its packet; the bytes of every decoded body are the wire form of the fields read; the re-encoded body is those bytes iff R197's items (b) and (e) hold. -/

namespace Sys2Proof.Machine

/-! ### A decode reads only below its bound (R166, R192) -/

theorem byteAt_take {buf : Bytes} {n a : Nat} (h : a < n) : byteAt (buf.take n) a = byteAt buf a := by
  simp [byteAt, List.getD_eq_getElem?_getD, h]

theorem slice_take {buf : Bytes} {n a k : Nat} (h : a + k ≤ n) : slice (buf.take n) a k = slice buf a k := by
  simp only [slice, List.drop_take, List.take_take]
  congr 1; omega

theorem decByte_take {buf : Bytes} {n cur lim : Nat} (h : lim ≤ n) : decByte (buf.take n) cur lim = decByte buf cur lim := by
  unfold decByte
  split
  · rfl
  · rw [byteAt_take (by omega)]

theorem decWord_take {buf : Bytes} {n cur lim : Nat} (h : lim ≤ n) : decWord (buf.take n) cur lim = decWord buf cur lim := by
  unfold decWord
  split
  · rfl
  · rw [wordAt, byteAt_take (by omega), byteAt_take (by omega)]; rfl

theorem decText_take {buf : Bytes} {n cur lim : Nat} (h : lim ≤ n) : decText (buf.take n) cur lim = decText buf cur lim := by
  unfold decText
  by_cases h1 : lim - cur < 2
  · rw [if_pos h1, if_pos h1]
  · rw [if_neg h1, if_neg h1]
    have : wordAt (buf.take n) cur = wordAt buf cur := by rw [wordAt, byteAt_take (by omega), byteAt_take (by omega)]; rfl
    rw [this]
    dsimp only
    by_cases h2 : lim - cur < 2 + (wordAt buf cur).toNat
    · rw [if_pos h2, if_pos h2]
    · rw [if_neg h2, if_neg h2, slice_take (by omega)]

theorem decRest_take {buf : Bytes} {n cur lim : Nat} (h : lim ≤ n) : decRest (buf.take n) cur lim = decRest buf cur lim := by
  unfold decRest
  by_cases hc : cur ≤ lim
  · rw [slice_take (by omega)]
  · rw [show lim - cur = 0 by omega]; rfl

theorem decSubs_take {cap : Option Nat} {buf : Bytes} {n lim passes cur : Nat} {l : List (Text × Byte)} (h : lim ≤ n) :
    decSubs cap (buf.take n) lim passes cur l = decSubs cap buf lim passes cur l := by
  induction passes generalizing cur l with
  | zero => rfl
  | succ passes ih => simp only [decSubs, decText_take h, decByte_take h, ih]

theorem decGranted_take {cap : Option Nat} {buf : Bytes} {n lim passes cur : Nat} {l : List Byte} (h : lim ≤ n) :
    decGranted cap (buf.take n) lim passes cur l = decGranted cap buf lim passes cur l := by
  induction passes generalizing cur l with
  | zero => rfl
  | succ passes ih => simp only [decGranted, decByte_take h, ih]

theorem decTopics_take {cap : Option Nat} {buf : Bytes} {n lim passes cur : Nat} {l : List Text} (h : lim ≤ n) :
    decTopics cap (buf.take n) lim passes cur l = decTopics cap buf lim passes cur l := by
  induction passes generalizing cur l with
  | zero => rfl
  | succ passes ih => simp only [decTopics, decText_take h, ih]

theorem decSkip_take {buf : Bytes} {n lim k cur : Nat} (h : lim ≤ n) :
    decSkip (buf.take n) lim k cur = decSkip buf lim k cur := by
  induction k generalizing cur with
  | zero => rfl
  | succ passes ih => simp only [decSkip, decByte_take h, ih]

theorem bodyDec_take {b : Build} {t : Tag} {buf : Bytes} {n cur lim : Nat} {q : BitVec 2} {p : Pkt} (h : lim ≤ n) :
    bodyDec b t (buf.take n) cur lim q p = bodyDec b t buf cur lim q p := by
  cases t <;> simp only [bodyDec, bdConnect, decWill, decUsername, decPassword, bdConnack, bdPublish, decPublishId, decMsgId, bdSubscribe, bdSuback, bdUnsubscribe,
    decByte_take h, decWord_take h, decText_take h, decRest_take h, decSubs_take h, decGranted_take h, decTopics_take h, decSkip_take h]

/-- A decode that answers reads only the bytes it consumes: any buffer with the same first `n` bytes gives the same answer (R192). -/
theorem decodePacket_take {b : Build} {strict : Bool} {buf buf' : Bytes} {p : Pkt} {n : Nat} (h : decodePacket b strict buf = .ok (p, n))
    (he : buf.take n = buf'.take n) : decodePacket b strict buf' = .ok (p, n) := by
  obtain ⟨hd, cur, h1, h2, h3, h4⟩ := decodePacket_ok h
  obtain ⟨b0, f, r, k1, k2, k3, k4, k5, k6, k7, k8, k9, k10⟩ := fhDec_ok h1
  have hfh : fhDec b.typeCode strict buf' = .ok hd := by
    have e0 : buf.take n = b0 :: (f ++ r.take hd.n) := by
      rw [k1, h3, k5, show 1 + f.length + hd.n = (f.length + hd.n) + 1 by omega, List.take_succ_cons, List.take_append,
        List.take_of_length_le (by omega), show f.length + hd.n - f.length = hd.n by omega]
    have e1 : buf' = b0 :: (f ++ (r.take hd.n ++ buf'.drop n)) := by
      conv_lhs => rw [← List.take_append_drop n buf', ← he, e0]
      simp
    have := fhDec_of (strict := strict) e1 k2 (k3 ▸ k4) (k10.imp (fun h => ⟨h, k9⟩) id) (by rw [List.length_append, List.length_take]; omega)
    rw [this, ← k3, ← k5, ← k6]
  rw [decodePacket, hfh, except_ok_bind, ← bodyDec_take (n := n) (by omega), ← he, bodyDec_take (by omega), h2, h3]
  rfl


/-! ### The bytes read are the wire form of the value -/

theorem decText_wire {buf : Bytes} {cur lim : Nat} {t : Text} {cur' : Nat} (hl : lim ≤ buf.length)
    (h : decText buf cur lim = .ok (t, cur')) : buf.drop cur = wireText t ++ buf.drop cur' := by
  obtain ⟨_, _, h1, h2, _, bs, h3, _, h4⟩ := decText_ok hl h
  rw [encText_eq_wire h1 h2] at h3
  cases h3
  exact h4

theorem decSubs_wire {cap : Option Nat} {buf : Bytes} {lim passes cur cur' : Nat} {acc l : List (Text × Byte)} (hb : lim ≤ buf.length)
    (h : decSubs cap buf lim passes cur acc = .ok (l, cur')) :
    ∃ m, l = acc ++ m ∧ buf.drop cur = m.flatMap wireEntry ++ buf.drop cur' := by
  induction passes generalizing cur acc with
  | zero => cases h; exact ⟨[], by simp, rfl⟩
  | succ passes ih =>
    rw [decSubs] at h
    split at h
    · split at h
      · cases h
      · obtain ⟨⟨t, c1⟩, h1, h⟩ := except_bind_ok.1 h
        obtain ⟨⟨q, c2⟩, h2, h⟩ := except_bind_ok.1 h
        obtain ⟨m, e1, e2⟩ := ih h
        refine ⟨(t, q) :: m, by rw [e1]; simp, ?_⟩
        rw [decText_wire hb h1, (decByte_ok hb h2).2.2.2, e2]
        simp [wireEntry, encByte]
    · cases h; exact ⟨[], by simp, rfl⟩

theorem decGranted_wire {cap : Option Nat} {buf : Bytes} {lim passes cur cur' : Nat} {acc l : List Byte} (hb : lim ≤ buf.length)
    (h : decGranted cap buf lim passes cur acc = .ok (l, cur')) : ∃ m, l = acc ++ m ∧ buf.drop cur = m ++ buf.drop cur' := by
  induction passes generalizing cur acc with
  | zero => cases h; exact ⟨[], by simp, rfl⟩
  | succ passes ih =>
    rw [decGranted] at h
    split at h
    · split at h
      · cases h
      · obtain ⟨⟨q, c2⟩, h2, h⟩ := except_bind_ok.1 h
        obtain ⟨m, e1, e2⟩ := ih h
        refine ⟨q :: m, by rw [e1]; simp, ?_⟩
        rw [(decByte_ok hb h2).2.2.2, e2]
        simp [encByte]
    · cases h; exact ⟨[], by simp, rfl⟩

theorem decTopics_wire {cap : Option Nat} {buf : Bytes} {lim passes cur cur' : Nat} {acc l : List Text} (hb : lim ≤ buf.length)
    (h : decTopics cap buf lim passes cur acc = .ok (l, cur')) :
    ∃ m, l = acc ++ m ∧ buf.drop cur = m.flatMap wireText ++ buf.drop cur' := by
  induction passes generalizing cur acc with
  | zero => cases h; exact ⟨[], by simp, rfl⟩
  | succ passes ih =>
    rw [decTopics] at h
    split at h
    · split at h
      · cases h
      · obtain ⟨⟨t, c1⟩, h1, h⟩ := except_bind_ok.1 h
        obtain ⟨m, e1, e2⟩ := ih h
        refine ⟨t :: m, by rw [e1]; simp, ?_⟩
        rw [decText_wire hb h1, e2]
        simp
    · cases h; exact ⟨[], by simp, rfl⟩

/-! ### The connect-flags byte that is written again -/

theorem ConnFlags.ext_of {g h : ConnFlags} (h1 : g.uf = h.uf) (h2 : g.pf = h.pf) (h3 : g.wr = h.wr) (h4 : g.wq = h.wq)
    (h5 : g.wf = h.wf) (h6 : g.cs = h.cs) : g = h := by
  cases g; cases h
  cases h1; cases h2; cases h3; cases h4; cases h5; cases h6
  rfl

/-- A flags byte is the one written for `fl` iff its bit 0 is 0 and its flags are `fl` (R141, R143). -/
theorem eq_cfEnc_iff {f : Byte} {fl : ConnFlags} : f = cfEnc fl ↔ f.getLsbD 0 = false ∧ cfDec f = fl := by
  constructor
  · rintro rfl
    exact (cfEnc_bits fl).2.2.2.2.2.2
  · rintro ⟨h0, rfl⟩
    exact bitVec8_forall (P := fun f => f.getLsbD 0 = false → f = cfEnc (cfDec f)) (by decide +kernel) f h0

theorem cfDec_wq_zero (f : Byte) : (cfDec f).wq = 0 ↔ f.toNat / 8 % 4 = 0 :=
  bitVec8_forall (P := fun f => (cfDec f).wq = 0 ↔ f.toNat / 8 % 4 = 0) (by decide +kernel) f

/-- The flags byte stands in a connect body where R79 puts it. -/
theorem wireConnect_flags {buf r : Bytes} {cur : Nat} {name cid wt wm un pw : Text} {ver f : Byte} {ka : Word}
    (h : buf.drop cur = wireConnect name ver f ka cid wt wm un pw ++ r) : byteAt buf (cur + 2 + name.length + 1) = f := by
  simp only [wireConnect, List.append_assoc] at h
  have h2 := drop_succ_of_drop (drop_add_of_drop h)
  rw [wireText_length] at h2
  rw [← byteAt_of_drop h2]
  congr 1; omega

/-- Two connect bodies that agree in all fields but the flags byte agree iff the flags bytes do. -/
theorem wireConnect_inj_flags {name cid wt wm un pw : Text} {ver f g : Byte} {ka : Word} :
    wireConnect name ver f ka cid wt wm un pw = wireConnect name ver g ka cid wt wm un pw ↔ f = g := by
  refine ⟨fun h => ?_, fun h => h ▸ rfl⟩
  have h1 := wireConnect_flags (cur := 0) (r := []) (by rw [List.drop_zero, List.append_nil] : (wireConnect name ver f ka cid wt wm un pw).drop 0 = _)
  rw [h, wireConnect_flags (cur := 0) (r := []) (by rw [List.drop_zero, List.append_nil])] at h1
  exact h1.symm

theorem decWill_wire {fl : ConnFlags} {buf : Bytes} {cur lim cur' : Nat} {p p' : Pkt} (hb : lim ≤ buf.length)
    (h : decWill fl buf cur lim p = .ok (cur', p')) (hp : p.willTopic = none ∧ p.willMessage = none) :
    ∃ wt wm wq wr, p' = { p with willTopic := wt, willMessage := wm, willQos := wq, willRetain := wr } ∧
      wt.isSome = fl.wf ∧ wm.isSome = fl.wf ∧ (fl.wf = true → wq = some fl.wq ∧ wr = some fl.wr) ∧
      (fl.wf = false → wq = p.willQos ∧ wr = p.willRetain) ∧
      buf.drop cur = (if fl.wf then wireText (wt.getD []) ++ wireText (wm.getD []) else []) ++ buf.drop cur' := by
  unfold decWill at h
  cases hw : fl.wf <;> simp only [hw, if_true, if_false, Bool.false_eq_true] at h ⊢
  · cases h
    refine ⟨none, none, p.willQos, p.willRetain, ?_, rfl, rfl, by simp, fun _ => ⟨rfl, rfl⟩, rfl⟩
    obtain ⟨hp1, hp2⟩ := hp
    cases p
    cases hp1
    cases hp2
    rfl
  · obtain ⟨⟨t, c1⟩, h1, h⟩ := except_bind_ok.1 h
    obtain ⟨⟨m, c2⟩, h2, h⟩ := except_bind_ok.1 h
    cases h
    exact ⟨some t, some m, _, _, rfl, rfl, rfl, fun _ => ⟨rfl, rfl⟩, by simp, by
      rw [decText_wire hb h1, decText_wire hb h2, List.append_assoc]; rfl⟩

theorem decUsername_wire {fl : ConnFlags} {buf : Bytes} {cur lim cur' : Nat} {p p' : Pkt} (hb : lim ≤ buf.length)
    (h : decUsername fl buf cur lim p = .ok (cur', p')) (hp : p.username = none) :
    ∃ un, p' = { p with username := un } ∧ un.isSome = fl.uf ∧
      buf.drop cur = (if fl.uf then wireText (un.getD []) else []) ++ buf.drop cur' := by
  unfold decUsername at h
  cases hw : fl.uf <;> simp only [hw, if_true, if_false, Bool.false_eq_true] at h ⊢
  · cases h
    exact ⟨none, by rw [← hp], rfl, rfl⟩
  · obtain ⟨⟨t, c1⟩, h1, h⟩ := except_bind_ok.1 h
    cases h
    exact ⟨some t, rfl, rfl, decText_wire hb h1⟩

theorem decPassword_wire {fl : ConnFlags} {buf : Bytes} {cur lim cur' : Nat} {p p' : Pkt} (hb : lim ≤ buf.length)
    (h : decPassword fl buf cur lim p = .ok (cur', p')) (hp : p.password = none) :
    ∃ pw, p' = { p with password := pw } ∧ pw.isSome = fl.pf ∧
      buf.drop cur = (if fl.pf then wireText (pw.getD []) else []) ++ buf.drop cur' := by
  unfold decPassword at h
  cases hw : fl.pf <;> simp only [hw, if_true, if_false, Bool.false_eq_true] at h ⊢
  · cases h
    exact ⟨none, by rw [← hp], rfl, rfl⟩
  · obtain ⟨⟨t, c1⟩, h1, h⟩ := except_bind_ok.1 h
    cases h
    exact ⟨some t, rfl, rfl, decText_wire hb h1⟩

/-- The bytes of a connect body that was decoded, and the registers it left (R151). -/
theorem bdConnect_wire {buf : Bytes} {cur lim cur' : Nat} {p p' : Pkt} (hb : lim ≤ buf.length)
    (h : bdConnect buf cur lim p = .ok (cur', p'))
    (hp : p.willTopic = none ∧ p.willMessage = none ∧ p.willQos = none ∧ p.willRetain = none ∧ p.username = none ∧ p.password = none) :
    ∃ name ver f ka cid, p'.protoName = some name ∧ p'.protoVer = some ver ∧ p'.keepAlive = some ka ∧ p'.clientId = some cid ∧
      p'.cleanSession = some (cfDec f).cs ∧ p'.willTopic.isSome = (cfDec f).wf ∧ p'.willMessage.isSome = (cfDec f).wf ∧
      ((cfDec f).wf = true → p'.willQos = some (cfDec f).wq ∧ p'.willRetain = some (cfDec f).wr) ∧
      ((cfDec f).wf = false → p'.willQos = none ∧ p'.willRetain = none) ∧
      p'.username.isSome = (cfDec f).uf ∧ p'.password.isSome = (cfDec f).pf ∧
      buf.drop cur = wireConnect name ver f ka cid (p'.willTopic.getD []) (p'.willMessage.getD []) (p'.username.getD [])
        (p'.password.getD []) ++ buf.drop cur' := by
  obtain ⟨⟨name, c1⟩, h1, h⟩ := except_bind_ok.1 h
  obtain ⟨⟨ver, c2⟩, h2, h⟩ := except_bind_ok.1 h
  obtain ⟨⟨f, c3⟩, h3, h⟩ := except_bind_ok.1 h
  obtain ⟨⟨ka, c4⟩, h4, h⟩ := except_bind_ok.1 h
  obtain ⟨⟨cid, c5⟩, h5, h⟩ := except_bind_ok.1 h
  obtain ⟨⟨c6, p6⟩, h6, h⟩ := except_bind_ok.1 h
  obtain ⟨⟨c7, p7⟩, h7, h⟩ := except_bind_ok.1 h
  obtain ⟨b7, b6, _, _, b2, _⟩ := cfDec_bits f
  obtain ⟨wt, wm, wq, wr, rfl, w1, w2, w3, w3', w4⟩ := decWill_wire hb h6 ⟨hp.1, hp.2.1⟩
  obtain ⟨un, rfl, u1, u2⟩ := decUsername_wire hb h7 hp.2.2.2.2.1
  obtain ⟨pw, rfl, p1, p2⟩ := decPassword_wire hb h hp.2.2.2.2.2
  refine ⟨name, ver, f, ka, cid, rfl, rfl, rfl, rfl, rfl, w1, w2, w3, fun h => ⟨(w3' h).1.trans hp.2.2.1, (w3' h).2.trans hp.2.2.2.1⟩, u1, p1, ?_⟩
  rw [decText_wire hb h1, (decByte_ok hb h2).2.2.2, (decByte_ok hb h3).2.2.2, (decWord_ok hb h4).2.2.2, decText_wire hb h5, w4, u2, p2]
  simp only [wireConnect, b7, b6, b2, List.append_assoc, wireWord_eq, encByte]
  rfl

/-- The encoding of a decoded connect body is its bytes iff R197's item (b) holds. -/
theorem bdConnect_canonical {b : Build} {d r : Bool} {qq : BitVec 2} {buf : Bytes} {cur lim : Nat} {p' : Pkt} {bs : Bytes}
    (hb : lim ≤ buf.length) (hc : cur ≤ lim)
    (h : bdConnect buf cur lim { Pkt.empty with ptype := some (lookupCode b.typeCode .connect), dup := d, qos := qq, retain := r } = .ok (lim, p'))
    (he : beConnect p' = .ok bs) :
    bs = slice buf cur (lim - cur) ↔ ∀ name f, p'.protoName = some name → f = byteAt buf (cur + 2 + name.length + 1) →
      f.getLsbD 0 = false ∧ (f.getLsbD 2 = false → f.getLsbD 5 = false ∧ f.toNat / 8 % 4 = 0) ∧
      (f.getLsbD 7 = true → p'.username ≠ some []) ∧ (f.getLsbD 6 = true → p'.password ≠ some []) := by
  obtain ⟨name, ver, f, ka, cid, n1, n2, n3, n4, n5, n6, n7, n8, n8', n9, n10, hd⟩ :=
    bdConnect_wire hb h ⟨rfl, rfl, rfl, rfl, rfl, rfl⟩
  have hreq : reqOk .connect p' = true := by
    cases hw : (cfDec f).wf with
    | true => simp [reqOk, willAllOrNone, n1, n2, n3, n4, n5, n6, n7, n8 hw, hw]
    | false => simp [reqOk, willAllOrNone, n1, n2, n3, n4, n5, n6, n7, n8' hw, hw]
  obtain ⟨name', ver', ka', cid', fl, e1, e2, e3, e4, hfl, hw, rfl⟩ := beConnect_ok hreq he
  obtain ⟨cs, hcs, fl', hfl', l1, l2, l3, l4, l5, l6⟩ := cfDerive_of_req hreq
  rw [hfl] at hfl'; cases hfl'
  rw [n1] at e1; cases e1
  rw [n2] at e2; cases e2
  rw [n3] at e3; cases e3
  rw [n4] at e4; cases e4
  rw [n5] at hcs; cases hcs
  have hlen : (wireConnect name ver f ka cid (p'.willTopic.getD []) (p'.willMessage.getD []) (p'.username.getD [])
      (p'.password.getD [])).length = lim - cur := by
    have := congrArg List.length hd
    rw [List.length_append, List.length_drop, List.length_drop] at this
    omega
  rw [← hlen, slice_of_drop hd, wireConnect_inj_flags, eq_comm, eq_cfEnc_iff]
  have hf := wireConnect_flags hd
  obtain ⟨b7, b6, b5, _, b2, _⟩ := cfDec_bits f
  have hwp : fl.wf = (cfDec f).wf := by rw [l3, willPresent, n6, n7, Bool.and_self]
  have hne : ∀ o : Option Text, nonEmpty o = true ↔ o.isSome = true ∧ o ≠ some [] := by
    intro o; rcases o with _ | _ | ⟨x, t⟩ <;> simp [nonEmpty]
  have hopt : ∀ o : Option Text, (o.isSome = nonEmpty o) ↔ (o.isSome = true → o ≠ some []) := by
    intro o; rcases o with _ | _ | ⟨x, t⟩ <;> simp [nonEmpty]
  have key : cfDec f = fl ↔ ((cfDec f).wf = false → (cfDec f).wr = false ∧ (cfDec f).wq = 0) ∧
      ((cfDec f).uf = true → p'.username ≠ some []) ∧ ((cfDec f).pf = true → p'.password ≠ some []) := by
    rw [← n9, ← n10, ← hopt, ← hopt, n9, n10, ← l1, ← l2]
    constructor
    · intro h
      refine ⟨fun hw => ?_, by rw [h], by rw [h]⟩
      rw [h]; exact l6 (by rw [← l3, hwp, hw])
    · rintro ⟨h1, h2, h3⟩
      have hwq : (cfDec f).wr = fl.wr ∧ (cfDec f).wq = fl.wq := by
        cases hw : (cfDec f).wf with
        | true =>
          obtain ⟨q1, q2⟩ := l5 (by rw [← l3, hwp, hw])
          obtain ⟨q3, q4⟩ := n8 hw
          rw [q4] at q1; rw [q3] at q2
          exact ⟨Option.some.inj q1, Option.some.inj q2⟩
        | false =>
          obtain ⟨q1, q2⟩ := l6 (by rw [← l3, hwp, hw])
          rw [q1, q2]; exact h1 hw
      exact ConnFlags.ext_of h2 h3 hwq.1 hwq.2 hwp.symm l4.symm
  rw [key, b7, b6, b5, b2, cfDec_wq_zero, n1]
  constructor
  · intro hx name' f' hn hf'
    cases hn
    rw [hf] at hf'
    subst hf'
    exact hx
  · intro hx
    exact hx name f rfl hf.symm

theorem decPublishId_wire {qq : BitVec 2} {buf : Bytes} {cur lim cur' : Nat} {p p' : Pkt} (hb : lim ≤ buf.length) (hc : cur ≤ lim)
    (h : decPublishId qq buf cur lim p = .ok (cur', p')) (hp : p.msgId = none) :
    ∃ m, p' = { p with msgId := m } ∧ cur' ≤ lim ∧ m.isSome = (qq != 0) ∧
      buf.drop cur = m.elim [] wireWord ++ buf.drop cur' := by
  unfold decPublishId at h
  cases hq : qq != 0 <;> simp only [hq, if_true, if_false, Bool.false_eq_true] at h
  · cases h
    exact ⟨none, by rw [← hp], hc, rfl, rfl⟩
  · obtain ⟨⟨w, c⟩, h1, h⟩ := except_bind_ok.1 h
    obtain ⟨_, k2, _, k4⟩ := decWord_ok hb h1
    cases h
    exact ⟨some w, rfl, k2, rfl, k4⟩

/-- The encoding of a decoded body is its bytes, where none is left over, iff R197's items (b) and (e) hold. -/
theorem bodyDec_canonical {b : Build} {t : Tag} {d r : Bool} {qq : BitVec 2} {buf : Bytes} {cur lim : Nat} {p' : Pkt} {bs : Bytes}
    (hb : lim ≤ buf.length) (hc : cur ≤ lim)
    (h : bodyDec b t buf cur lim qq { Pkt.empty with ptype := some (lookupCode b.typeCode t), dup := d, qos := qq, retain := r } = .ok (lim, p'))
    (he : bodyEnc b t p' = .ok bs) :
    bs = slice buf cur (lim - cur) ↔
      (t = .connect → ∀ name f, p'.protoName = some name → f = byteAt buf (cur + 2 + name.length + 1) →
        f.getLsbD 0 = false ∧ (f.getLsbD 2 = false → f.getLsbD 5 = false ∧ f.toNat / 8 % 4 = 0) ∧
        (f.getLsbD 7 = true → p'.username ≠ some []) ∧ (f.getLsbD 6 = true → p'.password ≠ some [])) ∧
      (t = .connack → b.connackPad = 1 → byteAt buf cur = 0) := by
  have whole : ∀ {w : Bytes}, buf.drop cur = w ++ buf.drop lim → slice buf cur (lim - cur) = w := by
    intro w hw
    have := congrArg List.length hw
    rw [List.length_append, List.length_drop, List.length_drop] at this
    rw [show lim - cur = w.length by omega]
    exact slice_of_drop hw
  have plain : t ≠ .connect → t ≠ .connack → bs = slice buf cur (lim - cur) → (bs = slice buf cur (lim - cur) ↔
      (t = .connect → ∀ name f, p'.protoName = some name → f = byteAt buf (cur + 2 + name.length + 1) →
        f.getLsbD 0 = false ∧ (f.getLsbD 2 = false → f.getLsbD 5 = false ∧ f.toNat / 8 % 4 = 0) ∧
        (f.getLsbD 7 = true → p'.username ≠ some []) ∧ (f.getLsbD 6 = true → p'.password ≠ some [])) ∧
      (t = .connack → b.connackPad = 1 → byteAt buf cur = 0)) :=
    fun h1 h2 h3 => ⟨fun _ => ⟨fun h => absurd h h1, fun h => absurd h h2⟩, fun _ => h3⟩
  cases t
  case connect =>
    rw [bdConnect_canonical hb hc h he]
    exact ⟨fun hx => ⟨fun _ => hx, nofun⟩, fun hx => hx.1 rfl⟩
  case connack =>
    obtain ⟨c1, h1, h⟩ := except_bind_ok.1 h
    obtain ⟨⟨rc, c2⟩, h2, h⟩ := except_bind_ok.1 h
    obtain ⟨g1, _, _, g4⟩ := decByte_ok hb h2
    cases h
    obtain ⟨k1, k2⟩ := (decSkip_bounds hc).1 c1 h1
    simp only [bodyEnc, beConnack, readReg_some, except_ok_bind, except_pure] at he
    cases he
    generalize b.connackPad = pad at *
    fin_cases pad
    · simp only [Nat.add_zero] at k1
      subst k1
      rw [whole g4]
      simp
    · subst k1
      have e : buf.drop cur = [byteAt buf cur, rc] ++ buf.drop lim := by
        rw [drop_eq_byteAt_cons (by omega), g4]; rfl
      rw [whole e]
      simp [encByte]
      exact eq_comm
  case publish =>
    obtain ⟨⟨tt, c1⟩, h1, h⟩ := except_bind_ok.1 h
    obtain ⟨⟨c2, p2⟩, h2, h⟩ := except_bind_ok.1 h
    obtain ⟨⟨pl, c3⟩, h3, h⟩ := except_bind_ok.1 h
    refine plain nofun nofun ?_
    obtain ⟨_, a2, a3, a4, _⟩ := decText_ok hb h1
    obtain ⟨m, k1, k2, k3, k4⟩ := decPublishId_wire hb a2 h2 rfl
    obtain ⟨_, _, _, r1, r2⟩ := decRest_ok hb k2 h3
    cases h
    have he' : bePublish { p2 with payload := some pl } = .ok (wireText tt ++ (m.elim [] wireWord ++ pl)) := by
      subst k1
      have hid : ∀ q : Pkt, q.qos = qq → q.msgId = m → encPublishId q = .ok (m.elim [] wireWord) := by
        intro q hq hm
        rw [encPublishId, hq, hm, ← k3]
        cases m <;> rfl
      rw [bePublish, hid _ rfl rfl]
      dsimp only
      rw [encTextReg_of ⟨a3, a4⟩]
      simp [encRest, r1]
    have he : bePublish { p2 with payload := some pl } = .ok bs := he
    rw [he'] at he
    cases he
    exact (whole (by rw [decText_wire hb h1, k4, r2]; simp)).symm
  case subscribe =>
    obtain ⟨⟨m, c1⟩, h1, h⟩ := except_bind_ok.1 h
    obtain ⟨⟨l, c2⟩, h2, h⟩ := except_bind_ok.1 h
    obtain ⟨m', rfl, g2⟩ := decSubs_wire hb h2
    cases h
    refine plain nofun nofun ?_
    simp only [bodyEnc, beSubscribe, readReg_some, except_ok_bind] at he
    obtain ⟨rest, k1, k2⟩ := except_bind_ok.1 he
    obtain ⟨_, rfl⟩ := encSubs_ok k1
    cases k2
    exact (whole (by rw [(decWord_ok hb h1).2.2.2, g2, List.append_assoc])).symm
  case suback =>
    obtain ⟨⟨m, c1⟩, h1, h⟩ := except_bind_ok.1 h
    obtain ⟨⟨l, c2⟩, h2, h⟩ := except_bind_ok.1 h
    obtain ⟨m', rfl, g2⟩ := decGranted_wire hb h2
    cases h
    refine plain nofun nofun ?_
    simp only [bodyEnc, beSuback, readReg_some, except_ok_bind, except_pure] at he
    cases he
    have : l.flatMap encByte = l := List.flatMap_singleton' l
    exact (whole (by rw [(decWord_ok hb h1).2.2.2, g2, List.append_assoc, this])).symm
  case unsubscribe =>
    obtain ⟨⟨m, c1⟩, h1, h⟩ := except_bind_ok.1 h
    obtain ⟨⟨l, c2⟩, h2, h⟩ := except_bind_ok.1 h
    obtain ⟨m', rfl, g2⟩ := decTopics_wire hb h2
    cases h
    refine plain nofun nofun ?_
    simp only [bodyEnc, beUnsubscribe, readReg_some, except_ok_bind] at he
    obtain ⟨rest, k1, k2⟩ := except_bind_ok.1 he
    obtain ⟨_, rfl⟩ := encTopics_ok k1
    cases k2
    exact (whole (by rw [(decWord_ok hb h1).2.2.2, g2, List.append_assoc])).symm
  case pingreq | pingresp | disconnect =>
    cases h
    cases he
    exact plain nofun nofun (whole (by rfl)).symm
  all_goals
    obtain ⟨⟨m, c1⟩, h1, h⟩ := except_bind_ok.1 h
    cases h
    refine plain nofun nofun ?_
    simp only [bodyEnc, encMsgId, readReg_some, except_ok_bind, except_pure] at he
    cases he
    exact (whole (decWord_ok hb h1).2.2.2).symm

end Sys2Proof.Machine
end

