-- ==== Sys2Proof/Laws/PerInstr.lean ====
section
/-! SUPPORT. Per instruction: the byte the encoder writes under the default type-code table carries the fixed bits that the instruction's row of spec/opcode_table.json gives, at the port the row names; a row without a bit pattern has no byte. -/

namespace Sys2Proof.Laws.EncodingFitsTable

open Sys2Proof

/-- The mask of the rows of a port: bits 1:0 of `CMD` (R85), bits 7:4 of a header byte (R73). -/
def mask : Port → Byte
  | .cmd => 0x03
  | .inputByte => 0xF0
  | .typeReg => 0xF0

/-- The port and the match value of the instruction's row of the opcode table; none for an internal operation (R86). -/
def rowMatch : Instr → Option (Port × Byte)
  | .invalidType0 _ => some (.inputByte, 0x00)
  | .bdConnect _ => some (.inputByte, 0x10)
  | .beConnect _ => some (.typeReg, 0x10)
  | .bdConnack _ => some (.inputByte, 0x20)
  | .beConnack _ => some (.typeReg, 0x20)
  | .bdPublish _ => some (.inputByte, 0x30)
  | .bePublish _ => some (.typeReg, 0x30)
  | .bdPuback _ => some (.inputByte, 0x40)
  | .bePuback _ => some (.typeReg, 0x40)
  | .bdPubrec _ => some (.inputByte, 0x50)
  | .bePubrec _ => some (.typeReg, 0x50)
  | .bdPubrel _ => some (.inputByte, 0x60)
  | .bePubrel _ => some (.typeReg, 0x60)
  | .bdPubcomp _ => some (.inputByte, 0x70)
  | .bePubcomp _ => some (.typeReg, 0x70)
  | .bdSubscribe _ => some (.inputByte, 0x80)
  | .beSubscribe _ => some (.typeReg, 0x80)
  | .bdSuback _ => some (.inputByte, 0x90)
  | .beSuback _ => some (.typeReg, 0x90)
  | .bdUnsubscribe _ => some (.inputByte, 0xA0)
  | .beUnsubscribe _ => some (.typeReg, 0xA0)
  | .bdUnsuback _ => some (.inputByte, 0xB0)
  | .beUnsuback _ => some (.typeReg, 0xB0)
  | .bdPingreq _ => some (.inputByte, 0xC0)
  | .bePingreq _ => some (.typeReg, 0xC0)
  | .bdPingresp _ => some (.inputByte, 0xD0)
  | .bePingresp _ => some (.typeReg, 0xD0)
  | .bdDisconnect _ => some (.inputByte, 0xE0)
  | .beDisconnect _ => some (.typeReg, 0xE0)
  | .invalidType15 _ => some (.inputByte, 0xF0)
  | .cmdReserved0 => some (.cmd, 0x00)
  | .decode => some (.cmd, 0x01)
  | .encode => some (.cmd, 0x02)
  | .cmdReserved3 => some (.cmd, 0x03)
  | .extract _ _ _ => none
  | .insert _ => none
  | .decByte => none
  | .decWord => none
  | .decText => none
  | .decRest => none
  | .utf8Ok _ => none
  | .encByte _ => none
  | .encWord _ => none
  | .encText _ => none
  | .encRest _ => none
  | .rlDec => none
  | .rlDecStrict => none
  | .rlEnc _ => none
  | .tagOf _ => none
  | .codeOf _ => none
  | .fhDec => none
  | .fhEnc _ _ => none
  | .cfDec _ => none
  | .cfEnc _ => none
  | .cfDerive => none
  | .bodyDec _ _ => none
  | .bodyEnc _ => none
  | .reqCheck _ => none

/-- The encoding of `i`, its free bits masked away, is the match value of its row. -/
def Statement (i : Instr) : Prop := (encodeAt allTags i).map (fun w => (w.1, w.2 &&& mask w.1)) = rowMatch i

theorem code_bits_of_headerByte (c : BitVec 4) (h : Hdr) : headerByte c h &&& 0xF0 = BitVec.ofNat 8 (c.toNat * 16) := by
  obtain ⟨d, q, r⟩ := h
  revert c
  refine bitVec4_forall ?_
  revert q
  refine bitVec2_forall ?_
  cases d <;> cases r <;> decide

theorem row_of_code {p : Port} {m : Byte} (c : BitVec 4) (h : Hdr) (hp : mask p = 0xF0) (hm : BitVec.ofNat 8 (c.toNat * 16) = m) :
    (some (p, headerByte c h)).map (fun w => (w.1, w.2 &&& mask w.1)) = some (p, m) := by
  rw [← hm, ← code_bits_of_headerByte c h, ← hp]; rfl

theorem invalidType0 (h : Hdr) : Statement (.invalidType0 h) := row_of_code 0 h rfl (by decide)
theorem bdConnect (h : Hdr) : Statement (.bdConnect h) := row_of_code (lookupCode allTags .connect) h rfl (by decide)
theorem beConnect (h : Hdr) : Statement (.beConnect h) := row_of_code (lookupCode allTags .connect) h rfl (by decide)
theorem bdConnack (h : Hdr) : Statement (.bdConnack h) := row_of_code (lookupCode allTags .connack) h rfl (by decide)
theorem beConnack (h : Hdr) : Statement (.beConnack h) := row_of_code (lookupCode allTags .connack) h rfl (by decide)
theorem bdPublish (h : Hdr) : Statement (.bdPublish h) := row_of_code (lookupCode allTags .publish) h rfl (by decide)
theorem bePublish (h : Hdr) : Statement (.bePublish h) := row_of_code (lookupCode allTags .publish) h rfl (by decide)
theorem bdPuback (h : Hdr) : Statement (.bdPuback h) := row_of_code (lookupCode allTags .puback) h rfl (by decide)
theorem bePuback (h : Hdr) : Statement (.bePuback h) := row_of_code (lookupCode allTags .puback) h rfl (by decide)
theorem bdPubrec (h : Hdr) : Statement (.bdPubrec h) := row_of_code (lookupCode allTags .pubrec) h rfl (by decide)
theorem bePubrec (h : Hdr) : Statement (.bePubrec h) := row_of_code (lookupCode allTags .pubrec) h rfl (by decide)
theorem bdPubrel (h : Hdr) : Statement (.bdPubrel h) := row_of_code (lookupCode allTags .pubrel) h rfl (by decide)
theorem bePubrel (h : Hdr) : Statement (.bePubrel h) := row_of_code (lookupCode allTags .pubrel) h rfl (by decide)
theorem bdPubcomp (h : Hdr) : Statement (.bdPubcomp h) := row_of_code (lookupCode allTags .pubcomp) h rfl (by decide)
theorem bePubcomp (h : Hdr) : Statement (.bePubcomp h) := row_of_code (lookupCode allTags .pubcomp) h rfl (by decide)
theorem bdSubscribe (h : Hdr) : Statement (.bdSubscribe h) := row_of_code (lookupCode allTags .subscribe) h rfl (by decide)
theorem beSubscribe (h : Hdr) : Statement (.beSubscribe h) := row_of_code (lookupCode allTags .subscribe) h rfl (by decide)
theorem bdSuback (h : Hdr) : Statement (.bdSuback h) := row_of_code (lookupCode allTags .suback) h rfl (by decide)
theorem beSuback (h : Hdr) : Statement (.beSuback h) := row_of_code (lookupCode allTags .suback) h rfl (by decide)
theorem bdUnsubscribe (h : Hdr) : Statement (.bdUnsubscribe h) := row_of_code (lookupCode allTags .unsubscribe) h rfl (by decide)
theorem beUnsubscribe (h : Hdr) : Statement (.beUnsubscribe h) := row_of_code (lookupCode allTags .unsubscribe) h rfl (by decide)
theorem bdUnsuback (h : Hdr) : Statement (.bdUnsuback h) := row_of_code (lookupCode allTags .unsuback) h rfl (by decide)
theorem beUnsuback (h : Hdr) : Statement (.beUnsuback h) := row_of_code (lookupCode allTags .unsuback) h rfl (by decide)
theorem bdPingreq (h : Hdr) : Statement (.bdPingreq h) := row_of_code (lookupCode allTags .pingreq) h rfl (by decide)
theorem bePingreq (h : Hdr) : Statement (.bePingreq h) := row_of_code (lookupCode allTags .pingreq) h rfl (by decide)
theorem bdPingresp (h : Hdr) : Statement (.bdPingresp h) := row_of_code (lookupCode allTags .pingresp) h rfl (by decide)
theorem bePingresp (h : Hdr) : Statement (.bePingresp h) := row_of_code (lookupCode allTags .pingresp) h rfl (by decide)
theorem bdDisconnect (h : Hdr) : Statement (.bdDisconnect h) := row_of_code (lookupCode allTags .disconnect) h rfl (by decide)
theorem beDisconnect (h : Hdr) : Statement (.beDisconnect h) := row_of_code (lookupCode allTags .disconnect) h rfl (by decide)
theorem invalidType15 (h : Hdr) : Statement (.invalidType15 h) := row_of_code 15 h rfl (by decide)
theorem cmdReserved0 : Statement (.cmdReserved0) := rfl
theorem decode : Statement (.decode) := rfl
theorem encode : Statement (.encode) := rfl
theorem cmdReserved3 : Statement (.cmdReserved3) := rfl
theorem extract (b : Byte) (hi : Fin 8) (lo : Fin 8) : Statement (.extract b hi lo) := rfl
theorem insert (fs : List BitField) : Statement (.insert fs) := rfl
theorem decByte : Statement (.decByte) := rfl
theorem decWord : Statement (.decWord) := rfl
theorem decText : Statement (.decText) := rfl
theorem decRest : Statement (.decRest) := rfl
theorem utf8Ok (t : Bytes) : Statement (.utf8Ok t) := rfl
theorem encByte (v : Byte) : Statement (.encByte v) := rfl
theorem encWord (v : Word) : Statement (.encWord v) := rfl
theorem encText (t : Bytes) : Statement (.encText t) := rfl
theorem encRest (t : Bytes) : Statement (.encRest t) := rfl
theorem rlDec : Statement (.rlDec) := rfl
theorem rlDecStrict : Statement (.rlDecStrict) := rfl
theorem rlEnc (x : Nat) : Statement (.rlEnc x) := rfl
theorem tagOf (code : BitVec 4) : Statement (.tagOf code) := rfl
theorem codeOf (t : Tag) : Statement (.codeOf t) := rfl
theorem fhDec : Statement (.fhDec) := rfl
theorem fhEnc (t : Tag) (h : Hdr) : Statement (.fhEnc t h) := rfl
theorem cfDec (f : Byte) : Statement (.cfDec f) := rfl
theorem cfEnc (fl : ConnFlags) : Statement (.cfEnc fl) := rfl
theorem cfDerive : Statement (.cfDerive) := rfl
theorem bodyDec (t : Tag) (qos : BitVec 2) : Statement (.bodyDec t qos) := rfl
theorem bodyEnc (t : Tag) : Statement (.bodyEnc t) := rfl
theorem reqCheck (t : Tag) : Statement (.reqCheck t) := rfl

end Sys2Proof.Laws.EncodingFitsTable
end

