-- ==== Sys2Proof/Laws/Utf8.lean ====
section
/-! SUPPORT. The UTF-8 test against the table of R106: one character is stripped exactly where one row matches, and the test says whether the bytes are a concatenation of matches. -/

namespace Sys2Proof.Machine

theorem stripRow_eq_some {row : List (Byte × Byte)} {s r : Bytes} :
    stripRow row s = some r ↔ ∃ c, s = c ++ r ∧ matchesRow row c := by
  induction row generalizing s with
  | nil =>
    constructor
    · intro h
      cases h
      exact ⟨[], rfl, .nil⟩
    · rintro ⟨c, rfl, h⟩
      cases h
      rfl
  | cons p row ih =>
    obtain ⟨lo, hi⟩ := p
    cases s with
    | nil =>
      constructor
      · intro h; cases h
      · rintro ⟨c, h, hm⟩
        cases hm
        cases h
    | cons b s =>
      unfold stripRow
      constructor
      · intro h
        split at h
        · rename_i hb
          obtain ⟨c, rfl, hm⟩ := ih.1 h
          exact ⟨b :: c, rfl, .cons hb hm⟩
        · cases h
      · rintro ⟨c, h, hm⟩
        cases hm with
        | cons hb hm =>
          cases h
          rw [if_pos hb]
          exact ih.2 ⟨_, rfl, hm⟩

/-- The lead byte that a row begins with. -/
def leadOf (row : List (Byte × Byte)) (b : Byte) : Bool :=
  match row with
  | [] => false
  | (lo, hi) :: _ => decide (lo.toNat ≤ b.toNat ∧ b.toNat ≤ hi.toNat)

/-- No two rows of the table begin with the same byte. -/
theorem utf8Rows_lead_unique (b : Byte) : (utf8Rows.filter fun r => leadOf r b).length ≤ 1 := by
  obtain ⟨n⟩ := b
  revert n
  decide +kernel

theorem utf8Rows_ne_nil {row : List (Byte × Byte)} (h : row ∈ utf8Rows) : row ≠ [] := by
  revert row
  decide

theorem matchesRow_lead {row : List (Byte × Byte)} {c : Bytes} (h : matchesRow row c) (hr : row ≠ []) :
    ∃ b c', c = b :: c' ∧ leadOf row b = true := by
  cases h with
  | nil => exact absurd rfl hr
  | cons hb _ => exact ⟨_, _, rfl, decide_eq_true hb⟩

/-- A row of the table is determined by the lead byte of what it matches. -/
theorem row_unique {r1 r2 : List (Byte × Byte)} {b : Byte} (h1 : r1 ∈ utf8Rows) (h2 : r2 ∈ utf8Rows)
    (hb1 : leadOf r1 b = true) (hb2 : leadOf r2 b = true) : r1 = r2 := by
  have m1 : r1 ∈ utf8Rows.filter fun r => leadOf r b := List.mem_filter.2 ⟨h1, hb1⟩
  have m2 : r2 ∈ utf8Rows.filter fun r => leadOf r b := List.mem_filter.2 ⟨h2, hb2⟩
  have hl := utf8Rows_lead_unique b
  match hf : utf8Rows.filter fun r => leadOf r b with
  | [] => rw [hf] at m1; cases m1
  | [r] =>
    rw [hf] at m1 m2
    exact (List.mem_singleton.1 m1).trans (List.mem_singleton.1 m2).symm
  | _ :: _ :: _ => rw [hf] at hl; simp at hl

theorem matchesRow_length {row : List (Byte × Byte)} {c : Bytes} (h : matchesRow row c) : c.length = row.length :=
  (List.Forall₂.length_eq h).symm

/-- One character is stripped exactly where it matches a row. -/
theorem stripChar_eq_some {s r : Bytes} :
    stripChar s = some r ↔ ∃ c, s = c ++ r ∧ ∃ row ∈ utf8Rows, matchesRow row c := by
  constructor
  · intro h
    obtain ⟨row, hm, hr⟩ := List.exists_of_findSome?_eq_some h
    obtain ⟨c, hc, hmr⟩ := stripRow_eq_some.1 hr
    exact ⟨c, hc, row, hm, hmr⟩
  · rintro ⟨c, rfl, row, hm, hmr⟩
    have hsome : (stripChar (c ++ r)).isSome = true := by
      rw [stripChar, List.findSome?_isSome_iff]
      exact ⟨row, hm, by rw [stripRow_eq_some.2 ⟨c, rfl, hmr⟩]; rfl⟩
    obtain ⟨r', hr'⟩ := Option.isSome_iff_exists.1 hsome
    obtain ⟨row', hm', hs'⟩ := List.exists_of_findSome?_eq_some hr'
    obtain ⟨c', hc', hmr'⟩ := stripRow_eq_some.1 hs'
    obtain ⟨b, d, rfl, hb⟩ := matchesRow_lead hmr (utf8Rows_ne_nil hm)
    obtain ⟨b', d', rfl, hb'⟩ := matchesRow_lead hmr' (utf8Rows_ne_nil hm')
    have hbb : b = b' := (List.cons.inj hc').1
    subst hbb
    have hrow := row_unique hm hm' hb hb'
    subst hrow
    have hlen := (matchesRow_length hmr).trans (matchesRow_length hmr').symm
    rw [hr', (List.append_inj hc' hlen).2]

/-- A stripped character has at least one byte. -/
theorem stripChar_length {s r : Bytes} (h : stripChar s = some r) : r.length < s.length := by
  obtain ⟨c, rfl, row, hm, hmr⟩ := stripChar_eq_some.1 h
  obtain ⟨b, d, rfl, _⟩ := matchesRow_lead hmr (utf8Rows_ne_nil hm)
  simp

theorem utf8From_iff (fuel : Nat) (s : Bytes) (h : s.length ≤ fuel) :
    utf8From fuel s = true ↔ ∃ cs : List Bytes, s = cs.flatten ∧ ∀ c ∈ cs, ∃ row ∈ utf8Rows, matchesRow row c := by
  induction fuel generalizing s with
  | zero =>
    cases s with
    | nil => exact ⟨fun _ => ⟨[], rfl, by simp⟩, fun _ => rfl⟩
    | cons b s => simp at h
  | succ fuel ih =>
    cases s with
    | nil => exact ⟨fun _ => ⟨[], rfl, by simp⟩, fun _ => rfl⟩
    | cons b s =>
      rw [utf8From]
      constructor
      · intro hu
        split at hu
        · rename_i rest hr
          have hl := stripChar_length hr
          obtain ⟨cs, hcs, hall⟩ := (ih rest (by omega)).1 hu
          obtain ⟨c, hc, hrow⟩ := stripChar_eq_some.1 hr
          exact ⟨c :: cs, by rw [hc, hcs]; rfl, by
            intro x hx
            rcases List.mem_cons.1 hx with rfl | hx'
            · exact hrow
            · exact hall x hx'⟩
        · cases hu
      · rintro ⟨cs, hcs, hall⟩
        cases cs with
        | nil => cases hcs
        | cons c cs =>
          have hr := stripChar_eq_some.2 ⟨c, hcs, hall c (.head _)⟩
          have hl := stripChar_length hr
          rw [hr]
          exact (ih _ (by omega)).2 ⟨cs, rfl, fun x hx => hall x (.tail _ hx)⟩

/-- `UTF8_OK` is the predicate of R106. -/
theorem utf8Ok_iff (s : Bytes) :
    utf8Ok s = true ↔ ∃ cs : List Bytes, s = cs.flatten ∧ ∀ c ∈ cs, ∃ row ∈ utf8Rows, matchesRow row c :=
  utf8From_iff s.length s (Nat.le_refl _)

end Sys2Proof.Machine
end

