-- ==== Sys2Proof/Tests/Slice0.lean ====
section
/-! SUPPORT. Tests: words written out from the encoding tables, ill-formed terms that WellFormed refuses, vectors of spec/95_test_vectors.md, and for every statement with hypotheses a concrete state and operands that meet them. -/

namespace Sys2Proof.Tests

open Sys2Proof Sys2Proof.Machine

set_option Elab.async false

/-! ### Small states -/

def nextOf (o : Host.Outcome State Fault Refusal) : Option State :=
  match o with
  | .next t => some t
  | .fault _ => none
  | .refused _ => none

/-- The reset state with `bs` in `IB`. -/
def loaded (bs : Bytes) : State :=
  { State.reset with ib := Mem.writeBytes [] 0 bs, ibLen := BitVec.ofNat 29 bs.length }

/-- Inside a command on `bs`, the cursor at `cur` and the bound at `lim`. -/
def atCursor (bs : Bytes) (cur lim : Nat) : State :=
  (loaded bs).setWork { Work.start (loaded bs) with cur := cur, lim := lim }

/-- The reset state with a Packet's registers. -/
def holding (q : Packet) : State := { State.reset with pkt := q.regs Build.default }

def isNext (o : Host.Outcome State Fault Refusal) (t : State) : Bool := decide (nextOf o = some t)

/-- After a step with `CMD` = 1: the Packet, the bytes consumed, the status. -/
def decoded (s : State) : Option (Option Packet × Nat × Nat) :=
  (nextOf (step { s with cmd := some 1 })).map fun t => (packetOf t.build t.pkt, t.consumed.toNat, t.status.toNat)

/-- After a step with `CMD` = 1 that ends in an error: the code and the position; none where `PKT` or `CONSUMED` moved. -/
def decodeError (s : State) : Option (Nat × Nat) :=
  (nextOf (step { s with cmd := some 1 })).bind fun t =>
    if t.status = 6 ∧ t.pkt = s.pkt ∧ t.consumed = s.consumed then some (t.errcode.toNat, t.errpos.toNat) else none

/-- After a step with `CMD` = 2: the output. -/
def encoded (s : State) : Option Bytes :=
  (nextOf (step { s with cmd := some 2 })).bind fun t => if t.status = 2 then some t.output else none

/-- After a step with `CMD` = 2 that ends in an error: the code and the position. -/
def encodeError (s : State) : Option (Nat × Nat) :=
  (nextOf (step { s with cmd := some 2 })).bind fun t =>
    if t.status = 6 ∧ t.obLen = s.obLen then some (t.errcode.toNat, t.errpos.toNat) else none

/-- The value an internal operation returns. -/
def resultOf (i : Instr) (s : State) : Option Val :=
  (nextOf (exec i s)).bind fun t => t.work.map (·.result)

/-- The image an internal operation leaves. -/
def imageOf (i : Instr) (s : State) : Option Bytes :=
  (nextOf (exec i s)).bind fun t => t.work.map (·.image)

/-- The code and the position of the error an internal operation raises. -/
def raisedBy (i : Instr) (s : State) : Option (Nat × Nat) :=
  (nextOf (exec i s)).bind fun t => if t.status = 6 then some (t.errcode.toNat, t.errpos.toNat) else none

/-! ### Words written out from the encoding tables (R73, R80, R85) -/

theorem test_decode_body_decoder_words :
    decodeAt allTags .inputByte 0b00010000 = .ok (.bdConnect ⟨false, 0, false⟩) ∧
    decodeAt allTags .inputByte 0b00100001 = .ok (.bdConnack ⟨false, 0, true⟩) ∧
    decodeAt allTags .inputByte 0b00111101 = .ok (.bdPublish ⟨true, 2, true⟩) ∧
    decodeAt allTags .inputByte 0b01000010 = .ok (.bdPuback ⟨false, 1, false⟩) ∧
    decodeAt allTags .inputByte 0b01010100 = .ok (.bdPubrec ⟨false, 2, false⟩) ∧
    decodeAt allTags .inputByte 0b01101000 = .ok (.bdPubrel ⟨true, 0, false⟩) ∧
    decodeAt allTags .inputByte 0b01110000 = .ok (.bdPubcomp ⟨false, 0, false⟩) ∧
    decodeAt allTags .inputByte 0b10000010 = .ok (.bdSubscribe ⟨false, 1, false⟩) ∧
    decodeAt allTags .inputByte 0b10010001 = .ok (.bdSuback ⟨false, 0, true⟩) ∧
    decodeAt allTags .inputByte 0b10100011 = .ok (.bdUnsubscribe ⟨false, 1, true⟩) ∧
    decodeAt allTags .inputByte 0b10111000 = .ok (.bdUnsuback ⟨true, 0, false⟩) ∧
    decodeAt allTags .inputByte 0b11000000 = .ok (.bdPingreq ⟨false, 0, false⟩) ∧
    decodeAt allTags .inputByte 0b11011001 = .ok (.bdPingresp ⟨true, 0, true⟩) ∧
    decodeAt allTags .inputByte 0b11100100 = .ok (.bdDisconnect ⟨false, 2, false⟩) := by decide +kernel

theorem test_decode_body_encoder_words :
    decodeAt allTags .typeReg 0b00010000 = .ok (.beConnect ⟨false, 0, false⟩) ∧
    decodeAt allTags .typeReg 0b00100001 = .ok (.beConnack ⟨false, 0, true⟩) ∧
    decodeAt allTags .typeReg 0b00111101 = .ok (.bePublish ⟨true, 2, true⟩) ∧
    decodeAt allTags .typeReg 0b01000010 = .ok (.bePuback ⟨false, 1, false⟩) ∧
    decodeAt allTags .typeReg 0b01010100 = .ok (.bePubrec ⟨false, 2, false⟩) ∧
    decodeAt allTags .typeReg 0b01101000 = .ok (.bePubrel ⟨true, 0, false⟩) ∧
    decodeAt allTags .typeReg 0b01110000 = .ok (.bePubcomp ⟨false, 0, false⟩) ∧
    decodeAt allTags .typeReg 0b10000010 = .ok (.beSubscribe ⟨false, 1, false⟩) ∧
    decodeAt allTags .typeReg 0b10010001 = .ok (.beSuback ⟨false, 0, true⟩) ∧
    decodeAt allTags .typeReg 0b10100011 = .ok (.beUnsubscribe ⟨false, 1, true⟩) ∧
    decodeAt allTags .typeReg 0b10111000 = .ok (.beUnsuback ⟨true, 0, false⟩) ∧
    decodeAt allTags .typeReg 0b11000000 = .ok (.bePingreq ⟨false, 0, false⟩) ∧
    decodeAt allTags .typeReg 0b11011001 = .ok (.bePingresp ⟨true, 0, true⟩) ∧
    decodeAt allTags .typeReg 0b11100100 = .ok (.beDisconnect ⟨false, 2, false⟩) := by decide +kernel

theorem test_decode_invalid_types_and_commands :
    decodeAt allTags .inputByte 0b00000110 = .ok (.invalidType0 ⟨false, 3, false⟩) ∧
    decodeAt allTags .inputByte 0b11110000 = .ok (.invalidType15 ⟨false, 0, false⟩) ∧
    decodeAt allTags .cmd 0b00 = .ok .cmdReserved0 ∧ decodeAt allTags .cmd 0b01 = .ok .decode ∧
    decodeAt allTags .cmd 0b10 = .ok .encode ∧ decodeAt allTags .cmd 0b11 = .ok .cmdReserved3 ∧
    decodeAt allTags .cmd 0b100 = .error .cmdTooWide ∧
    decodeAt allTags .inputByte 0b00010110 = .error .reservedQoS ∧ decodeAt allTags .typeReg 0b00110111 = .error .reservedQoS := by
  decide +kernel

theorem test_encode_writes_the_word :
    encode (.bdPublish ⟨true, 2, true⟩) = [0x3D] ∧ encode (.beSubscribe ⟨false, 1, false⟩) = [0x82] ∧ encode .encode = [0x02] ∧
    encode .decByte = [] := by decide +kernel

/-! ### WellFormed: one ill-formed term for each check -/

theorem test_wellFormed_refuses_reserved_qos :
    (Instr.bdConnect ⟨false, 3, false⟩).wellFormed = false ∧ (Instr.beConnect ⟨false, 3, false⟩).wellFormed = false ∧
    (Instr.bdConnack ⟨false, 3, false⟩).wellFormed = false ∧ (Instr.beConnack ⟨false, 3, false⟩).wellFormed = false ∧
    (Instr.bdPublish ⟨true, 3, true⟩).wellFormed = false ∧ (Instr.bePublish ⟨true, 3, true⟩).wellFormed = false ∧
    (Instr.bdPuback ⟨false, 3, false⟩).wellFormed = false ∧ (Instr.bePuback ⟨false, 3, false⟩).wellFormed = false ∧
    (Instr.bdPubrec ⟨false, 3, false⟩).wellFormed = false ∧ (Instr.bePubrec ⟨false, 3, false⟩).wellFormed = false ∧
    (Instr.bdPubrel ⟨false, 3, false⟩).wellFormed = false ∧ (Instr.bePubrel ⟨false, 3, false⟩).wellFormed = false ∧
    (Instr.bdPubcomp ⟨false, 3, false⟩).wellFormed = false ∧ (Instr.bePubcomp ⟨false, 3, false⟩).wellFormed = false ∧
    (Instr.bdSubscribe ⟨false, 3, false⟩).wellFormed = false ∧ (Instr.beSubscribe ⟨false, 3, false⟩).wellFormed = false ∧
    (Instr.bdSuback ⟨false, 3, false⟩).wellFormed = false ∧ (Instr.beSuback ⟨false, 3, false⟩).wellFormed = false ∧
    (Instr.bdUnsubscribe ⟨false, 3, false⟩).wellFormed = false ∧ (Instr.beUnsubscribe ⟨false, 3, false⟩).wellFormed = false ∧
    (Instr.bdUnsuback ⟨false, 3, false⟩).wellFormed = false ∧ (Instr.beUnsuback ⟨false, 3, false⟩).wellFormed = false ∧
    (Instr.bdPingreq ⟨false, 3, false⟩).wellFormed = false ∧ (Instr.bePingreq ⟨false, 3, false⟩).wellFormed = false ∧
    (Instr.bdPingresp ⟨false, 3, false⟩).wellFormed = false ∧ (Instr.bePingresp ⟨false, 3, false⟩).wellFormed = false ∧
    (Instr.bdDisconnect ⟨false, 3, false⟩).wellFormed = false ∧ (Instr.beDisconnect ⟨false, 3, false⟩).wellFormed = false ∧
    (Instr.fhEnc .connect ⟨false, 3, false⟩).wellFormed = false ∧ (Instr.bodyDec .publish 3).wellFormed = false := by decide +kernel

theorem test_wellFormed_refuses_bad_operands :
    (Instr.extract 0x1D 3 4).wellFormed = false ∧
    (Instr.insert [⟨1, 0, 1⟩]).wellFormed = false ∧ (Instr.insert [⟨4, 2, 1⟩]).wellFormed = false ∧
    (Instr.insert [⟨1, 7, 4⟩, ⟨0, 4, 3⟩]).wellFormed = false ∧
    (Instr.tagOf 0).wellFormed = false ∧ (Instr.tagOf 15).wellFormed = false := by decide +kernel

theorem test_wellFormed_accepts :
    (Instr.extract 0x1D 7 7).wellFormed = true ∧ (Instr.insert [⟨15, 7, 4⟩, ⟨3, 2, 1⟩]).wellFormed = true ∧
    (Instr.tagOf 14).wellFormed = true ∧ (Instr.bdPublish ⟨true, 2, true⟩).wellFormed = true := by decide +kernel

/-! ### Operations: the vectors of 95_test_vectors.md, part 2, sections 1 to 4 -/

theorem test_extract_and_insert :
    resultOf (.extract 0x1D 7 4) .reset = some (.byte 1) ∧ resultOf (.extract 0x1D 2 1) .reset = some (.byte 2) ∧
    resultOf (.extract 0xFF 6 0) .reset = some (.byte 127) ∧
    resultOf (.insert [⟨1, 7, 4⟩, ⟨1, 3, 3⟩, ⟨2, 2, 1⟩, ⟨1, 0, 0⟩]) .reset = some (.byte 0x1D) ∧
    resultOf (.insert []) .reset = some (.byte 0) := by decide +kernel

theorem test_decByte_and_decWord :
    resultOf .decByte (atCursor [0xFF] 0 1) = some (.byte 255) ∧ raisedBy .decByte (atCursor [] 0 0) = some (2, 0) ∧
    resultOf .decWord (atCursor [0x12, 0x34] 0 2) = some (.word 4660) ∧ raisedBy .decWord (atCursor [0x00] 0 1) = some (2, 0) := by
  decide +kernel

theorem test_decText :
    (nextOf (exec .decText (atCursor [0x00, 0x03, 0x61, 0x2F, 0x62, 0x63] 0 6))).map (fun t => (t.working.cur, t.working.result))
      = some (5, .text [0x61, 0x2F, 0x62]) ∧
    raisedBy .decText (atCursor [0x00, 0x03, 0x61, 0x2F] 0 4) = some (2, 0) ∧
    raisedBy .decText (atCursor [0x00, 0x01, 0xC3] 0 3) = some (3, 0) ∧
    raisedBy .decText (atCursor [0x00, 0x05, 0xC3] 0 3) = some (2, 0) := by decide +kernel

theorem test_decRest :
    resultOf .decRest (atCursor [0x68, 0x69] 0 2) = some (.text [0x68, 0x69]) ∧ resultOf .decRest (atCursor [0x68] 1 1) = some (.text []) ∧
    raisedBy .decRest (atCursor [0xFF] 0 1) = some (3, 0) := by decide +kernel

theorem test_utf8Ok_accepts :
    ∀ t ∈ ([[], [0x00], [0x7F], [0xC2, 0x80], [0xE0, 0xA0, 0x80], [0xED, 0x9F, 0xBF], [0xEF, 0xBB, 0xBF], [0xF0, 0x90, 0x80, 0x80],
      [0xF0, 0x9F, 0x98, 0x80], [0xF4, 0x8F, 0xBF, 0xBF]] : List Bytes), resultOf (.utf8Ok t) .reset = some (.bool true) := by decide +kernel

theorem test_utf8Ok_refuses :
    ∀ t ∈ ([[0x80], [0xC0, 0x80], [0xC1, 0xBF], [0xE0, 0x9F, 0xBF], [0xED, 0xA0, 0x80], [0xF0, 0x8F, 0xBF, 0xBF], [0xF4, 0x90, 0x80, 0x80],
      [0xF5, 0x80, 0x80, 0x80], [0xFF], [0xC3], [0x61, 0xC3, 0x62]] : List Bytes), resultOf (.utf8Ok t) .reset = some (.bool false) := by
  decide +kernel

theorem test_encode_primitives :
    imageOf (.encByte 3) .reset = some [0x03] ∧ imageOf (.encWord 60) .reset = some [0x00, 0x3C] ∧
    imageOf (.encText [0xC3, 0xA9]) .reset = some [0x00, 0x02, 0xC3, 0xA9] ∧ raisedBy (.encText [0xC3]) .reset = some (3, 0) ∧
    imageOf (.encRest [0x68, 0x69]) .reset = some [0x68, 0x69] ∧ raisedBy (.encRest [0xFF]) .reset = some (3, 0) := by decide +kernel

theorem test_rlEnc :
    imageOf (.rlEnc 0) .reset = some [0x00] ∧ imageOf (.rlEnc 321) .reset = some [0xC1, 0x02] ∧
    imageOf (.rlEnc 16384) .reset = some [0x80, 0x80, 0x01] ∧ imageOf (.rlEnc 2097152) .reset = some [0x80, 0x80, 0x80, 0x01] ∧
    imageOf (.rlEnc 268435455) .reset = some [0xFF, 0xFF, 0xFF, 0x7F] ∧ raisedBy (.rlEnc 268435456) .reset = some (7, 0) := by
  decide +kernel

theorem test_rlDec :
    resultOf .rlDec (atCursor [0xFF, 0xFF, 0x7F] 0 3) = some (.length 2097151) ∧
    resultOf .rlDec (atCursor [0xFF, 0x80, 0x00] 0 3) = some (.length 127) ∧
    (nextOf (exec .rlDec (atCursor [0xFF, 0xFF, 0xFF, 0xFF, 0x7F] 0 5))).map (fun t => (t.working.cur, t.working.result))
      = some (4, .length 268435455) ∧
    raisedBy .rlDec (atCursor [0xFF, 0xFF] 0 2) = some (2, 0) := by decide +kernel

theorem test_rlDecStrict :
    raisedBy .rlDecStrict (atCursor [0x81, 0x80, 0x80, 0x80] 0 4) = some (5, 0) ∧
    resultOf .rlDecStrict (atCursor [0x80, 0x80, 0x80, 0x00] 0 4) = some (.length 0) ∧
    raisedBy .rlDec { atCursor [0x80, 0x80, 0x80, 0x80] 0 4 with cfg := 1 } = some (5, 0) := by decide +kernel

theorem test_type_code_lookups :
    resultOf (.tagOf 3) .reset = some (.tag .publish) ∧ resultOf (.tagOf 14) .reset = some (.tag .disconnect) ∧
    resultOf (.codeOf .connect) .reset = some (.code 1) ∧ resultOf (.codeOf .subscribe) .reset = some (.code 8) := by decide +kernel

theorem test_fhDec :
    resultOf .fhDec (loaded [0x1D, 0x00]) = some (.header ⟨.connect, ⟨true, 2, true⟩, 2, 0⟩) ∧
    raisedBy .fhDec (loaded [0xF6]) = some (1, 0) ∧ raisedBy .fhDec (loaded [0x16]) = some (6, 0) ∧
    raisedBy .fhDec (loaded [0x30, 0x05, 0x00, 0x03, 0x61]) = some (2, 2) := by decide +kernel

theorem test_fhEnc :
    imageOf (.fhEnc .pingreq ⟨false, 0, false⟩) .reset = some [0xC0, 0x00] ∧
    imageOf (.fhEnc .connect ⟨true, 2, true⟩) .reset = some [0x1D, 0x00] ∧
    (imageOf (.fhEnc .publish ⟨false, 0, false⟩)
      (State.reset.setWork { Work.start State.reset with image := List.replicate 128 0x78 })).map (List.take 4)
      = some [0x30, 0x80, 0x01, 0x78] := by decide +kernel

theorem test_connect_flags :
    resultOf (.cfDec 0xF6) .reset = some (.flags ⟨true, true, true, 2, true, true⟩) ∧
    resultOf (.cfDec 0x03) .reset = some (.flags ⟨false, false, false, 0, false, true⟩) ∧
    resultOf (.cfDec 0x3A) .reset = some (.flags ⟨false, false, true, 3, false, true⟩) ∧
    resultOf (.cfEnc ⟨true, true, true, 2, true, true⟩) .reset = some (.byte 0xF6) ∧
    resultOf (.cfEnc ⟨true, false, false, 0, false, true⟩) .reset = some (.byte 0x82) ∧
    resultOf (.cfEnc ⟨false, false, false, 3, true, true⟩) .reset = some (.byte 0x1E) := by decide +kernel

/-! ### Packets: part 1 (V3 to V5) and part 2, sections 3 and 5 to 8 -/

/-- The CONNECT of V3. -/
def v3Image : Bytes :=
  [0x10, 0x43, 0x00, 0x06, 0x4D, 0x51, 0x49, 0x73, 0x64, 0x70, 0x03, 0xF6, 0x00, 0x3C, 0x00, 0x0B, 0x74, 0x65, 0x73, 0x74, 0x5F, 0x63,
   0x6C, 0x69, 0x65, 0x6E, 0x74, 0x00, 0x09, 0x74, 0x65, 0x73, 0x74, 0x2F, 0x74, 0x65, 0x73, 0x74, 0x00, 0x0F, 0x54, 0x68, 0x69, 0x73,
   0x20, 0x69, 0x73, 0x20, 0x61, 0x20, 0x74, 0x65, 0x73, 0x74, 0x2E, 0x00, 0x05, 0x61, 0x64, 0x6D, 0x69, 0x6E, 0x00, 0x05, 0x61, 0x64,
   0x6D, 0x69, 0x6E]

def v3Packet : Packet :=
  ⟨.connect, false, 0, false, .connect [0x4D, 0x51, 0x49, 0x73, 0x64, 0x70] 3 true 60
    [0x74, 0x65, 0x73, 0x74, 0x5F, 0x63, 0x6C, 0x69, 0x65, 0x6E, 0x74]
    (some ⟨[0x74, 0x65, 0x73, 0x74, 0x2F, 0x74, 0x65, 0x73, 0x74],
      [0x54, 0x68, 0x69, 0x73, 0x20, 0x69, 0x73, 0x20, 0x61, 0x20, 0x74, 0x65, 0x73, 0x74, 0x2E], 2, true⟩)
    (some [0x61, 0x64, 0x6D, 0x69, 0x6E]) (some [0x61, 0x64, 0x6D, 0x69, 0x6E])⟩

theorem test_connect_decodes : decoded (loaded v3Image) = some (some v3Packet, 69, 2) := by decide +kernel

theorem test_connect_encodes : encoded (holding v3Packet) = some v3Image := by decide +kernel

theorem test_cfDerive_of_connect :
    resultOf .cfDerive (holding v3Packet) = some (.flags ⟨true, true, true, 2, true, true⟩) := by decide +kernel

/-- Images that both commands map to each other, one per type but connect (section 5). -/
def canonical : List (Bytes × Packet) :=
  [([0x20, 0x01, 0xFF], ⟨.connack, false, 0, false, .connack 255⟩),
   ([0x30, 0x07, 0x00, 0x03, 0x61, 0x2F, 0x62, 0x68, 0x69], ⟨.publish, false, 0, false, .publish [0x61, 0x2F, 0x62] none [0x68, 0x69]⟩),
   ([0x3D, 0x07, 0x00, 0x03, 0x61, 0x2F, 0x62, 0x12, 0x34], ⟨.publish, true, 2, true, .publish [0x61, 0x2F, 0x62] (some 4660) []⟩),
   ([0x40, 0x02, 0x00, 0x0A], ⟨.puback, false, 0, false, .msgIdOnly 10⟩),
   ([0x50, 0x02, 0x00, 0x0A], ⟨.pubrec, false, 0, false, .msgIdOnly 10⟩),
   ([0x62, 0x02, 0x00, 0x0A], ⟨.pubrel, false, 1, false, .msgIdOnly 10⟩),
   ([0x70, 0x02, 0x00, 0x0A], ⟨.pubcomp, false, 0, false, .msgIdOnly 10⟩),
   ([0x82, 0x0C, 0x00, 0x01, 0x00, 0x03, 0x61, 0x2F, 0x62, 0x01, 0x00, 0x01, 0x63, 0x02],
     ⟨.subscribe, false, 1, false, .subscribe 1 [([0x61, 0x2F, 0x62], 1), ([0x63], 2)]⟩),
   ([0x90, 0x04, 0x00, 0x01, 0x01, 0x02], ⟨.suback, false, 0, false, .suback 1 [1, 2]⟩),
   ([0xA2, 0x0A, 0x00, 0x02, 0x00, 0x03, 0x61, 0x2F, 0x62, 0x00, 0x01, 0x63],
     ⟨.unsubscribe, false, 1, false, .unsubscribe 2 [[0x61, 0x2F, 0x62], [0x63]]⟩),
   ([0xB0, 0x02, 0xFF, 0xFF], ⟨.unsuback, false, 0, false, .msgIdOnly 65535⟩),
   ([0xC0, 0x00], ⟨.pingreq, false, 0, false, .empty⟩),
   ([0xD0, 0x00], ⟨.pingresp, false, 0, false, .empty⟩),
   ([0xE0, 0x00], ⟨.disconnect, false, 0, false, .empty⟩)]

theorem test_each_type_decodes : ∀ e ∈ canonical, decoded (loaded e.1) = some (some e.2, e.1.length, 2) := by decide +kernel

theorem test_each_type_encodes : ∀ e ∈ canonical, encoded (holding e.2) = some e.1 := by decide +kernel

/-- Errors of a DECODE with their code and position (sections 3 and 7). -/
def badImages : List (Bytes × Nat × Nat) :=
  [([], 2, 0), ([0x00], 1, 0), ([0x06, 0x00], 1, 0), ([0xF0, 0x00], 1, 0), ([0x36, 0x00], 6, 0), ([0x30], 2, 1), ([0x30, 0x80], 2, 1),
   ([0x30, 0xFF, 0xFF, 0xFF], 2, 1), ([0x30, 0xFF, 0xFF, 0xFF, 0xFF], 2, 5), ([0x1D, 0x00], 2, 2), ([0x40, 0x01, 0x00, 0x0A], 2, 2),
   ([0x20, 0x00], 2, 2), ([0x30, 0x04, 0x00, 0x03, 0x61, 0x2F, 0x62], 2, 2), ([0x32, 0x06, 0x00, 0x03, 0x61, 0x2F, 0x62, 0x00], 2, 7),
   ([0x30, 0x05, 0x00, 0x03, 0xED, 0xA0, 0x80], 3, 2), ([0x30, 0x06, 0x00, 0x03, 0x61, 0x2F, 0x62, 0xC3], 3, 7),
   ([0x82, 0x07, 0x00, 0x01, 0x00, 0x03, 0x61, 0x2F, 0x62], 2, 9), ([0x82, 0x06, 0x00, 0x01, 0x00, 0x01, 0xFF, 0x00], 3, 4),
   ([0x90, 0x01, 0x00], 2, 2), ([0xA2, 0x04, 0x00, 0x02, 0x00, 0x01], 2, 4), ([0x10, 0x07, 0x00, 0x00, 0x00, 0x00, 0x00, 0x00, 0x00], 2, 8)]

theorem test_decode_errors : ∀ e ∈ badImages, decodeError (loaded e.1) = some e.2 := by decide +kernel

theorem test_decode_strict_and_capacity :
    decodeError { loaded [0xC0, 0x80, 0x80, 0x80, 0x80] with cfg := 1 } = some (5, 1) ∧
    decoded (loaded [0xC0, 0x80, 0x80, 0x80, 0x80, 0xAA]) = some (some ⟨.pingreq, false, 0, false, .empty⟩, 5, 2) ∧
    decodeError { loaded [0x90, 0x05, 0x00, 0x01, 0x00, 0x01, 0x02] with build := { Build.default with listCap := some 2 } } = some (8, 6) := by
  decide +kernel

theorem test_connack_pad :
    decoded { loaded [0x20, 0x02, 0xFF, 0x05] with build := { Build.default with connackPad := 1 } }
      = some (some ⟨.connack, false, 0, false, .connack 5⟩, 4, 2) ∧
    encoded { holding ⟨.connack, false, 0, false, .connack 5⟩ with build := { Build.default with connackPad := 1 } }
      = some [0x20, 0x02, 0x00, 0x05] := by decide +kernel

/-- Errors of an ENCODE with their code (section 8); the position is 0. -/
theorem test_encode_errors :
    encodeError .reset = some (4, 0) ∧
    encodeError { State.reset with pkt := { Pkt.empty with ptype := some 15, qos := 3 } } = some (1, 0) ∧
    encodeError { State.reset with pkt := { Pkt.empty with ptype := some 4, qos := 3, msgId := some 1 } } = some (6, 0) ∧
    encodeError { State.reset with pkt := { Pkt.empty with ptype := some 4 } } = some (4, 0) ∧
    encodeError { State.reset with pkt := { Pkt.empty with ptype := some 3, qos := 1, topic := some [0x61], payload := some [] } } = some (4, 0) ∧
    encodeError { State.reset with pkt := { Pkt.empty with ptype := some 3, topic := some [0xC3], payload := some [] } } = some (3, 0) ∧
    encodeError { holding ⟨.pingreq, false, 0, false, .empty⟩ with build := { Build.default with obCap := 1 } } = some (8, 0) := by
  decide +kernel

theorem test_empty_username_is_not_sent :
    encoded { State.reset with
      pkt := { (v3Packet.regs Build.default) with
        protoName := some [], clientId := some [], willTopic := none, willMessage := none, willQos := none, willRetain := none,
        username := some [], password := some [0x70] } }
      = some [0x10, 0x0B, 0x00, 0x00, 0x03, 0x42, 0x00, 0x3C, 0x00, 0x00, 0x00, 0x01, 0x70] := by decide +kernel

/-! ### The step and the table words -/

theorem test_idle_and_reserved :
    isNext (step State.reset) State.reset = true ∧ nextOf (step { State.reset with cmd := some 0 }) = none ∧
    nextOf (step { State.reset with cmd := some 3 }) = none := by decide +kernel

/-- The write of 1 to `CMD` clears `DONE` and `ERR` at once (R35, R212); `ERRCODE` stays until the command ends (R36). -/
theorem test_cmd_write_clears_done_and_err :
    (nextOf (({ State.reset with status := 6, errcode := 2, errpos := 1 } : State).hostWrite (.cmd 1))).map
      (fun t => (t.status, t.errcode, t.cmd)) = some (0, 2, some 1) ∧
    (nextOf (({ State.reset with status := 2 } : State).hostWrite (.cmd 3))).map (fun t => t.status) = some 2 := by decide +kernel

theorem test_table_word_is_run :
    decodeTableWord 8 0xC0 = some (.bdPingreq ⟨false, 0, false⟩) ∧ decodeTableWord 8 0x02 = some .encode ∧
    (nextOf (step (State.reset.withFetchWord 8 0xC0))).map (fun t => (t.pkt.ptype, t.consumed, t.status)) = some (some 12, 2, 2) ∧
    (nextOf (step (State.reset.withFetchWord 8 0x02))).map (fun t => (t.errcode, t.status)) = some (4, 6) := by decide +kernel

/-! ### Witnesses: for every statement with hypotheses, states and operands that meet them -/

theorem holds_of {s : State} {a : Nat} {bs : Bytes}
    (h : ((List.range bs.length).all fun i => s.ib.read (a + i) == bs.getD i 0) = true) : s.Holds a bs := by
  intro i hi
  exact eq_of_beq (List.all_eq_true.1 h i (List.mem_range.2 hi))

theorem inputAt_of {s : State} {bs : Bytes}
    (h : (s.inputOk s.working.lim && decide (s.working.cur + bs.length ≤ s.working.lim)
      && (List.range bs.length).all fun i => s.ib.read (s.working.cur + i) == bs.getD i 0) = true) : s.InputAt bs := by
  rw [Bool.and_eq_true, Bool.and_eq_true, decide_eq_true_eq] at h
  exact ⟨h.1.1, h.1.2, holds_of h.2⟩

theorem fieldsOk_of {pre : List WireField}
    (h : (pre.all fun y => match y with | .byte _ => true | .word _ => true | .text t => textWf t) = true) : ∀ y ∈ pre, y.Ok := by
  intro y hy
  have := List.all_eq_true.1 h y hy
  cases y with
  | byte b => trivial
  | word w => trivial
  | text t => simpa [textWf, WireField.Ok] using this

theorem failsAt_of {s : State} {fs pre post : List WireField} {x : WireField} {k : ErrKind} (h1 : fs = pre ++ x :: post)
    (h2 : (pre.all fun y => match y with | .byte _ => true | .word _ => true | .text t => textWf t) = true)
    (h3 : s.InputAt (wireFields pre)) (h4 : s.FieldFails (s.working.cur + (wireFields pre).length) x k) : s.FailsAt fs pre x k :=
  ⟨⟨post, h1⟩, fieldsOk_of h2, h3, h4⟩

theorem witness_DecodeOfEncodeIsTheInstruction :
    typeCodeWf allTags = true ∧ (Instr.bdConnect ⟨true, 2, true⟩).wellFormed = true ∧
    encodeAt allTags (.bdConnect ⟨true, 2, true⟩) = some (.inputByte, 0x1D) ∧
    encodeAt allTags (.beDisconnect ⟨false, 0, false⟩) = some (.typeReg, 0xE0) ∧
    encodeAt allTags (.invalidType15 ⟨true, 3, true⟩) = some (.inputByte, 0xFF) := by decide +kernel

theorem witness_EncodeOfDecodeIsTheByte :
    typeCodeWf allTags = true ∧ decodeAt allTags .inputByte 0x1D = .ok (.bdConnect ⟨true, 2, true⟩) ∧
    decodeAt allTags .typeReg 0xFF = .ok (.invalidType15 ⟨true, 3, true⟩) := by decide +kernel

theorem witness_HeaderByteRoundTrip :
    typeCodeWf allTags = true ∧ (⟨true, 2, true⟩ : Hdr).qos ≠ 3 ∧ lookupTag allTags (headerCode 0x10) = some .connect ∧
    (headerFlags 0x10).qos ≠ 3 ∧ lookupTag allTags (headerCode 0xED) = some .disconnect ∧ (headerFlags 0xED).qos ≠ 3 := by decide +kernel

theorem witness_TypeCodeLookupsAreInverse :
    typeCodeWf State.reset.build.typeCode = true ∧ (1 : BitVec 4) ≠ 0 ∧ (1 : BitVec 4) ≠ 15 ∧ (14 : BitVec 4) ≠ 0 ∧ (14 : BitVec 4) ≠ 15 := by
  decide +kernel

theorem witness_ExtractAndInsertReturnTheirFields :
    ((0 : Fin 8) ≤ 7) ∧ ((7 : Fin 8) ≤ 7) ∧ (Instr.insert [⟨15, 7, 4⟩, ⟨3, 2, 1⟩, ⟨1, 0, 0⟩]).wellFormed = true ∧
    (⟨3, 2, 1⟩ : BitField) ∈ [(⟨15, 7, 4⟩ : BitField), ⟨3, 2, 1⟩, ⟨1, 0, 0⟩] := by decide +kernel

theorem witness_ConnectFlagsAreDerived :
    reqOk .connect (holding v3Packet).pkt = true ∧ reqOk .connect ({ holding v3Packet with pkt := { (holding v3Packet).pkt with
      willTopic := none, willMessage := none, willQos := none, willRetain := none } } : State).pkt = true := by decide +kernel

theorem witness_DecByteReadsAtTheCursor :
    (atCursor [5, 6] 1 2).InputAt [6] ∧
    (atCursor [5, 6] 2 2).inputOk (atCursor [5, 6] 2 2).working.lim = true ∧
    (atCursor [5, 6] 2 2).working.lim < (atCursor [5, 6] 2 2).working.cur + 1 :=
  ⟨inputAt_of (by decide +kernel), by decide +kernel, by decide +kernel⟩

theorem witness_DecWordIsBigEndian :
    (atCursor [0x12, 0x34] 0 2).InputAt [0x12, 0x34] ∧
    (atCursor [0x12, 0x34] 1 2).inputOk (atCursor [0x12, 0x34] 1 2).working.lim = true ∧
    (atCursor [0x12, 0x34] 1 2).working.lim < (atCursor [0x12, 0x34] 1 2).working.cur + 2 :=
  ⟨inputAt_of (by decide +kernel), by decide +kernel, by decide +kernel⟩

theorem witness_DecTextReadsALengthPrefixedText :
    (([0x61] : Text).length ≤ textMax ∧ utf8Ok [0x61] = true ∧ (atCursor [0, 1, 0x61] 0 3).InputAt (wireText [0x61])) ∧
    (([0xC3] : Text).length ≤ textMax ∧ utf8Ok [0xC3] = false ∧ (atCursor [0, 1, 0xC3] 0 3).InputAt (wireText [0xC3])) ∧
    ((atCursor [0] 0 1).inputOk (atCursor [0] 0 1).working.lim = true ∧
      (atCursor [0] 0 1).working.lim < (atCursor [0] 0 1).working.cur + 2) ∧
    ((atCursor [0, 2, 0x61] 0 3).InputAt (wireWord 2) ∧
      (atCursor [0, 2, 0x61] 0 3).working.lim < (atCursor [0, 2, 0x61] 0 3).working.cur + 2 + (2 : Word).toNat) :=
  ⟨⟨by decide +kernel, by decide +kernel, inputAt_of (by decide +kernel)⟩, ⟨by decide +kernel, by decide +kernel, inputAt_of (by decide +kernel)⟩,
    by decide +kernel, inputAt_of (by decide +kernel), by decide +kernel⟩

theorem witness_DecRestReadsToTheBound :
    ((atCursor [9, 0x61] 1 2).InputRest [0x61] ∧ utf8Ok [0x61] = true) ∧
    ((atCursor [9, 0xFF] 1 2).InputRest [0xFF] ∧ utf8Ok [0xFF] = false) ∧ (atCursor [9] 1 1).InputRest [] :=
  ⟨⟨⟨inputAt_of (by decide +kernel), by decide +kernel⟩, by decide +kernel⟩,
    ⟨⟨inputAt_of (by decide +kernel), by decide +kernel⟩, by decide +kernel⟩, ⟨inputAt_of (by decide +kernel), by decide +kernel⟩⟩

theorem witness_EncodersAppendTheirBytes :
    (([0x61] : Text).length ≤ textMax ∧ utf8Ok [0x61] = true) ∧ textMax < (List.replicate 65536 (0x61 : Byte)).length ∧
    (([0xC3] : Text).length ≤ textMax ∧ utf8Ok [0xC3] = false) :=
  ⟨by decide +kernel, by rw [List.length_replicate]; decide, by decide +kernel⟩

theorem witness_PrimitivesRoundTrip :
    (([0x61] : Text).length ≤ textMax ∧ utf8Ok [0x61] = true) ∧
    (0 ≤ 3 ∧ 3 ≤ ([0, 1, 0x61] : Bytes).length ∧ decByte [0, 1, 0x61] 0 3 = .ok (0, 1) ∧ decWord [0, 1, 0x61] 0 3 = .ok (1, 2) ∧
      decText [0, 1, 0x61] 0 3 = .ok ([0x61], 3) ∧ decRest [0, 1, 0x61] 0 3 = .ok ([0, 1, 0x61], 3)) := by decide +kernel

theorem witness_RemainingLengthDecodesItsField :
    rlEnds [0xFF, 0xFF, 0xFF, 0x7F] = true ∧ ([0xFF, 0xFF, 0xFF, 0x7F] : Bytes).length ≤ 4 ∧
    (atCursor [0xFF, 0xFF, 0xFF, 0x7F] 0 4).InputAt [0xFF, 0xFF, 0xFF, 0x7F] :=
  ⟨by decide +kernel, by decide +kernel, inputAt_of (by decide +kernel)⟩

theorem witness_RemainingLengthOverlongOrCut :
    (allContinue [0x81, 0x80, 0x80, 0x80] = true ∧ (atCursor [0x81, 0x80, 0x80, 0x80] 0 4).InputAt [0x81, 0x80, 0x80, 0x80] ∧
      ([0x81, 0x80, 0x80, 0x80] : Bytes).length = 4 ∧ (atCursor [0x81, 0x80, 0x80, 0x80] 0 4).strict = false ∧
      ({ atCursor [0x81, 0x80, 0x80, 0x80] 0 4 with cfg := 1 } : State).InputAt [0x81, 0x80, 0x80, 0x80] ∧
      ({ atCursor [0x81, 0x80, 0x80, 0x80] 0 4 with cfg := 1 } : State).strict = true) ∧
    (allContinue [0x81, 0x80, 0x80] = true ∧ (atCursor [0x81, 0x80, 0x80] 0 3).InputAt [0x81, 0x80, 0x80] ∧
      ([0x81, 0x80, 0x80] : Bytes).length < 4 ∧
      (atCursor [0x81, 0x80, 0x80] 0 3).working.cur + ([0x81, 0x80, 0x80] : Bytes).length = (atCursor [0x81, 0x80, 0x80] 0 3).working.lim) :=
  ⟨⟨by decide +kernel, inputAt_of (by decide +kernel), by decide +kernel, by decide +kernel, inputAt_of (by decide +kernel), by decide +kernel⟩,
    by decide +kernel, inputAt_of (by decide +kernel), by decide +kernel, by decide +kernel⟩

theorem witness_RemainingLengthEncodesShortest : 268435455 ≤ rlMax ∧ rlMax < 268435456 := by decide +kernel

theorem witness_RemainingLengthReencodesCanonicalFields :
    3 ≤ ([0xFF, 0x80, 0x00] : Bytes).length ∧ rlDec [0xFF, 0x80, 0x00] 0 3 false = .ok ⟨3, 127, 2097152, 3⟩ ∧
    rlDec [0xFF, 0x7F] 0 2 true = .ok ⟨2, 16383, 16384, 2⟩ := by decide +kernel

theorem witness_FixedHeaderDecodes :
    ((loaded [0x30, 0x81, 0x00, 0x55]).Holds 0 [0x30, 0x81, 0x00] ∧
      (loaded [0x30, 0x81, 0x00, 0x55]).ibLen.toNat ≤ (loaded [0x30, 0x81, 0x00, 0x55]).build.ibCap ∧
      lookupTag State.reset.build.typeCode (headerCode 0x30) = some .publish ∧ (headerFlags 0x30).qos ≠ 3 ∧
      rlEnds [0x81, 0x00] = true ∧ ([0x81, 0x00] : Bytes).length ≤ 4 ∧
      1 + ([0x81, 0x00] : Bytes).length + rlValue [0x81, 0x00] ≤ (loaded [0x30, 0x81, 0x00, 0x55]).ibLen.toNat) ∧
    (({ loaded [0x30, 0xFF, 0xFF, 0xFF, 0xFF] with ibLen := 268435460 } : State).Holds 0 [0x30, 0xFF, 0xFF, 0xFF, 0xFF] ∧
      allContinue [0xFF, 0xFF, 0xFF, 0xFF] = true ∧ ([0xFF, 0xFF, 0xFF, 0xFF] : Bytes).length = 4 ∧ State.reset.strict = false ∧
      1 + ([0xFF, 0xFF, 0xFF, 0xFF] : Bytes).length + rlValue [0xFF, 0xFF, 0xFF, 0xFF] ≤ (268435460 : Offset).toNat ∧
      (268435460 : Offset).toNat ≤ State.reset.build.ibCap) ∧
    ((loaded [0xC0, 0x80, 0x80, 0x80, 0x80]).Holds 0 [0xC0, 0x80, 0x80, 0x80, 0x80] ∧
      lookupTag State.reset.build.typeCode (headerCode 0xC0) = some .pingreq ∧
      1 + ([0x80, 0x80, 0x80, 0x80] : Bytes).length + rlValue [0x80, 0x80, 0x80, 0x80] ≤ (loaded [0xC0, 0x80, 0x80, 0x80, 0x80]).ibLen.toNat ∧
      (loaded [0xC0, 0x80, 0x80, 0x80, 0x80]).busy = false) :=
  ⟨⟨holds_of (by decide +kernel), by decide +kernel, by decide +kernel, by decide +kernel, by decide +kernel, by decide +kernel,
      by decide +kernel⟩, ⟨holds_of (by decide +kernel), by decide +kernel⟩, holds_of (by decide +kernel), by decide +kernel⟩

theorem witness_FixedHeaderEncodes :
    State.reset.working.image.length ≤ rlMax ∧
    rlMax < (State.reset.setWork { Work.start State.reset with image := List.replicate (rlMax + 1) 0 }).working.image.length :=
  ⟨by decide +kernel, by
    change rlMax < (List.replicate (rlMax + 1) (0 : Byte)).length
    rw [List.length_replicate]
    exact Nat.lt_succ_self _⟩

theorem witness_MessageIdBodiesDecode :
    (atCursor [9, 0xFF, 0xFF] 1 3).InputAt (wireWord 65535) ∧ Instr.bdUnsuback ⟨false, 0, false⟩ ∈
      [Instr.bdPuback ⟨false, 0, false⟩, .bdPubrec ⟨false, 0, false⟩, .bdPubrel ⟨false, 0, false⟩, .bdPubcomp ⟨false, 0, false⟩,
        .bdUnsuback ⟨false, 0, false⟩] ∧
    ((atCursor [9, 0xFF, 0xFF] 1 2).inputOk (atCursor [9, 0xFF, 0xFF] 1 2).working.lim = true ∧
      (atCursor [9, 0xFF, 0xFF] 1 2).working.lim < (atCursor [9, 0xFF, 0xFF] 1 2).working.cur + 2) :=
  ⟨inputAt_of (by decide +kernel), by decide +kernel, by decide +kernel⟩

theorem witness_EmptyBodiesDecode : (atCursor [0xAA, 0xBB] 0 2).inputOk (atCursor [0xAA, 0xBB] 0 2).working.lim = true := by decide +kernel

theorem witness_ConnackBodyDecodes :
    (([] : Bytes).length = (atCursor [5] 0 1).build.connackPad.val ∧ (atCursor [5] 0 1).InputAt ([] ++ [5])) ∧
    (([0xFF] : Bytes).length = ({ atCursor [0xFF, 5] 0 2 with build := { Build.default with connackPad := 1 } } : State).build.connackPad.val ∧
      ({ atCursor [0xFF, 5] 0 2 with build := { Build.default with connackPad := 1 } } : State).InputAt ([0xFF] ++ [5])) ∧
    ((atCursor [9] 1 1).inputOk (atCursor [9] 1 1).working.lim = true ∧ (atCursor [9] 1 1).working.cur ≤ (atCursor [9] 1 1).working.lim ∧
      (atCursor [9] 1 1).working.lim < (atCursor [9] 1 1).working.cur + (atCursor [9] 1 1).build.connackPad.val + 1) ∧
    (let s : State := { atCursor [9, 0] 1 2 with build := { Build.default with connackPad := 1 } }
     s.inputOk s.working.lim = true ∧ s.working.cur ≤ s.working.lim ∧ s.working.lim < s.working.cur + s.build.connackPad.val + 1) :=
  ⟨⟨by decide +kernel, inputAt_of (by decide +kernel)⟩, ⟨by decide +kernel, inputAt_of (by decide +kernel)⟩, by decide +kernel, by decide +kernel⟩

theorem witness_PublishBodyDecodes :
    (([0x61] : Text).length ≤ textMax ∧ utf8Ok [0x61] = true ∧ utf8Ok [0x62] = true ∧ utf8Ok [0xC3] = false) ∧
    (atCursor [0, 1, 0x61, 0x62] 0 4).InputRest (wireFields (publishFields 0 [0x61] 10) ++ [0x62]) ∧
    (atCursor [0, 1, 0x61, 0, 10, 0xC3] 0 6).InputRest (wireFields (publishFields 2 [0x61] 10) ++ [0xC3]) ∧
    (atCursor [0, 2, 0x61] 0 3).FailsAt (publishFields 0 [0x61] 10) [] (.text [0x61]) .truncatedInput ∧
    (atCursor [0, 1, 0xC3] 0 3).FailsAt (publishFields 0 [0xC3] 10) [] (.text [0xC3]) .invalidEncoding ∧
    (atCursor [0, 1, 0x61, 0] 0 4).FailsAt (publishFields 1 [0x61] 10) [.text [0x61]] (.word 10) .truncatedInput :=
  ⟨by decide +kernel, ⟨inputAt_of (by decide +kernel), by decide +kernel⟩, ⟨inputAt_of (by decide +kernel), by decide +kernel⟩,
    failsAt_of (post := []) rfl rfl (inputAt_of (by decide +kernel)) (.inl ⟨rfl, .inr ⟨2, holds_of (by decide +kernel), by decide +kernel⟩⟩),
    failsAt_of (post := []) rfl rfl (inputAt_of (by decide +kernel))
      (.inr ⟨rfl, by decide +kernel, by decide +kernel, holds_of (by decide +kernel), by decide +kernel⟩),
    failsAt_of (post := []) rfl rfl (inputAt_of (by decide +kernel)) ⟨rfl, by decide +kernel⟩⟩

theorem witness_ListBodiesDecode :
    ((∀ e ∈ ([([0x61], 9)] : List (Text × Byte)), e.1.length ≤ textMax ∧ utf8Ok e.1 = true) ∧
      countFits (some 1) ([([0x61], 9)] : List (Text × Byte)).length = true ∧
      ({ atCursor [0, 1, 0, 1, 0x61, 9] 0 6 with build := { Build.default with listCap := some 1 } } : State).InputRest
        (wireWord 1 ++ ([([0x61], 9)] : List (Text × Byte)).flatMap wireEntry)) ∧
    (countFits none ([] : List Byte).length = true ∧ (atCursor [0, 1] 0 2).InputRest (wireWord 1 ++ [])) ∧
    ((∀ t ∈ ([[0x61]] : List Text), t.length ≤ textMax ∧ utf8Ok t = true) ∧ countFits none ([[0x61]] : List Text).length = true ∧
      (atCursor [0, 1, 0, 1, 0x61] 0 5).InputRest (wireWord 1 ++ ([[0x61]] : List Text).flatMap wireText)) ∧
    ((atCursor [0] 0 1).FailsAt (subscribeFields 1 []) [] (.word 1) .truncatedInput ∧
      (atCursor [0, 1, 0, 1, 0x61] 0 5).FailsAt (subscribeFields 1 [([0x61], 9)]) [.word 1, .text [0x61]] (.byte 9) .truncatedInput ∧
      ((atCursor [0, 1, 0, 1, 0xFF, 0] 0 6).FailsAt (subscribeFields 1 [([0xFF], 0)]) [.word 1] (.text [0xFF]) .invalidEncoding ∧
        (atCursor [0, 1, 0, 1, 0xFF, 0] 0 6).working.cur + (wireFields [.word 1]).length < (atCursor [0, 1, 0, 1, 0xFF, 0] 0 6).working.lim)) ∧
    ((atCursor [0, 1] 1 2).inputOk (atCursor [0, 1] 1 2).working.lim = true ∧
      (atCursor [0, 1] 1 2).working.lim < (atCursor [0, 1] 1 2).working.cur + 2) ∧
    ((atCursor [0, 1, 0] 0 3).FailsAt (unsubscribeFields 1 [[0x61]]) [.word 1] (.text [0x61]) .truncatedInput ∧
      (atCursor [0, 1, 0] 0 3).working.cur + (wireFields [.word 1]).length < (atCursor [0, 1, 0] 0 3).working.lim) :=
  ⟨⟨by decide +kernel, by decide +kernel, inputAt_of (by decide +kernel), by decide +kernel⟩,
    ⟨by decide +kernel, inputAt_of (by decide +kernel), by decide +kernel⟩,
    ⟨by decide +kernel, by decide +kernel, inputAt_of (by decide +kernel), by decide +kernel⟩,
    ⟨failsAt_of (post := []) rfl rfl (inputAt_of (by decide +kernel)) ⟨rfl, by decide +kernel⟩,
      failsAt_of (post := []) rfl rfl (inputAt_of (by decide +kernel)) ⟨rfl, by decide +kernel⟩,
      failsAt_of (post := [.byte 0]) rfl rfl (inputAt_of (by decide +kernel))
        (.inr ⟨rfl, by decide +kernel, by decide +kernel, holds_of (by decide +kernel), by decide +kernel⟩), by decide +kernel⟩,
    by decide +kernel,
    failsAt_of (post := []) rfl rfl (inputAt_of (by decide +kernel)) (.inl ⟨rfl, .inl (by decide +kernel)⟩), by decide +kernel⟩

theorem witness_FullListRaisesCapacityExceeded :
    (({ atCursor [0, 1, 0, 1, 0x61, 2, 8] 0 7 with build := { Build.default with listCap := some 1 } } : State).InputAt
        (wireWord 1 ++ ([([0x61], 2)] : List (Text × Byte)).flatMap wireEntry ++ [8]) ∧
      (∀ e ∈ ([([0x61], 2)] : List (Text × Byte)), e.1.length ≤ textMax ∧ utf8Ok e.1 = true)) ∧
    (({ atCursor [0, 1, 7, 8] 0 4 with build := { Build.default with listCap := some 1 } } : State).build.listCap = some ([7] : List Byte).length ∧
      ({ atCursor [0, 1, 7, 8] 0 4 with build := { Build.default with listCap := some 1 } } : State).InputAt (wireWord 1 ++ [7] ++ [8])) ∧
    (({ atCursor [0, 1, 0] 0 3 with build := { Build.default with listCap := some 0 } } : State).build.listCap = some ([] : List Text).length ∧
      ({ atCursor [0, 1, 0] 0 3 with build := { Build.default with listCap := some 0 } } : State).InputAt
        (wireWord 1 ++ ([] : List Text).flatMap wireText ++ [0])) :=
  ⟨⟨inputAt_of (by decide +kernel), by decide +kernel⟩, ⟨by decide +kernel, inputAt_of (by decide +kernel)⟩,
    by decide +kernel, inputAt_of (by decide +kernel)⟩

theorem witness_ConnectBodyDecodes :
    (∀ t ∈ ([[0x4D], [0x63], [0x74], [], [0x75], [0x70]] : List Text), t.length ≤ textMax ∧ utf8Ok t = true) ∧
    (atCursor (wireConnect [0x4D] 3 0xF6 60 [0x63] [0x74] [] [0x75] [0x70]) 0 21).InputAt
      (wireConnect [0x4D] 3 0xF6 60 [0x63] [0x74] [] [0x75] [0x70]) ∧
    (atCursor (wireConnect [0x4D] 3 0x00 60 [0x63] [0x74] [] [0x75] [0x70]) 0 10).InputAt
      (wireConnect [0x4D] 3 0x00 60 [0x63] [0x74] [] [0x75] [0x70]) ∧
    (atCursor [0, 0, 3] 0 3).FailsAt (connectFields [] 3 0 60 [] [] [] [] []) [.text [], .byte 3] (.byte 0) .truncatedInput ∧
    (atCursor [0, 0, 3, 4, 0, 60, 0, 0, 0, 1, 0xFF] 0 11).FailsAt (connectFields [] 3 4 60 [] [0xFF] [] [] [])
      [.text [], .byte 3, .byte 4, .word 60, .text []] (.text [0xFF]) .invalidEncoding ∧
    (atCursor [0, 0, 3, 0x40, 0, 60, 0, 0, 0] 0 9).FailsAt (connectFields [] 3 0x40 60 [] [] [] [] [0x70])
      [.text [], .byte 3, .byte 0x40, .word 60, .text []] (.text [0x70]) .truncatedInput :=
  ⟨by decide +kernel, inputAt_of (by decide +kernel), inputAt_of (by decide +kernel),
    failsAt_of (post := [.word 60, .text []]) rfl rfl (inputAt_of (by decide +kernel)) ⟨rfl, by decide +kernel⟩,
    failsAt_of (post := [.text []]) rfl rfl (inputAt_of (by decide +kernel))
      (.inr ⟨rfl, by decide +kernel, by decide +kernel, holds_of (by decide +kernel), by decide +kernel⟩),
    failsAt_of (post := []) rfl rfl (inputAt_of (by decide +kernel)) (.inl ⟨rfl, .inl (by decide +kernel)⟩)⟩

theorem witness_BodyDecodersCompleteOrRaise :
    (atCursor [0, 1] 2 2).inputOk (atCursor [0, 1] 2 2).working.lim = true ∧ (atCursor [0, 1] 2 2).working.cur ≤ (atCursor [0, 1] 2 2).working.lim := by
  decide +kernel

theorem witness_RequiredFieldsAreChecked :
    ((holding v3Packet).pkt.protoName ≠ none ∧ (holding v3Packet).pkt.willTopic ≠ none ∧ (holding v3Packet).pkt.willRetain ≠ none) ∧
    State.reset.pkt.msgId = none ∧ ((holding ⟨.publish, false, 0, false, .publish [] none []⟩).pkt.topic ≠ none) := by decide +kernel

theorem witness_PlainBodiesEncode : (holding ⟨.puback, false, 0, false, .msgIdOnly 10⟩).pkt.msgId = some 10 := by decide +kernel

theorem witness_ConnackBodyEncodes : (holding ⟨.connack, false, 0, false, .connack 5⟩).pkt.returnCode = some 5 := by decide +kernel

theorem witness_PublishBodyEncodes :
    ((holding ⟨.publish, false, 0, false, .publish [0x61] none [0x62]⟩).pkt.topic = some [0x61] ∧
      (holding ⟨.publish, false, 0, false, .publish [0x61] none [0x62]⟩).pkt.payload = some [0x62] ∧ ([0x61] : Text).length ≤ textMax ∧
      utf8Ok [0x61] = true ∧ utf8Ok [0x62] = true ∧ (holding ⟨.publish, false, 0, false, .publish [0x61] none [0x62]⟩).pkt.qos = 0) ∧
    ((holding ⟨.publish, false, 2, false, .publish [0x61] (some 7) [0x62]⟩).pkt.qos ≠ 0 ∧
      (holding ⟨.publish, false, 2, false, .publish [0x61] (some 7) [0x62]⟩).pkt.msgId = some 7) ∧
    ((holding ⟨.publish, false, 0, false, .publish [0xC3] none [0x62]⟩).pkt.topic = some [0xC3] ∧ utf8Ok [0xC3] = false) ∧
    ((holding ⟨.publish, false, 0, false, .publish (List.replicate 65536 0x61) none []⟩).pkt.topic = some (List.replicate 65536 0x61) ∧
      textMax < (List.replicate 65536 (0x61 : Byte)).length) :=
  ⟨by decide +kernel, by decide +kernel, by decide +kernel, rfl, by rw [List.length_replicate]; decide⟩

theorem witness_ListBodiesEncode :
    ((holding ⟨.subscribe, false, 1, false, .subscribe 1 [([0x61], 9)]⟩).pkt.msgId = some 1 ∧
      (holding ⟨.subscribe, false, 1, false, .subscribe 1 [([0x61], 9)]⟩).pkt.subs = some [([0x61], 9)] ∧
      (∀ e ∈ ([([0x61], 9)] : List (Text × Byte)), e.1.length ≤ textMax ∧ utf8Ok e.1 = true)) ∧
    ((holding ⟨.suback, false, 0, false, .suback 1 []⟩).pkt.msgId = some 1 ∧
      (holding ⟨.suback, false, 0, false, .suback 1 []⟩).pkt.granted = some []) ∧
    ((holding ⟨.unsubscribe, false, 1, false, .unsubscribe 1 [[0x61]]⟩).pkt.msgId = some 1 ∧
      (holding ⟨.unsubscribe, false, 1, false, .unsubscribe 1 [[0x61]]⟩).pkt.topics = some [[0x61]] ∧
      (∀ t ∈ ([[0x61]] : List Text), t.length ≤ textMax ∧ utf8Ok t = true)) ∧
    (firstBad [[0x61], [0xC3], List.replicate 65536 0x61] [0xC3] ∧ utf8Ok [0xC3] = false) ∧
    (firstBad (([(List.replicate 65536 0x61, 0)] : List (Text × Byte)).map fun e => e.1) (List.replicate 65536 0x61) ∧
      textMax < (List.replicate 65536 (0x61 : Byte)).length) :=
  ⟨by decide +kernel, by decide +kernel, by decide +kernel, ⟨⟨[[0x61]], [List.replicate 65536 0x61], rfl, by decide +kernel⟩, by decide +kernel⟩,
    ⟨[], [], rfl, by simp⟩, by rw [List.length_replicate]; decide⟩

theorem witness_ConnectBodyEncodes :
    ((holding v3Packet).pkt = v3Packet.regs (holding v3Packet).build ∧ v3Packet.wf = true ∧
      (⟨.connect, false, 0, false, .connect [] 0 false 0 [] none (some []) none⟩ : Packet).wf = true) ∧
    (firstBad ([[0x4D], [0x63]] ++ ((some (⟨[0x74], [0xFF], 0, false⟩ : Will)).map fun w => [w.topic, w.message]).getD []
      ++ (some [0xC3]).toList ++ (none : Option Text).toList) [0xFF] ∧ utf8Ok [0xFF] = false) ∧
    (firstBad ([[], []] ++ ((none : Option Will).map fun w => [w.topic, w.message]).getD []
      ++ (none : Option Text).toList ++ (some (List.replicate 65536 0x61)).toList) (List.replicate 65536 0x61) ∧
      textMax < (List.replicate 65536 (0x61 : Byte)).length) :=
  ⟨by decide +kernel, ⟨⟨[[0x4D], [0x63], [0x74]], [[0xC3]], rfl, by decide +kernel⟩, by decide +kernel⟩,
    ⟨[[], []], [], rfl, by decide +kernel⟩, by rw [List.length_replicate]; decide⟩

theorem witness_BodyEncodersCompleteOrRaise :
    reqOk .connect (holding v3Packet).pkt = true ∧ reqOk .pingreq State.reset.pkt = true := by decide +kernel

theorem witness_OperationsStopWhereNoRuleReads :
    (atCursor [] 0 1).inputOk (atCursor [] 0 1).working.lim = false ∧
    (({ loaded [0xC0, 0x00] with build := { Build.default with ibCap := 1 } } : State).build.ibCap
      < ({ loaded [0xC0, 0x00] with build := { Build.default with ibCap := 1 } } : State).ibLen.toNat) ∧
    ({ loaded [0xC0, 0x00] with build := { Build.default with ibCap := 1 } } : State).busy = false ∧
    typeCodeWf State.reset.build.typeCode = true ∧ State.reset.pkt.msgId = none ∧ State.reset.pkt.returnCode = none ∧
    State.reset.pkt.subs = none ∧ State.reset.pkt.granted = none ∧ State.reset.pkt.topics = none ∧
    State.reset.pkt.topic = none ∧ State.reset.pkt.cleanSession = none ∧ State.reset.pkt.protoName = none ∧
    (let p : Pkt := { Pkt.empty with topic := some [0x61], qos := 1 }
     p.topic = some [0x61] ∧ ([0x61] : Text).length ≤ textMax ∧ utf8Ok [0x61] = true ∧ p.qos ≠ 0 ∧ p.msgId = none ∧ p.payload = none) ∧
    (let p : Pkt := { Pkt.empty with willTopic := some [], willMessage := some [], willQos := some 0, cleanSession := some true }
     p.willTopic ≠ none ∧ p.willMessage ≠ none ∧ p.willRetain = none) ∧
    (let p : Pkt := { Pkt.empty with protoName := some [0x61], protoVer := some 3, keepAlive := some 60 }
     p.protoName = some [0x61] ∧ p.clientId = none) := by decide +kernel

theorem witness_StepRunsTheCommand :
    State.reset.cmd = none ∧ ({ State.reset with cmd := some 3 } : State).cmd = some 3 := by decide +kernel

theorem witness_DecodeCommitsOrEntersError :
    (loaded [0xC0, 0x00]).busy = false ∧ (loaded [0xC0, 0x00]).ibLen.toNat ≤ (loaded [0xC0, 0x00]).build.ibCap ∧
    (∃ p n, decodePacket (loaded [0xC0, 0x00]).build (loaded [0xC0, 0x00]).strict (loaded [0xC0, 0x00]).input = .ok (p, n)) ∧
    (loaded [0xC0]).busy = false ∧ (loaded [0xC0]).ibLen.toNat ≤ (loaded [0xC0]).build.ibCap ∧
    decodePacket (loaded [0xC0]).build (loaded [0xC0]).strict (loaded [0xC0]).input = .error ⟨.truncatedInput, 1⟩ :=
  ⟨by decide +kernel, by decide +kernel, ⟨{ Pkt.empty with ptype := some 12 }, 2, by decide +kernel⟩, by decide +kernel, by decide +kernel,
    by decide +kernel⟩

theorem witness_DecodeHeaderErrorsInOrder :
    ((loaded []).busy = false ∧ (loaded []).ibLen = 0) ∧
    ((loaded [0xF6]).ibLen ≠ 0 ∧ lookupTag (loaded [0xF6]).build.typeCode (headerCode ((loaded [0xF6]).ib.read 0)) = none) ∧
    ((loaded [0x16]).ibLen ≠ 0 ∧ lookupTag (loaded [0x16]).build.typeCode (headerCode ((loaded [0x16]).ib.read 0)) ≠ none ∧
      (headerFlags ((loaded [0x16]).ib.read 0)).qos = 3) ∧
    ((loaded [0x30, 0x80, 0x80, 0x80]).Holds 1 [0x80, 0x80, 0x80] ∧ allContinue [0x80, 0x80, 0x80] = true ∧
      (loaded [0x30, 0x80, 0x80, 0x80]).ibLen.toNat = 1 + ([0x80, 0x80, 0x80] : Bytes).length) ∧
    ((loaded [0x30, 0x81, 0x80, 0x80, 0x80]).Holds 1 [0x81, 0x80, 0x80, 0x80] ∧ 5 ≤ (loaded [0x30, 0x81, 0x80, 0x80, 0x80]).ibLen.toNat ∧
      (loaded [0x30, 0x81, 0x80, 0x80, 0x80]).strict = false ∧
      (loaded [0x30, 0x81, 0x80, 0x80, 0x80]).ibLen.toNat < 5 + rlValue [0x81, 0x80, 0x80, 0x80] ∧
      ({ loaded [0x30, 0x81, 0x80, 0x80, 0x80] with cfg := 1 } : State).strict = true) ∧
    ((loaded [0x30, 0x05, 0x00]).Holds 1 [0x05] ∧ rlEnds [0x05] = true ∧ 1 + ([0x05] : Bytes).length ≤ (loaded [0x30, 0x05, 0x00]).ibLen.toNat ∧
      (loaded [0x30, 0x05, 0x00]).ibLen.toNat < 1 + ([0x05] : Bytes).length + rlValue [0x05]) :=
  ⟨by decide +kernel, by decide +kernel, by decide +kernel, ⟨holds_of (by decide +kernel), by decide +kernel, by decide +kernel⟩,
    ⟨holds_of (by decide +kernel), by decide +kernel, by decide +kernel, by decide +kernel, by decide +kernel⟩,
    holds_of (by decide +kernel), by decide +kernel, by decide +kernel, by decide +kernel⟩

theorem witness_DecodeIsHeaderThenBodyThenCommit :
    (loaded [0xC0, 0x00]).busy = false ∧ (loaded [0xC0, 0x00]).ibLen.toNat ≤ (loaded [0xC0, 0x00]).build.ibCap ∧
    resultOf .fhDec (loaded [0xC0, 0x00]) = some (.header ⟨.pingreq, ⟨false, 0, false⟩, 2, 0⟩) ∧
    (nextOf (exec .fhDec (loaded [0xC0]))).map (·.work) = some none := by decide +kernel

theorem witness_DecodeReadsOnlyThePacket :
    (loaded [0xC0, 0x00, 0xAA]).busy = false ∧ (loaded [0xC0, 0x00]).busy = false ∧
    (loaded [0xC0, 0x00, 0xAA]).build = (loaded [0xC0, 0x00]).build ∧ (loaded [0xC0, 0x00, 0xAA]).cfg = (loaded [0xC0, 0x00]).cfg ∧
    (nextOf (exec .decode (loaded [0xC0, 0x00, 0xAA]))).map (fun t => (t.err, t.consumed.toNat)) = some (false, 2) ∧
    (loaded [0xC0, 0x00]).ibLen.toNat ≤ (loaded [0xC0, 0x00]).build.ibCap ∧ 2 ≤ (loaded [0xC0, 0x00]).ibLen.toNat ∧
    (∀ a, a < 2 → (loaded [0xC0, 0x00, 0xAA]).ib.read a = (loaded [0xC0, 0x00]).ib.read a) := by decide +kernel

theorem witness_DecodeCommitsAWellFormedPacket :
    Build.default.wf = true ∧
    decodePacket Build.default false [0x40, 0x02, 0x00, 0x0A] = .ok ({ Pkt.empty with ptype := some 4, msgId := some 10 }, 4) := by decide +kernel

theorem witness_EncodeCommitsOrEntersError :
    (holding v3Packet).busy = false ∧ (holding v3Packet).build.wf = true ∧ (holding v3Packet).ob.wf (holding v3Packet).build.obCap = true ∧
    encodePacket (holding v3Packet).build (holding v3Packet).pkt = .ok v3Image ∧
    encodePacket State.reset.build State.reset.pkt = .error (.raise .missingRequiredField) := by decide +kernel

theorem witness_EncodeErrorsInOrder :
    (State.reset.busy = false ∧ State.reset.pkt.ptype = none) ∧ lookupTag State.reset.build.typeCode 15 = none ∧
    (lookupTag State.reset.build.typeCode 12 = some .pingreq ∧ ({ Pkt.empty with ptype := some 12, qos := 3 } : Pkt).qos = 3) ∧
    (lookupTag State.reset.build.typeCode 4 = some .puback ∧ reqOk .puback { Pkt.empty with ptype := some 4 } = false) ∧
    (∃ body, reqOk .suback { Pkt.empty with ptype := some 9, msgId := some 1, granted := some (List.replicate rlMax 0) } = true ∧
      bodyEnc Build.default .suback { Pkt.empty with ptype := some 9, msgId := some 1, granted := some (List.replicate rlMax 0) } = .ok body ∧
      rlMax < body.length) ∧
    (lookupTag State.reset.build.typeCode 3 = some .publish ∧
      reqOk .publish { Pkt.empty with ptype := some 3, topic := some [0xC3], payload := some [] } = true ∧
      raisedBy (beOf .publish ⟨false, 0, false⟩)
        { State.reset with pkt := { Pkt.empty with ptype := some 3, topic := some [0xC3], payload := some [] } } = some (3, 0)) ∧
    (reqOk .pingreq { Pkt.empty with ptype := some 12 } = true ∧
      bodyEnc { Build.default with obCap := 1 } .pingreq { Pkt.empty with ptype := some 12 } = .ok [] ∧
      fhEnc Build.default.typeCode .pingreq ⟨false, 0, false⟩ [] = .ok [0xC0, 0x00] ∧ 1 < ([0xC0, 0x00] : Bytes).length) :=
  ⟨by decide +kernel, by decide +kernel, by decide +kernel, by decide +kernel,
    ⟨encWord 1 ++ (List.replicate rlMax (0 : Byte)).flatMap encByte, rfl, rfl, by
      have h : (List.replicate rlMax (0 : Byte)).flatMap encByte = List.replicate rlMax 0 := List.flatMap_singleton' _
      rw [h, List.length_append, List.length_replicate]
      exact Nat.lt_add_of_pos_left (by decide)⟩,
    by decide +kernel, by decide +kernel⟩

theorem witness_EncodeIsCheckThenBodyThenHeaderThenCommit :
    (holding v3Packet).busy = false ∧ (holding v3Packet).work = none ∧ (holding v3Packet).pkt.ptype = some 1 ∧
    lookupTag (holding v3Packet).build.typeCode 1 = some .connect ∧ (holding v3Packet).pkt.qos ≠ 3 ∧
    reqOk .connect (holding v3Packet).pkt = true := by decide +kernel

theorem witness_EncodeDependsOnlyOnThePacket :
    encodePacket Build.default { Pkt.empty with ptype := some 12 } = .ok [0xC0, 0x00] ∧
    packetOf Build.default { Pkt.empty with ptype := some 12 } = some ⟨.pingreq, false, 0, false, .empty⟩ ∧
    packetOf Build.default { Pkt.empty with ptype := some 12, topic := some [0x7A, 0x7A] } = some ⟨.pingreq, false, 0, false, .empty⟩ := by
  decide +kernel

theorem witness_DecodeAfterEncodeIsCanon :
    Build.default.wf = true ∧ (v3Packet.regs Build.default).fits Build.default.listCap = true ∧
    encodePacket Build.default (v3Packet.regs Build.default) = .ok v3Image := by decide +kernel

theorem witness_EncodeAfterDecodeSucceeds :
    Build.default.wf = true ∧ decodePacket Build.default true [0xC0, 0x02, 0xAA, 0xBB] = .ok ({ Pkt.empty with ptype := some 12 }, 4) ∧
    4 ≤ Build.default.obCap ∧ encodePacket Build.default { Pkt.empty with ptype := some 12 } = .ok [0xC0, 0x00] ∧
    Canonical Build.default [0xC0, 0x00] ∧ CanonicalForm Build.default true [0xC0, 0x00] ∧
    decodePacket Build.default false [0xC0, 0x80, 0x80, 0x80, 0x80] = .ok ({ Pkt.empty with ptype := some 12 }, 5) :=
  ⟨by decide +kernel, by decide +kernel, by decide +kernel, by decide +kernel,
    ⟨⟨.pingreq, false, 0, false, .empty⟩, by decide +kernel, by decide +kernel, by decide +kernel⟩,
    ⟨⟨.pingreq, ⟨false, 0, false⟩, 2, 0⟩, 2, { Pkt.empty with ptype := some 12 }, by decide +kernel, by decide +kernel, by decide +kernel, nofun,
      by decide +kernel, by decide +kernel, nofun⟩, by decide +kernel⟩

theorem witness_EarlierErrorsLeaveNoTrace : (loaded [0xC0, 0x00]).busy = false ∧ (6 : BitVec 3).getLsbD 0 = false := by decide +kernel

theorem witness_BusyCommandIsIgnored : ({ State.reset with status := 1 } : State).busy = true ∧ State.reset.busy = false := by decide +kernel

theorem witness_ResetIsSound : Build.default.wf = true := by decide +kernel

theorem witness_StepKeepsSound :
    (loaded [0xC0, 0x00]).Sound ∧ (loaded [0xC0, 0x00]).pkt.fits (loaded [0xC0, 0x00]).build.listCap = true ∧
    (nextOf (step { loaded [0xC0, 0x00] with cmd := some 1 })).isSome = true ∧ ({ loaded [0xC0, 0x00] with cmd := some 1 } : State).Sound ∧
    (({ loaded [0xC0] with status := 6, errcode := 2, errpos := 1 } : State).writeCmd 1).Sound :=
  ⟨by decide +kernel, by decide +kernel, by decide +kernel, by decide +kernel, by decide +kernel⟩

theorem witness_StepKeepsRegisterWidths :
    ({ holding v3Packet with cmd := some 2 } : State).pkt.fits (holding v3Packet).build.listCap = true ∧
    (nextOf (step { holding v3Packet with cmd := some 2 })).isSome = true := by decide +kernel

theorem witness_RemainingLengthRoundTrip : 0 ≤ rlMax ∧ 127 ≤ rlMax ∧ 268435455 ≤ rlMax := by decide +kernel

theorem witness_HostWritesReachTheirRegister :
    ({ State.reset with status := 1 } : State).busy = true ∧ ({ State.reset with cmd := some 2 } : State).cmd ≠ none ∧
    State.reset.busy = false ∧ State.reset.cmd = none ∧ 268435459 < State.reset.build.ibCap ∧ State.reset.build.ibCap ≤ 268435460 ∧
    (268435460 : Offset).toNat ≤ State.reset.build.ibCap ∧ State.reset.build.ibCap < (268435461 : Offset).toNat ∧
    ([0x61] : Text).length ≤ textMax ∧ ¬ (List.replicate 65536 (0x61 : Byte)).length ≤ textMax ∧
    rlMax < (List.replicate (rlMax + 1) (0 : Byte)).length ∧
    (let b : Build := { Build.default with listCap := some 1 }
     b.listCap = some 1 ∧ ([([0x61], 0)] : List (Text × Byte)).length ≤ 1 ∧ ¬ ([1, 2] : List Byte).length ≤ 1 ∧
       ¬ ([[], []] : List Text).length ≤ 1 ∧ ¬ ([([], 0), ([], 0)] : List (Text × Byte)).length ≤ 1) ∧
    (nextOf (State.reset.hostWrite (.ib 268435460 7))).isSome = false :=
  ⟨by decide +kernel, by decide +kernel, by decide +kernel, by decide +kernel, by decide +kernel, by decide +kernel,
    by decide +kernel, by decide +kernel, by decide +kernel, by rw [List.length_replicate]; decide,
    by rw [List.length_replicate]; exact Nat.lt_succ_self _, by decide +kernel, by decide +kernel⟩

theorem witness_HostWritesKeepSound :
    State.reset.Sound ∧ State.reset.pkt.fits State.reset.build.listCap = true ∧
    (nextOf (State.reset.hostWrite (.reg (.topic (some [0x61]))))).isSome = true ∧
    (nextOf (({ State.reset with cmd := some 1 } : State).hostWrite .reset)).isSome = true ∧
    (({ State.reset with status := 6, errcode := 2, errpos := 1 } : State).Sound ∧
      (nextOf (({ State.reset with status := 6, errcode := 2, errpos := 1 } : State).hostWrite (.cmd 1))).isSome = true) :=
  ⟨by decide +kernel, by decide +kernel, by decide +kernel, by decide +kernel, by decide +kernel, by decide +kernel⟩

end Sys2Proof.Tests
end

/-! PROOFS. How the pending `CMD` write selects what a step runs (R17, R34, R85, R231). -/

namespace Sys2Proof.Machine

/-! ### The decoder at the `CMD` port -/

/-- The table of R85: the four codes of `CMD` and their rows. -/
theorem decodeCmd_table :
    decodeCmd 0 = .cmdReserved0 ∧ decodeCmd 1 = .decode ∧ decodeCmd 2 = .encode ∧ decodeCmd 3 = .cmdReserved3 :=
  ⟨rfl, rfl, rfl, rfl⟩

/-- A `CMD` code read as a byte is never too wide, so the decoder gives its row under every type-code table. -/
theorem decodeAt_cmd_setWidth (tc : List Tag) (c : BitVec 2) :
    decodeAt tc .cmd (c.setWidth 8) = .ok (decodeCmd c) := by
  have code_lt : (c.setWidth 8).toNat < 4 := by
    rw [BitVec.toNat_setWidth_of_le (by decide)]
    exact c.isLt
  have code_back : (c.setWidth 8).setWidth 2 = c := by
    rw [BitVec.setWidth_setWidth_of_le c (by decide), BitVec.setWidth_eq]
  simp only [decodeAt, if_pos code_lt, code_back]

/-! ### The two outcomes of fetching -/

/-- Without a `CMD` write the block is idle (R231). -/
theorem step_of_cmd_none {s : State} (idle : s.cmd = none) : step s = .next s := by
  simp only [step, State.fetch, idle, Option.map_none]

/-- With a `CMD` write pending, the step runs its row on the state in which the write has been taken up (R17, R85). -/
theorem step_of_cmd_some {s : State} {c : BitVec 2} (pending : s.cmd = some c) :
    step s = exec (decodeCmd c) s.takeCommand := by
  simp only [step, State.fetch, pending, Option.map_some]

/-- Settles O40: the two outcomes of fetching, with the decoder's row for each of the four codes. -/
theorem stepRunsTheCommand : Obligations.StepRunsTheCommand := fun s =>
  ⟨step_of_cmd_none,
    fun c pending => ⟨step_of_cmd_some pending, decodeAt_cmd_setWidth s.build.typeCode c⟩,
    decodeCmd_table⟩

end Sys2Proof.Machine

/-! PROOFS. What a command, a step, a host write and a reset keep of a sound state and of the registers' widths (R23, R28 to R42, R230). -/

namespace Sys2Proof.Machine

/-! ### The numbers of a lawful build -/

theorem build_wf_iff {b : Build} : b.wf = true ↔
    typeCodeWf b.typeCode = true ∧ b.ibCap ≤ packetMax ∧ b.obCap ≤ packetMax ∧ (0 :: b.errNumbers.toList).Nodup := by
  simp only [Build.wf, Bool.and_eq_true, decide_eq_true_eq, and_assoc]

theorem errNumbers_code_mem (n : ErrNumbers) (k : ErrKind) : n.code k ∈ n.toList := by
  cases k <;> simp [ErrNumbers.code, ErrNumbers.toList]

/-- `PACKET_MAX` fits the 29 bits of an offset, so no offset up to it wraps (R28, R33). -/
theorem offset_ofNat_toNat {n : Nat} (h : n ≤ packetMax) : (BitVec.ofNat 29 n).toNat = n := by
  unfold packetMax at h
  rw [BitVec.toNat_ofNat, Nat.mod_eq_of_lt (by omega)]

/-! ### Where a command ends -/

/-- What a command finds when it has been taken up: a sound state but for the status, which the command writes afresh. -/
def State.Ready (s : State) : Prop :=
  s.build.wf = true ∧ s.ib.wf s.build.ibCap = true ∧ s.ob.wf s.build.obCap = true ∧
  s.ibLen.toNat ≤ s.build.ibCap ∧ s.obLen.toNat ≤ s.build.obCap ∧ s.cmd = none ∧ s.consumed.toNat ≤ packetMax

theorem State.Sound.takeCommand_ready {s : State} (sound : s.Sound) : s.takeCommand.Ready := by
  obtain ⟨build, ib, ob, ibLen, obLen, -, -, -, consumed, -⟩ := sound
  exact ⟨build, ib, ob, ibLen, obLen, rfl, consumed⟩

theorem State.Ready.ibLen_le {s : State} (ready : s.Ready) : s.ibLen.toNat ≤ packetMax := by
  obtain ⟨build, -, -, ibLen, -⟩ := ready
  exact ibLen.trans (build_wf_iff.1 build).2.1

theorem State.Ready.commitDecode_sound {s : State} (ready : s.Ready) (p : Pkt) {n : Nat} (hn : n ≤ packetMax) :
    (s.commitDecode p n).Sound := by
  obtain ⟨build, ib, ob, ibLen, obLen, cmd, -⟩ := ready
  refine ⟨build, ib, ob, ibLen, obLen, by simp, rfl, by simp [State.StatusSound, cmd], ?_, by simp⟩
  simpa [offset_ofNat_toNat hn] using hn

theorem State.Ready.commitEncode_sound {s : State} (ready : s.Ready) {im : Bytes} (room : im.length ≤ s.build.obCap) :
    (s.commitEncode im).Sound := by
  obtain ⟨build, ib, ob, ibLen, obLen, cmd, consumed⟩ := ready
  have small : im.length ≤ packetMax := room.trans (build_wf_iff.1 build).2.2.1
  refine ⟨build, ib, Mem.wf_writeBytes ob im (by simpa using room), ibLen, ?_, by simp, rfl,
    by simp [State.StatusSound, cmd], consumed, by simp⟩
  simpa [offset_ofNat_toNat small] using room

theorem State.Ready.enterError_sound {s : State} (ready : s.Ready) (d : Bool) {e : Err} (he : e.pos ≤ packetMax) :
    (s.enterError d e).Sound := by
  obtain ⟨build, ib, ob, ibLen, obLen, cmd, consumed⟩ := ready
  refine ⟨build, ib, ob, ibLen, obLen, by simp, rfl, ?_, consumed, ?_⟩
  · simp [State.StatusSound, cmd, errNumbers_code_mem]
  · cases d
    · simp
    · simpa [offset_ofNat_toNat he] using he

/-! ### The step -/

theorem execDecode_keeps_sound {s t : State} (ready : s.Ready) (idle : s.busy = false) (h : execDecode s = .next t) :
    t.Sound := by
  rcases execDecode_cases s with ⟨busy, -⟩ | ⟨-, -, he⟩ | ⟨-, -, ⟨p, n, hd, he⟩ | ⟨e, hd, he⟩⟩
  · simp [busy] at idle
  · simp [he] at h
  · obtain ⟨-, -, -, -, -, hn⟩ := decodePacket_ok hd
    rw [State.input_length] at hn
    cases he.symm.trans h
    exact ready.commitDecode_sound p (hn.trans ready.ibLen_le)
  · have hp := decodePacket_error hd
    rw [State.input_length] at hp
    cases he.symm.trans h
    exact ready.enterError_sound true (hp.trans ready.ibLen_le)

theorem execEncode_keeps_sound {s t : State} (ready : s.Ready) (idle : s.busy = false) (h : execEncode s = .next t) :
    t.Sound := by
  rcases execEncode_cases s with ⟨busy, -⟩ | ⟨-, ⟨im, hd, he⟩ | ⟨k, -, he⟩⟩
  · simp [busy] at idle
  · cases he.symm.trans h
    exact ready.commitEncode_sound (encodePacket_length hd).1
  · cases he.symm.trans h
    exact ready.enterError_sound false (Nat.zero_le _)

/-- Settles O57: an idle step leaves the state; a command finds a state `State.Ready` and ends in a commit or an error. -/
theorem stepKeepsSound : Obligations.StepKeepsSound := by
  intro s t sound h
  have idle : s.takeCommand.busy = false := by
    obtain ⟨-, -, -, -, -, idle, -⟩ := sound
    exact idle
  rcases step_cases h with ⟨-, rfl⟩ | ⟨-, hd⟩ | ⟨-, he⟩
  · exact sound
  · exact execDecode_keeps_sound sound.takeCommand_ready idle hd
  · exact execEncode_keeps_sound sound.takeCommand_ready idle he

end Sys2Proof.Machine

/-! PROOFS. What a DECODE commits: the registers of one well-formed Packet, each within its width (R23, R25, R27, R190). -/

namespace Sys2Proof.Machine

/-! ### The register file a DECODE commits -/

/-- A register file that a DECODE commits is a well-formed Packet's, within the registers' widths (R23, R27). -/
theorem decodePacket_regs {b : Build} {strict : Bool} {buf : Bytes} {p : Pkt} {n : Nat}
    (h : decodePacket b strict buf = .ok (p, n)) : ∃ q : Packet, q.wf = true ∧ p = q.regs b ∧ p.fits b.listCap = true := by
  obtain ⟨hd, cur, header, body, -, -⟩ := decodePacket_ok h
  obtain ⟨-, -, small, inside⟩ := fhDec_bounds header
  obtain ⟨-, -, -, -, -, -, qos, -⟩ := fhDec_ok header
  obtain ⟨fields, -, wf, regs, fits, -⟩ := bodyDec_ok inside (Nat.le_add_right _ _) qos (by omega) body
  exact ⟨_, wf, regs, fits⟩

/-- Settles O46: the Packet whose registers are committed is the one read back from them. -/
theorem decodeCommitsAWellFormedPacket : Obligations.DecodeCommitsAWellFormedPacket := by
  intro b strict buf p n build h
  obtain ⟨q, wf, rfl, -⟩ := decodePacket_regs h
  exact ⟨q, packetOf_regs build wf, wf, rfl⟩

/-! ### The widths over a step -/

/-- A DECODE keeps the widths: an error leaves `PKT`, a commit replaces it by registers within them. -/
theorem execDecode_keeps_fits {s t : State} (fits : s.pkt.fits s.build.listCap = true) (h : execDecode s = .next t) :
    t.pkt.fits t.build.listCap = true := by
  rcases execDecode_cases s with ⟨-, he⟩ | ⟨-, -, he⟩ | ⟨-, -, ⟨p, n, hd, he⟩ | ⟨e, -, he⟩⟩
  · cases he.symm.trans h
    exact fits
  · simp [he] at h
  · cases he.symm.trans h
    obtain ⟨-, -, -, new⟩ := decodePacket_regs hd
    exact new
  · cases he.symm.trans h
    exact fits

/-- An ENCODE writes neither `PKT` nor the build (R193). -/
theorem execEncode_pkt {s t : State} (h : execEncode s = .next t) : t.pkt = s.pkt ∧ t.build = s.build := by
  rcases execEncode_cases s with ⟨-, he⟩ | ⟨-, ⟨im, -, he⟩ | ⟨k, -, he⟩⟩ <;>
  · cases he.symm.trans h
    exact ⟨rfl, rfl⟩

/-- Settles O58: only a DECODE that commits writes `PKT`, and what it commits is within the widths. -/
theorem stepKeepsRegisterWidths : Obligations.StepKeepsRegisterWidths := by
  intro s t fits h
  rcases step_cases h with ⟨-, rfl⟩ | ⟨-, hd⟩ | ⟨-, he⟩
  · exact fits
  · exact execDecode_keeps_fits (s := s.takeCommand) fits hd
  · obtain ⟨pkt, build⟩ := execEncode_pkt he
    rw [pkt, build]
    exact fits

end Sys2Proof.Machine

/-! PROOFS. Reset and the host's writes: the register each one reaches, and the invariants they keep (R23, R34, R35, R41, R42, R230, R240, R241). -/

namespace Sys2Proof.Machine

/-! ### Reset and the reserved commands -/

/-- After reset BUSY, DONE and ERR read 0 (R35, R42). -/
theorem resetOf_flags (b : Build) :
    (State.resetOf b).busy = false ∧ (State.resetOf b).done = false ∧ (State.resetOf b).err = false := by
  simp [State.busy, State.done, State.err, State.resetOf]

/-- Settles O56: reset leaves empty buffers, zero lengths, no command and a clear status. -/
theorem resetIsSound : Obligations.ResetIsSound := by
  intro b build
  obtain ⟨busy, done, err⟩ := resetOf_flags b
  refine ⟨build, rfl, rfl, Nat.zero_le _, Nat.zero_le _, busy, rfl, ?_, Nat.zero_le _, Nat.zero_le _⟩
  exact ⟨fun _ => done, by simp [err], fun _ _ _ => ⟨rfl, rfl⟩, .inl rfl⟩

/-- Settles O41: both values are refused whatever the state holds. -/
theorem reservedCommandsAreRefused : Obligations.ReservedCommandsAreRefused := fun _ => ⟨rfl, rfl⟩

/-- Without input a DECODE ends at its first test (R42, R209). -/
theorem decodePacket_empty (b : Build) (strict : Bool) : decodePacket b strict [] = .error ⟨.truncatedInput, 0⟩ := rfl

/-- Without a packet type an ENCODE ends at its first test (R42, R209). -/
theorem encodePacket_untyped {b : Build} {p : Pkt} (untyped : p.ptype = none) :
    encodePacket b p = .error (.raise .missingRequiredField) := by
  simp only [encodePacket, untyped]

theorem execDecode_error {s : State} {e : Err} (idle : s.busy = false) (room : s.ibLen.toNat ≤ s.build.ibCap)
    (h : decodePacket s.build s.strict s.input = .error e) : execDecode s = .next (s.enterError true e) := by
  rcases execDecode_cases s with ⟨busy, -⟩ | ⟨-, full, -⟩ | ⟨-, -, ⟨p, n, hd, -⟩ | ⟨e', hd, he⟩⟩
  · simp [busy] at idle
  · omega
  · simp [hd] at h
  · cases hd.symm.trans h
    exact he

theorem execEncode_error {s : State} {k : ErrKind} (idle : s.busy = false)
    (h : encodePacket s.build s.pkt = .error (.raise k)) : execEncode s = .next (s.enterError false ⟨k, 0⟩) := by
  rcases execEncode_cases s with ⟨busy, -⟩ | ⟨-, ⟨im, hd, -⟩ | ⟨k', hd, he⟩⟩
  · simp [busy] at idle
  · simp [hd] at h
  · cases hd.symm.trans h
    exact he

/-- Settles O55: the fields are those of `State.resetOf`; each command stops at its first test. -/
theorem resetIsTheTable : Obligations.ResetIsTheTable := by
  have decode : exec .decode State.reset = .next (State.reset.enterError true ⟨.truncatedInput, 0⟩) :=
    execDecode_error rfl (Nat.zero_le _) (decodePacket_empty _ _)
  have encode : exec .encode State.reset = .next (State.reset.enterError false ⟨.missingRequiredField, 0⟩) :=
    execEncode_error rfl (encodePacket_untyped rfl)
  unfold Obligations.ResetIsTheTable
  simp only [decode, encode]
  simp [State.reset, State.resetOf, Pkt.empty]

/-! ### The two ways a host write is taken -/

theorem hostWrite_reset (s : State) : s.hostWrite .reset = .next (State.resetOf s.build) := by
  unfold State.hostWrite
  split <;> rfl

theorem underWay_iff {s : State} : s.underWay = true ↔ s.busy = true ∨ s.cmd ≠ none := by
  simp [State.underWay, Option.isSome_iff_ne_none]

theorem not_underWay_iff {s : State} : s.underWay = false ↔ s.busy = false ∧ s.cmd = none := by
  simp [State.underWay]

/-- While a command is under way a `CMD` write is ignored and every other write but reset is refused (R240, R241). -/
theorem hostWrite_underWay {s : State} (way : s.underWay = true) :
    (∀ c, s.hostWrite (.cmd c) = .next s) ∧ (∀ w, s.hostWrite (.reg w) = .refused .hostWriteWhileBusy) ∧
    (∀ a b, s.hostWrite (.ib a b) = .refused .hostWriteWhileBusy) ∧
    (∀ n, s.hostWrite (.ibLen n) = .refused .hostWriteWhileBusy) ∧ ∀ v, s.hostWrite (.cfg v) = .refused .hostWriteWhileBusy := by
  simp [State.hostWrite, way]

theorem hostWrite_idle {s : State} (idle : s.underWay = false) (w : HostWrite) : s.hostWrite w = s.hostWriteIdle w := by
  simp [State.hostWrite, idle]

theorem hostWrite_reg {s : State} (idle : s.underWay = false) {w : PktWrite} (fits : w.fits s.build.listCap = true) :
    s.hostWrite (.reg w) = .next { s with pkt := w.apply s.pkt } := by
  simp [hostWrite_idle idle, State.hostWriteIdle, fits]

/-- A value that does not meet its register's width is refused (R23, log entry 10). -/
theorem hostWrite_reg_too_wide {s : State} (idle : s.underWay = false) {w : PktWrite} (wide : ¬ w.fits s.build.listCap = true) :
    s.hostWrite (.reg w) = .refused .valueTooWide := by
  simp [hostWrite_idle idle, State.hostWriteIdle, wide]

/-! ### The widths over a host write -/

theorem pkt_fits_iff {cap : Option Nat} {p : Pkt} : p.fits cap = true ↔
    p.protoName.all textFits = true ∧ p.clientId.all textFits = true ∧ p.willTopic.all textFits = true ∧
    p.willMessage.all textFits = true ∧ p.username.all textFits = true ∧ p.password.all textFits = true ∧
    p.topic.all textFits = true ∧ p.payload.all (fun t => decide (t.length ≤ rlMax)) = true ∧
    p.subs.all (fun l => countFits cap l.length && l.all fun e => textFits e.1) = true ∧
    p.granted.all (fun l => countFits cap l.length) = true ∧
    p.topics.all (fun l => countFits cap l.length && l.all textFits) = true := by
  simp only [Pkt.fits, Bool.and_eq_true, and_assoc]

/-- A write that fits changes one register and leaves the widths of the others (R23, R25). -/
theorem pktWrite_apply_fits {cap : Option Nat} {w : PktWrite} {p : Pkt} (new : w.fits cap = true) (old : p.fits cap = true) :
    (w.apply p).fits cap = true := by
  rw [pkt_fits_iff] at old ⊢
  obtain ⟨name, cid, wt, wm, un, pw, topic, pl, subs, granted, topics⟩ := old
  cases w with
  | protoName => exact ⟨new, cid, wt, wm, un, pw, topic, pl, subs, granted, topics⟩
  | clientId => exact ⟨name, new, wt, wm, un, pw, topic, pl, subs, granted, topics⟩
  | willTopic => exact ⟨name, cid, new, wm, un, pw, topic, pl, subs, granted, topics⟩
  | willMessage => exact ⟨name, cid, wt, new, un, pw, topic, pl, subs, granted, topics⟩
  | username => exact ⟨name, cid, wt, wm, new, pw, topic, pl, subs, granted, topics⟩
  | password => exact ⟨name, cid, wt, wm, un, new, topic, pl, subs, granted, topics⟩
  | topic => exact ⟨name, cid, wt, wm, un, pw, new, pl, subs, granted, topics⟩
  | payload => exact ⟨name, cid, wt, wm, un, pw, topic, new, subs, granted, topics⟩
  | subs => exact ⟨name, cid, wt, wm, un, pw, topic, pl, new, granted, topics⟩
  | granted => exact ⟨name, cid, wt, wm, un, pw, topic, pl, subs, new, topics⟩
  | topics => exact ⟨name, cid, wt, wm, un, pw, topic, pl, subs, granted, new⟩
  | ptype | dup | qos | retain | protoVer | cleanSession | keepAlive | willQos | willRetain | returnCode | msgId =>
    exact ⟨name, cid, wt, wm, un, pw, topic, pl, subs, granted, topics⟩

/-! ### Soundness over a host write -/

/-- The write of `CMD` to an idle block: 1 and 2 clear the flags, 0 and 3 leave the status (R34, R35, R212). -/
theorem State.Sound.writeCmd {s : State} (sound : s.Sound) (idle : s.cmd = none) (c : BitVec 2) : (s.writeCmd c).Sound := by
  obtain ⟨build, ib, ob, ibLen, obLen, busy, work, ⟨-, withErr, withoutErr, code⟩, consumed, errpos⟩ := sound
  by_cases starts : c = 1 ∨ c = 2
  · obtain ⟨busy', done', err'⟩ := State.writeCmd_flags (s := s) starts
    refine ⟨build, ib, ob, ibLen, obLen, busy', work, ⟨fun _ => done', by simp [err'], fun _ h1 h2 => ?_, code⟩, consumed, errpos⟩
    rcases starts with rfl | rfl
    · exact absurd rfl h1
    · exact absurd rfl h2
  · have status := State.writeCmd_reserved (s := s) starts
    have busy' : (s.writeCmd c).busy = s.busy := congrArg (·.getLsbD 0) status
    have done' : (s.writeCmd c).done = s.done := congrArg (·.getLsbD 1) status
    have err' : (s.writeCmd c).err = s.err := congrArg (·.getLsbD 2) status
    refine ⟨build, ib, ob, ibLen, obLen, busy'.trans busy, work, ⟨fun h => absurd ?_ starts, ?_, ?_, code⟩, consumed, errpos⟩
    · simpa using h
    · rw [err', done']
      exact withErr
    · intro noErr _ _
      exact withoutErr (err' ▸ noErr) (by simp [idle]) (by simp [idle])

/-- A write to an idle block that is taken keeps a sound state sound and the widths. -/
theorem hostWriteIdle_keeps_sound {s t : State} {w : HostWrite} (sound : s.Sound) (idle : s.cmd = none)
    (fits : s.pkt.fits s.build.listCap = true) (h : s.hostWriteIdle w = .next t) :
    t.Sound ∧ t.pkt.fits t.build.listCap = true := by
  obtain ⟨build, ib, ob, ibLen, obLen, rest⟩ := id sound
  cases w with
  | reg r =>
    simp only [State.hostWriteIdle] at h
    split at h
    next new =>
      cases h
      exact ⟨sound, pktWrite_apply_fits new fits⟩
    next => cases h
  | ib a b =>
    simp only [State.hostWriteIdle] at h
    split at h
    next room =>
      cases h
      exact ⟨⟨build, Mem.wf_write ib b room, ob, ibLen, obLen, rest⟩, fits⟩
    next => cases h
  | ibLen n =>
    simp only [State.hostWriteIdle] at h
    split at h
    next room =>
      cases h
      exact ⟨⟨build, ib, ob, room, obLen, rest⟩, fits⟩
    next => cases h
  | cfg v =>
    cases h
    exact ⟨sound, fits⟩
  | cmd c =>
    cases h
    exact ⟨sound.writeCmd idle c, fits⟩
  | reset =>
    cases h
    exact ⟨resetIsSound _ build, rfl⟩

/-- Settles O60: under way only a reset changes anything; otherwise the write is one to an idle block. -/
theorem hostWritesKeepSound : Obligations.HostWritesKeepSound := by
  intro s t w sound fits h
  cases way : s.underWay with
  | false => exact hostWriteIdle_keeps_sound sound (not_underWay_iff.1 way).2 fits (hostWrite_idle way w ▸ h)
  | true =>
    obtain ⟨cmd, reg, ib, ibLen, cfg⟩ := hostWrite_underWay way
    cases w with
    | reset =>
      cases (hostWrite_reset s).symm.trans h
      obtain ⟨build, -⟩ := sound
      exact ⟨resetIsSound _ build, rfl⟩
    | cmd c =>
      cases (cmd c).symm.trans h
      exact ⟨sound, fits⟩
    | reg | ib | ibLen | cfg => simp [reg, ib, ibLen, cfg] at h

/-! ### What each host write sets -/

theorem writeCmd_starting (s : State) {c : BitVec 2} (h : c = 1 ∨ c = 2) :
    s.writeCmd c = { s with cmd := some c, status := 0 } := by
  rcases h with rfl | rfl <;> rfl

theorem writeCmd_held (s : State) {c : BitVec 2} (h : c = 0 ∨ c = 3) : s.writeCmd c = { s with cmd := some c } := by
  rcases h with rfl | rfl <;> rfl

/-- An offset or a length is taken within the capacity of `IB` and faults beyond it (R31, log entry 10). -/
theorem hostWrite_ib {s : State} (idle : s.underWay = false) :
    (∀ a b, a < s.build.ibCap → s.hostWrite (.ib a b) = .next { s with ib := s.ib.write a b }) ∧
    (∀ a b, s.build.ibCap ≤ a → s.hostWrite (.ib a b) = .fault .beyondCapacity) ∧
    (∀ n : Offset, n.toNat ≤ s.build.ibCap → s.hostWrite (.ibLen n) = .next { s with ibLen := n }) ∧
    (∀ n : Offset, s.build.ibCap < n.toNat → s.hostWrite (.ibLen n) = .fault .beyondCapacity) := by
  refine ⟨fun a b room => ?_, fun a b far => ?_, fun n room => ?_, fun n long => ?_⟩
  · rw [hostWrite_idle idle, State.hostWriteIdle, if_pos room]
  · rw [hostWrite_idle idle, State.hostWriteIdle, if_neg (Nat.not_lt.2 far)]
  · rw [hostWrite_idle idle, State.hostWriteIdle, if_pos room]
  · rw [hostWrite_idle idle, State.hostWriteIdle, if_neg (Nat.not_le.2 long)]

theorem textFits_iff {t : Text} : textFits t = true ↔ t.length ≤ textMax := by simp [textFits]

theorem countFits_iff {cap : Option Nat} {n : Nat} : countFits cap n = true ↔ ∀ c, cap = some c → n ≤ c := by
  cases cap <;> simp [countFits]

/-! The widths of R23, register by register; the seven text registers share the first. -/

theorem optionText_fits_iff {v : Option Text} : v.all textFits = true ↔ ∀ t, v = some t → t.length ≤ textMax := by
  simp only [Option.all_eq_true, textFits_iff]

theorem payload_fits_iff {cap : Option Nat} {v : Option Bytes} :
    (PktWrite.payload v).fits cap = true ↔ ∀ t, v = some t → t.length ≤ rlMax := by
  simp only [PktWrite.fits, Option.all_eq_true, decide_eq_true_eq]

theorem subs_fits_iff {cap : Option Nat} {v : Option (List (Text × Byte))} : (PktWrite.subs v).fits cap = true ↔
    ∀ l, v = some l → (∀ c, cap = some c → l.length ≤ c) ∧ ∀ e ∈ l, e.1.length ≤ textMax := by
  simp only [PktWrite.fits, Option.all_eq_true, Bool.and_eq_true, List.all_eq_true, countFits_iff, textFits_iff]

theorem granted_fits_iff {cap : Option Nat} {v : Option (List Byte)} : (PktWrite.granted v).fits cap = true ↔
    ∀ l, v = some l → ∀ c, cap = some c → l.length ≤ c := by
  simp only [PktWrite.fits, Option.all_eq_true, countFits_iff]

theorem topics_fits_iff {cap : Option Nat} {v : Option (List Text)} : (PktWrite.topics v).fits cap = true ↔
    ∀ l, v = some l → (∀ c, cap = some c → l.length ≤ c) ∧ ∀ t ∈ l, t.length ≤ textMax := by
  simp only [PktWrite.fits, Option.all_eq_true, Bool.and_eq_true, List.all_eq_true, countFits_iff, textFits_iff]

/-- Settles O59: reset, then the writes to a block with a command under way, then those to an idle one. -/
theorem hostWritesReachTheirRegister : Obligations.HostWritesReachTheirRegister := by
  intro s
  refine ⟨hostWrite_reset s, fun way => hostWrite_underWay (underWay_iff.2 way), fun busy cmd => ?_⟩
  have idle : s.underWay = false := not_underWay_iff.2 ⟨busy, cmd⟩
  intro sets fits counts
  obtain ⟨ibIn, ibOut, lenIn, lenOut⟩ := hostWrite_ib idle
  have write : ∀ w : PktWrite, w.fits s.build.listCap = true → sets w (w.apply s.pkt) := fun _ => hostWrite_reg idle
  refine ⟨fun c hc => ?_, fun c hc => ?_, fun v => hostWrite_idle idle _, ibIn, ibOut, lenIn, lenOut,
    fun _ => write _ rfl, fun _ => write _ rfl, fun _ => write _ rfl, fun _ => write _ rfl, fun _ => write _ rfl, fun _ => write _ rfl,
    fun _ => write _ rfl, fun _ => write _ rfl, fun _ => write _ rfl, fun _ => write _ rfl, fun _ => write _ rfl,
    fun v hv => ?_, fun v hv => write _ (payload_fits_iff.2 hv), fun v hv => write _ (subs_fits_iff.2 hv),
    fun v hv => write _ (granted_fits_iff.2 hv), fun v hv => write _ (topics_fits_iff.2 hv), fun t wide w hw => ?_,
    fun t wide => ?_, fun l wide => ?_, fun l wide => ?_, fun l wide => ?_⟩
  · rw [hostWrite_idle idle, State.hostWriteIdle, writeCmd_starting s hc]
  · rw [hostWrite_idle idle, State.hostWriteIdle, writeCmd_held s hc]
  · have text := optionText_fits_iff.2 hv
    exact ⟨write _ text, write _ text, write _ text, write _ text, write _ text, write _ text, write _ text⟩
  · have text : ¬ (some t).all textFits = true := fun h => wide (optionText_fits_iff.1 h t rfl)
    simp only [List.mem_cons, List.not_mem_nil, or_false] at hw
    rcases hw with rfl | rfl | rfl | rfl | rfl | rfl | rfl <;> exact hostWrite_reg_too_wide idle text
  · exact hostWrite_reg_too_wide idle fun h => Nat.not_le.2 wide (payload_fits_iff.1 h t rfl)
  · exact hostWrite_reg_too_wide idle fun h => wide (subs_fits_iff.1 h l rfl)
  · exact hostWrite_reg_too_wide idle fun h => wide (granted_fits_iff.1 h l rfl)
  · exact hostWrite_reg_too_wide idle fun h => wide (topics_fits_iff.1 h l rfl)

end Sys2Proof.Machine

/-! PROOFS. What an ENCODE reads of the register file: its Packet and nothing else (R26, R186, R191). -/

namespace Sys2Proof.Machine

/-! ### The registers behind a body (R26) -/

/-- Registers that pass the check of a type hold a body of that type (R26, R171). -/
theorem bodyOf_of_reqOk {t : Tag} {p : Pkt} (h : reqOk t p = true) : ∃ body, bodyOf t p = some body := by
  cases t
  case connect =>
    simp only [reqOk, Bool.and_eq_true, Option.isSome_iff_exists] at h
    obtain ⟨⟨⟨⟨⟨⟨name, hn⟩, ver, hv⟩, cs, hc⟩, ka, hk⟩, cid, hi⟩, -⟩ := h
    simp [bodyOf, hn, hv, hc, hk, hi]
  case publish =>
    simp only [reqOk, Bool.and_eq_true, Option.isSome_iff_exists] at h
    obtain ⟨⟨⟨topic, ht⟩, pl, hp⟩, -⟩ := h
    simp [bodyOf, ht, hp]
  case subscribe | suback | unsubscribe =>
    simp only [reqOk, Bool.and_eq_true, Option.isSome_iff_exists] at h
    obtain ⟨⟨m, hm⟩, l, hl⟩ := h
    simp [bodyOf, hm, hl]
  case pingreq | pingresp | disconnect => exact ⟨.empty, rfl⟩
  all_goals
    obtain ⟨v, hv⟩ := Option.isSome_iff_exists.1 h
    simp [bodyOf, hv]

/-- With all four will registers or none, they hold the will and nothing else (R26, R171). -/
theorem willOf_regs {p : Pkt} (h : willAllOrNone p = true) :
    p.willTopic = (willOf p).map (·.topic) ∧ p.willMessage = (willOf p).map (·.message) ∧
    p.willQos = (willOf p).map (·.qos) ∧ p.willRetain = (willOf p).map (·.retain) := by
  revert h
  unfold willAllOrNone willOf
  cases p.willTopic <;> cases p.willMessage <;> cases p.willQos <;> cases p.willRetain <;> simp

/-- A body encoder gives on the register file what it gives on the registers of its Packet. -/
theorem bodyEnc_regs {b : Build} {p : Pkt} {q : Packet} (h : packetOf b p = some q) :
    bodyEnc b q.tag p = bodyEnc b q.tag (q.regs b) := by
  obtain ⟨c, body, -, -, -, req, fields, he⟩ := packetOf_iff.1 h
  obtain ⟨t, d, qos, r, body'⟩ := q
  cases he
  dsimp only at *
  cases t
  case connect =>
    simp only [bodyOf, Option.bind_eq_bind, Option.bind_eq_some_iff] at fields
    obtain ⟨name, hn, ver, hv, cs, hc, ka, hk, cid, hi, fields⟩ := fields
    cases fields
    simp only [reqOk, Bool.and_eq_true] at req
    obtain ⟨wt, wm, wq, wr⟩ := willOf_regs req.2
    simp [bodyEnc, Packet.regs, beConnect, cfDerive, willPresent, ← wt, ← wm, ← wq, ← wr, hn, hv, hc, hk, hi]
  case publish =>
    simp only [bodyOf, Option.bind_eq_bind, Option.bind_eq_some_iff] at fields
    obtain ⟨topic, ht, pl, hp, fields⟩ := fields
    cases fields
    by_cases hq : p.qos = 0#2 <;> simp [bodyEnc, Packet.regs, bePublish, encPublishId, ht, hp, hq]
  case subscribe | suback | unsubscribe =>
    simp only [bodyOf, Option.bind_eq_bind, Option.bind_eq_some_iff] at fields
    obtain ⟨m, hm, l, hl, fields⟩ := fields
    cases fields
    simp [bodyEnc, Packet.regs, beSubscribe, beSuback, beUnsubscribe, hm, hl]
  case pingreq | pingresp | disconnect => rfl
  all_goals
    obtain ⟨v, hv, he⟩ := Option.map_eq_some_iff.1 fields
    cases he
    simp [bodyEnc, Packet.regs, beConnack, encMsgId, hv]

/-- The flags of a Packet stand in its registers (R26). -/
theorem regs_flags (b : Build) (q : Packet) :
    (q.regs b).dup = q.dup ∧ (q.regs b).qos = q.qos ∧ (q.regs b).retain = q.retain := by
  obtain ⟨t, d, qos, r, body⟩ := q
  cases body <;> exact ⟨rfl, rfl, rfl⟩

/-- Behind the checks an encode depends on the body's bytes and the three flags (R191). -/
theorem encodeChecked_congr {b : Build} {t : Tag} {p p' : Pkt} (body : bodyEnc b t p = bodyEnc b t p') (dup : p.dup = p'.dup)
    (qos : p.qos = p'.qos) (retain : p.retain = p'.retain) : encodeChecked b t p = encodeChecked b t p' := by
  simp only [encodeChecked, body, dup, qos, retain]

/-- An encode of a register file that holds a Packet is the encode of that Packet's registers (R26, R186). -/
theorem encodePacket_of_packetOf {b : Build} {p : Pkt} {q : Packet} (h : packetOf b p = some q) :
    encodePacket b p = encodeChecked b q.tag (q.regs b) := by
  obtain ⟨c, body, code, tag, qos3, req, -, he⟩ := packetOf_iff.1 h
  obtain ⟨dup, qos, retain⟩ := regs_flags b q
  rw [encodePacket_eq code tag qos3 req]
  exact encodeChecked_congr (bodyEnc_regs h) (by rw [dup, he]) (by rw [qos, he]) (by rw [retain, he])

/-- Settles O50: success has passed the checks of `packet_of`, and then only the Packet counts. -/
theorem encodeDependsOnlyOnThePacket : Obligations.EncodeDependsOnlyOnThePacket := by
  refine fun b p => ⟨fun im h => ?_, fun p' q h h' => ?_⟩
  · obtain ⟨c, t, code, tag, qos, req, -⟩ := encodePacket_ok h
    obtain ⟨body, fields⟩ := bodyOf_of_reqOk req
    have held : packetOf b p = some ⟨t, p.dup, p.qos, p.retain, body⟩ :=
      packetOf_iff.2 ⟨c, body, code, tag, qos, req, fields, rfl⟩
    simp [held]
  · rw [encodePacket_of_packetOf h, encodePacket_of_packetOf h']

end Sys2Proof.Machine

/-! PROOFS. Where the operations stop: at a bound beyond the input, a code without a tag, a register whose valid bit is 0 (R22, R31, R59, R130; log entries 8 and 9). -/

namespace Sys2Proof.Machine

/-! ### The rows of the bodies are the two dispatches (R150, R170) -/

theorem exec_bdOf (t : Tag) (h : Hdr) (s : State) :
    exec (bdOf t h) s = s.bodyStep fun buf cur lim p => bodyDec s.build t buf cur lim h.qos p := by
  cases t <;> rfl

theorem exec_beOf (t : Tag) (h : Hdr) (s : State) : exec (beOf t h) s = s.imageStep (bodyEnc s.build t) := by
  cases t <;> rfl

/-! ### How one operation stops -/

theorem State.decStep_fault {s : State} {n : Nat} (h : s.inputOk n = false) (op : Bytes → Work → Except Err Work) :
    s.decStep n op = .fault .inputBeyondBuffer := by
  simp [State.decStep, h]

theorem State.encStep_refused {s : State} {op : Pkt → Work → Except EncStop Work}
    (h : op s.pkt s.working = .error .invalidRegister) : s.encStep op = .refused .invalidRegister := by
  rw [State.encStep, h]

theorem State.imageStep_refused {s : State} {op : Pkt → Except EncStop Bytes} (h : op s.pkt = .error .invalidRegister) :
    s.imageStep op = .refused .invalidRegister :=
  State.encStep_refused (by simp only [h, except_error_bind])

/-- A body encoder that reads an invalid register is refused as its own row and through BODY_ENC (R170). -/
theorem exec_body_refused {s : State} {t : Tag} (h : Hdr) (stop : bodyEnc s.build t s.pkt = .error .invalidRegister) :
    ∀ i ∈ [beOf t h, .bodyEnc t], exec i s = .refused .invalidRegister := by
  intro i hi
  simp only [List.mem_cons, List.not_mem_nil, or_false] at hi
  rcases hi with rfl | rfl
  · rw [exec_beOf]
    exact State.imageStep_refused stop
  · exact State.imageStep_refused stop

/-! ### Sequences of reads that stop at an invalid register -/

/-- A part that can stop only at an invalid register, before a rest that stops there. -/
theorem bind_stops {α β : Type} {x : Except EncStop α} {f : α → Except EncStop β}
    (first : ∀ e, x = .error e → e = .invalidRegister) (rest : ∀ a, x = .ok a → f a = .error .invalidRegister) :
    (x >>= f) = .error .invalidRegister := by
  cases x with
  | error e => rw [first e rfl, except_error_bind]
  | ok a => exact rest a rfl

theorem readReg_error {α : Type} {r : Option α} {e : EncStop} (h : readReg r = .error e) : e = .invalidRegister := by
  cases r <;> cases h
  rfl

/-- A register is read before a rest that stops at an invalid register. -/
theorem readReg_bind_stops {α β : Type} {r : Option α} {f : α → Except EncStop β}
    (rest : ∀ v, r = some v → f v = .error .invalidRegister) : (readReg r >>= f) = .error .invalidRegister :=
  bind_stops (fun _ => readReg_error) fun v hv => rest v (readReg_eq_ok.1 hv)

/-- An invalid register stops every sequence that reads it next. -/
theorem readReg_none_bind {α β : Type} {r : Option α} (h : r = none) (f : α → Except EncStop β) :
    (readReg r >>= f) = .error .invalidRegister := by
  rw [h]
  rfl

theorem encTextReg_none {r : Option Text} (h : r = none) : encTextReg r = .error .invalidRegister := readReg_none_bind h _

theorem encTextReg_none_bind {β : Type} {r : Option Text} (h : r = none) (f : Bytes → Except EncStop β) :
    (encTextReg r >>= f) = .error .invalidRegister := by
  rw [encTextReg_none h, except_error_bind]

theorem encTextReg_wf_bind {β : Type} {r : Option Text} {t : Text} (h : r = some t) (len : t.length ≤ textMax) (wf : utf8Ok t = true)
    (f : Bytes → Except EncStop β) : (encTextReg r >>= f) = f (wireText t) := by
  rw [h, encTextReg_of ⟨len, wf⟩, except_ok_bind]

/-! ### The encoders that stop -/

theorem bodyEnc_msgId_none {b : Build} {t : Tag} {p : Pkt} (h : p.msgId = none)
    (ht : t ∈ [Tag.puback, .pubrec, .pubrel, .pubcomp, .unsuback, .subscribe, .suback, .unsubscribe]) :
    bodyEnc b t p = .error .invalidRegister := by
  simp only [List.mem_cons, List.not_mem_nil, or_false] at ht
  rcases ht with rfl | rfl | rfl | rfl | rfl | rfl | rfl | rfl <;> exact readReg_none_bind h _

theorem beSubscribe_stops {p : Pkt} (h : p.subs = none) : beSubscribe p = .error .invalidRegister :=
  readReg_bind_stops fun _ _ => readReg_none_bind h _

theorem beSuback_stops {p : Pkt} (h : p.granted = none) : beSuback p = .error .invalidRegister :=
  readReg_bind_stops fun _ _ => readReg_none_bind h _

theorem beUnsubscribe_stops {p : Pkt} (h : p.topics = none) : beUnsubscribe p = .error .invalidRegister :=
  readReg_bind_stops fun _ _ => readReg_none_bind h _

theorem encPublishId_error {p : Pkt} {e : EncStop} (h : encPublishId p = .error e) : e = .invalidRegister := by
  unfold encPublishId at h
  split at h
  · rcases except_bind_error.1 h with h | ⟨_, _, h⟩
    · exact readReg_error h
    · cases h
  · cases h

theorem encPublishId_none {p : Pkt} (qos : p.qos ≠ 0) (h : p.msgId = none) : encPublishId p = .error .invalidRegister := by
  rw [encPublishId, if_pos (by simpa using qos)]
  exact readReg_none_bind h _

/-- Behind an accepted topic a publish stops at the message-id it needs or at the payload (R174). -/
theorem bePublish_stops {p : Pkt} {t : Text} (ht : p.topic = some t) (len : t.length ≤ textMax) (wf : utf8Ok t = true)
    (h : (p.qos ≠ 0 ∧ p.msgId = none) ∨ p.payload = none) : bePublish p = .error .invalidRegister := by
  rw [bePublish, encTextReg_wf_bind ht len wf]
  rcases h with ⟨qos, hm⟩ | hp
  · rw [encPublishId_none qos hm, except_error_bind]
  · exact bind_stops (fun _ => encPublishId_error) fun _ _ => readReg_none_bind hp _

/-- With a will its two registers are read before clean-session (R142). -/
theorem cfDerive_will {p : Pkt} (will : willPresent p = true) : cfDerive p =
    (readReg p.willRetain >>= fun wr => readReg p.willQos >>= fun wq => readReg p.cleanSession >>= fun cs =>
      .ok ⟨nonEmpty p.username, nonEmpty p.password, wr, wq, true, cs⟩) := by
  simp [cfDerive, will]

/-- Without a will only clean-session is read (R142, R145). -/
theorem cfDerive_no_will {p : Pkt} (will : willPresent p = false) : cfDerive p =
    (readReg p.cleanSession >>= fun cs => .ok ⟨nonEmpty p.username, nonEmpty p.password, false, 0, false, cs⟩) := by
  simp [cfDerive, will]

theorem cfDerive_error {p : Pkt} {e : EncStop} (h : cfDerive p = .error e) : e = .invalidRegister := by
  cases will : willPresent p with
  | false =>
    rw [cfDerive_no_will will] at h
    rcases except_bind_error.1 h with h | ⟨_, _, h⟩
    · exact readReg_error h
    · cases h
  | true =>
    rw [cfDerive_will will] at h
    rcases except_bind_error.1 h with h | ⟨_, _, h⟩
    · exact readReg_error h
    rcases except_bind_error.1 h with h | ⟨_, _, h⟩
    · exact readReg_error h
    rcases except_bind_error.1 h with h | ⟨_, _, h⟩
    · exact readReg_error h
    · cases h

/-- `CF_DERIVE` needs clean-session, and with a will its qos and retain (R142). -/
theorem cfDerive_stops {p : Pkt} (h : p.cleanSession = none ∨
    (p.willTopic ≠ none ∧ p.willMessage ≠ none ∧ (p.willQos = none ∨ p.willRetain = none))) :
    cfDerive p = .error .invalidRegister := by
  cases will : willPresent p with
  | false =>
    rw [cfDerive_no_will will]
    rcases h with hc | ⟨ht, hm, -⟩
    · exact readReg_none_bind hc _
    · simp [willPresent, Option.isSome_iff_ne_none, ht, hm] at will
  | true =>
    rw [cfDerive_will will]
    rcases h with hc | ⟨-, -, hq | hr⟩
    · exact readReg_bind_stops fun _ _ => readReg_bind_stops fun _ _ => readReg_none_bind hc _
    · exact readReg_bind_stops fun _ _ => readReg_none_bind hq _
    · exact readReg_none_bind hr _

theorem beConnect_flags_stop {p : Pkt} (h : cfDerive p = .error .invalidRegister) : beConnect p = .error .invalidRegister := by
  rw [beConnect, h, except_error_bind]

theorem beConnect_name_stops {p : Pkt} (h : p.protoName = none) : beConnect p = .error .invalidRegister :=
  bind_stops (fun _ => cfDerive_error) fun _ _ => encTextReg_none_bind h _

/-- Behind an accepted protocol name a connect stops at the first of the next three registers that is invalid (R172). -/
theorem beConnect_stops {p : Pkt} {t : Text} (ht : p.protoName = some t) (len : t.length ≤ textMax) (wf : utf8Ok t = true)
    (h : p.protoVer = none ∨ p.keepAlive = none ∨ p.clientId = none) : beConnect p = .error .invalidRegister := by
  refine bind_stops (fun _ => cfDerive_error) fun _ _ => ?_
  rw [encTextReg_wf_bind ht len wf]
  rcases h with hv | hk | hc
  · exact readReg_none_bind hv _
  · exact readReg_bind_stops fun _ _ => readReg_none_bind hk _
  · exact readReg_bind_stops fun _ _ => readReg_bind_stops fun _ _ => encTextReg_none_bind hc _

theorem exec_cfDerive_refused {s : State} (h : cfDerive s.pkt = .error .invalidRegister) :
    exec .cfDerive s = .refused .invalidRegister := by
  change execCfDerive s = _
  exact State.encStep_refused (by simp only [h, except_error_bind])

/-! ### The decode side -/

/-- With a bound beyond the input no decode-side operation reads (R31, R59). -/
theorem exec_decodeSide_fault {s : State} (h : s.inputOk s.working.lim = false) :
    ∀ i ∈ [Instr.decByte, .decWord, .decText, .decRest, .rlDec, .rlDecStrict], exec i s = .fault .inputBeyondBuffer := by
  intro i hi
  simp only [List.mem_cons, List.not_mem_nil, or_false] at hi
  rcases hi with rfl | rfl | rfl | rfl | rfl | rfl <;>
    simp only [exec, execDecByte, execDecWord, execDecText, execDecRest, execRlDec, execRlDecStrict, State.decStep_fault h]

theorem exec_bodyDec_fault {s : State} (hdr : Hdr) (h : s.inputOk s.working.lim = false) (t : Tag) (q : BitVec 2) :
    ∀ i ∈ [bdOf t hdr, .bodyDec t q], exec i s = .fault .inputBeyondBuffer := by
  intro i hi
  simp only [List.mem_cons, List.not_mem_nil, or_false] at hi
  rcases hi with rfl | rfl
  · rw [exec_bdOf, State.bodyStep, State.decStep_fault h]
  · simp only [exec, execBodyDec, State.bodyStep, State.decStep_fault h]

/-- With `IB_LEN` above the capacity no bound is within the input (R31). -/
theorem inputOk_false_of_ibCap_lt {s : State} (h : s.build.ibCap < s.ibLen.toNat) (n : Nat) : s.inputOk n = false :=
  Bool.eq_false_iff.2 fun ok => Nat.not_le.2 h (State.inputOk_iff.1 ok).2

theorem exec_fhDec_fault {s : State} (h : s.build.ibCap < s.ibLen.toNat) : exec .fhDec s = .fault .inputBeyondBuffer := by
  simp only [exec, execFhDec, State.decStep_fault (inputOk_false_of_ibCap_lt h _)]

theorem exec_decode_fault {s : State} (h : s.build.ibCap < s.ibLen.toNat) (idle : s.busy = false) :
    exec .decode s = .fault .inputBeyondBuffer := by
  simp [exec, execDecode, idle, inputOk_false_of_ibCap_lt h]

theorem exec_tagOf_refused {s : State} {c : BitVec 4} (h : lookupTag s.build.typeCode c = none) :
    exec (.tagOf c) s = .refused .codeWithoutTag := by
  simp only [exec, execTagOf, h]

/-- Settles O39: each operation stops at its first step that has no byte, no tag or no register to read. -/
theorem operationsStopWhereNoRuleReads : Obligations.OperationsStopWhereNoRuleReads := by
  intro s h
  refine ⟨fun ok => ⟨exec_decodeSide_fault ok, exec_bodyDec_fault h ok⟩,
    fun long => ⟨exec_fhDec_fault long, exec_decode_fault long⟩,
    fun table => ⟨exec_tagOf_refused ((lookupTag_eq_none table 0).2 (.inl rfl)),
      exec_tagOf_refused ((lookupTag_eq_none table 15).2 (.inr rfl))⟩,
    fun hm t ht => exec_body_refused h (bodyEnc_msgId_none hm ht),
    fun hr => exec_body_refused (t := .connack) h (readReg_none_bind hr _),
    fun hs => exec_body_refused (t := .subscribe) h (beSubscribe_stops hs),
    fun hg => exec_body_refused (t := .suback) h (beSuback_stops hg),
    fun ht => exec_body_refused (t := .unsubscribe) h (beUnsubscribe_stops ht), ?publish, ?flags, ?connect⟩
  case publish =>
    exact fun i hi => ⟨fun ht => exec_body_refused (t := .publish) h (encTextReg_none_bind ht _) i hi,
      fun t ht len wf rest => exec_body_refused (t := .publish) h (bePublish_stops ht len wf rest) i hi⟩
  case flags =>
    intro hf i hi
    have stop := cfDerive_stops hf
    rcases List.mem_cons.1 hi with rfl | hi
    · exact exec_cfDerive_refused stop
    · exact exec_body_refused (t := .connect) h (beConnect_flags_stop stop) i hi
  case connect =>
    exact fun i hi => ⟨fun hn => exec_body_refused (t := .connect) h (beConnect_name_stops hn) i hi,
      fun t ht len wf rest => exec_body_refused (t := .connect) h (beConnect_stops ht len wf rest) i hi⟩

end Sys2Proof.Machine

/-! PROOFS. Encoder and decoder are inverse at the three places where the block finds a code (R73, R80, R85, R86, R130, R202). -/

namespace Sys2Proof.Machine

/-! ### The encoder, row by row -/

theorem wellFormed_bdOf (t : Tag) (h : Hdr) : (bdOf t h).wellFormed = h.legal := by cases t <;> rfl

theorem wellFormed_beOf (t : Tag) (h : Hdr) : (beOf t h).wellFormed = h.legal := by cases t <;> rfl

theorem wellFormed_decodeCmd (c : BitVec 2) : (decodeCmd c).wellFormed = true :=
  bitVec2_forall (P := fun c => (decodeCmd c).wellFormed = true) (by decide) c

theorem encodeAt_bdOf (tc : List Tag) (t : Tag) (h : Hdr) :
    encodeAt tc (bdOf t h) = some (.inputByte, headerByte (lookupCode tc t) h) := by cases t <;> rfl

theorem encodeAt_beOf (tc : List Tag) (t : Tag) (h : Hdr) :
    encodeAt tc (beOf t h) = some (.typeReg, headerByte (lookupCode tc t) h) := by cases t <;> rfl

theorem encodeAt_decodeCmd (tc : List Tag) (c : BitVec 2) : encodeAt tc (decodeCmd c) = some (.cmd, c.setWidth 8) :=
  bitVec2_forall (P := fun c => encodeAt tc (decodeCmd c) = some (.cmd, c.setWidth 8)) (fun n => by fin_cases n <;> rfl) c

/-- The rows of the encoding tables: a body decoder or encoder under its tag's code (R73, R80), an invalid code (R202),
a `CMD` code (R85). -/
inductive TableRow (tc : List Tag) : Instr → Port → Byte → Prop
  | bodyDec (t : Tag) (h : Hdr) : TableRow tc (bdOf t h) .inputByte (headerByte (lookupCode tc t) h)
  | bodyEnc (t : Tag) (h : Hdr) : TableRow tc (beOf t h) .typeReg (headerByte (lookupCode tc t) h)
  | invalid0 (h : Hdr) : TableRow tc (.invalidType0 h) .inputByte (headerByte 0 h)
  | invalid15 (h : Hdr) : TableRow tc (.invalidType15 h) .inputByte (headerByte 15 h)
  | command (c : BitVec 2) : TableRow tc (decodeCmd c) .cmd (c.setWidth 8)

theorem tableRow_of_encodeAt {tc : List Tag} {i : Instr} {p : Port} {b : Byte} (enc : encodeAt tc i = some (p, b)) :
    TableRow tc i p b := by
  cases i <;> cases enc
  case bdConnect.refl h => exact .bodyDec .connect h
  case bdConnack.refl h => exact .bodyDec .connack h
  case bdPublish.refl h => exact .bodyDec .publish h
  case bdPuback.refl h => exact .bodyDec .puback h
  case bdPubrec.refl h => exact .bodyDec .pubrec h
  case bdPubrel.refl h => exact .bodyDec .pubrel h
  case bdPubcomp.refl h => exact .bodyDec .pubcomp h
  case bdSubscribe.refl h => exact .bodyDec .subscribe h
  case bdSuback.refl h => exact .bodyDec .suback h
  case bdUnsubscribe.refl h => exact .bodyDec .unsubscribe h
  case bdUnsuback.refl h => exact .bodyDec .unsuback h
  case bdPingreq.refl h => exact .bodyDec .pingreq h
  case bdPingresp.refl h => exact .bodyDec .pingresp h
  case bdDisconnect.refl h => exact .bodyDec .disconnect h
  case beConnect.refl h => exact .bodyEnc .connect h
  case beConnack.refl h => exact .bodyEnc .connack h
  case bePublish.refl h => exact .bodyEnc .publish h
  case bePuback.refl h => exact .bodyEnc .puback h
  case bePubrec.refl h => exact .bodyEnc .pubrec h
  case bePubrel.refl h => exact .bodyEnc .pubrel h
  case bePubcomp.refl h => exact .bodyEnc .pubcomp h
  case beSubscribe.refl h => exact .bodyEnc .subscribe h
  case beSuback.refl h => exact .bodyEnc .suback h
  case beUnsubscribe.refl h => exact .bodyEnc .unsubscribe h
  case beUnsuback.refl h => exact .bodyEnc .unsuback h
  case bePingreq.refl h => exact .bodyEnc .pingreq h
  case bePingresp.refl h => exact .bodyEnc .pingresp h
  case beDisconnect.refl h => exact .bodyEnc .disconnect h
  case invalidType0.refl h => exact .invalid0 h
  case invalidType15.refl h => exact .invalid15 h
  case cmdReserved0.refl => exact .command 0
  case decode.refl => exact .command 1
  case encode.refl => exact .command 2
  case cmdReserved3.refl => exact .command 3

/-- The encoder gives a byte to the rows of the tables and to no other instruction (R86). -/
theorem encodeAt_eq_some_iff {tc : List Tag} {i : Instr} {p : Port} {b : Byte} :
    encodeAt tc i = some (p, b) ↔ TableRow tc i p b := by
  refine ⟨tableRow_of_encodeAt, fun row => ?_⟩
  cases row with
  | bodyDec t h => exact encodeAt_bdOf tc t h
  | bodyEnc t h => exact encodeAt_beOf tc t h
  | invalid0 h => rfl
  | invalid15 h => rfl
  | command c => exact encodeAt_decodeCmd tc c

/-! ### The decoder -/

/-- A code with a tag selects the tag's body row, unless the qos bits are `11` (R131). -/
theorem decodeHeader_of_some {sel : Tag → Hdr → Instr} {tc : List Tag} {b : Byte} {t : Tag}
    (found : lookupTag tc (headerCode b) = some t) :
    decodeHeader sel tc b = if (headerFlags b).legal then .ok (sel t (headerFlags b)) else .error .reservedQoS := by
  simp only [decodeHeader, found]

/-- A code without a tag is an invalid type, whatever the flags are (R202). -/
theorem decodeHeader_of_none {sel : Tag → Hdr → Instr} {tc : List Tag} {b : Byte} (missing : lookupTag tc (headerCode b) = none) :
    decodeHeader sel tc b =
      if headerCode b = 0 then .ok (.invalidType0 (headerFlags b)) else .ok (.invalidType15 (headerFlags b)) := by
  simp only [decodeHeader, missing]

/-- A header byte selects a body row by its tag when the qos bits are legal, or it is one of the two invalid codes. -/
theorem decodeHeader_eq_ok_iff {sel : Tag → Hdr → Instr} {tc : List Tag} {b : Byte} {i : Instr} (table : typeCodeWf tc = true) :
    decodeHeader sel tc b = .ok i ↔
      (∃ t, lookupTag tc (headerCode b) = some t ∧ (headerFlags b).legal = true ∧ sel t (headerFlags b) = i) ∨
      (headerCode b = 0 ∧ .invalidType0 (headerFlags b) = i) ∨ (headerCode b = 15 ∧ .invalidType15 (headerFlags b) = i) := by
  have no_tag := lookupTag_eq_none table (headerCode b)
  cases found : lookupTag tc (headerCode b) with
  | some t =>
    obtain ⟨ne0, ne15⟩ := not_or.1 (no_tag.not.1 (by simp [found]))
    rw [decodeHeader_of_some found]
    simp only [ne0, ne15, false_and, or_false, Option.some.injEq, exists_eq_left']
    cases (headerFlags b).legal <;> simp
  | none =>
    rcases no_tag.1 found with code | code <;> simp [decodeHeader_of_none found, code]

/-- At `CMD` the four codes decode, each to its row (R34, R85). -/
theorem decodeAt_cmd_eq_ok_iff {tc : List Tag} {b : Byte} {i : Instr} :
    decodeAt tc .cmd b = .ok i ↔ ∃ c : BitVec 2, b = c.setWidth 8 ∧ i = decodeCmd c := by
  constructor
  · intro dec
    by_cases small : b.toNat < 4
    · rw [decodeAt, if_pos small] at dec
      cases dec
      exact ⟨b.setWidth 2, by bv_omega, rfl⟩
    · simp [decodeAt, small] at dec
  · rintro ⟨c, rfl, rfl⟩
    exact decodeAt_cmd_setWidth tc c

/-! ### Decode after encode -/

theorem decodeHeader_headerByte_lookupCode {sel : Tag → Hdr → Instr} {tc : List Tag} (table : typeCodeWf tc = true) (t : Tag)
    {h : Hdr} (legal : h.legal = true) : decodeHeader sel tc (headerByte (lookupCode tc t) h) = .ok (sel t h) := by
  rw [decodeHeader_eq_ok_iff table, headerCode_headerByte, headerFlags_headerByte]
  exact .inl ⟨t, lookupTag_lookupCode table t, legal, rfl⟩

/-- Settles O1: each row of the encoding tables is read back, the header byte by its two halves and the table's inverse. -/
theorem decodeOfEncodeIsTheInstruction : Obligations.DecodeOfEncodeIsTheInstruction := by
  intro tc i p b table wf enc
  cases encodeAt_eq_some_iff.1 enc with
  | bodyDec t h => exact decodeHeader_headerByte_lookupCode table t (wellFormed_bdOf t h ▸ wf)
  | bodyEnc t h => exact decodeHeader_headerByte_lookupCode table t (wellFormed_beOf t h ▸ wf)
  | invalid0 h =>
    rw [decodeAt, decodeHeader_eq_ok_iff table, headerCode_headerByte, headerFlags_headerByte]
    exact .inr (.inl ⟨rfl, rfl⟩)
  | invalid15 h =>
    rw [decodeAt, decodeHeader_eq_ok_iff table, headerCode_headerByte, headerFlags_headerByte]
    exact .inr (.inr ⟨rfl, rfl⟩)
  | command c => exact decodeAt_cmd_setWidth tc c

/-! ### Encode after decode -/

/-- The codes without a tag, which the type register holds as well as byte 0 of `IB` (R202). -/
def InvalidTypeCode (i : Instr) : Prop := (∃ h, i = .invalidType0 h) ∨ ∃ h, i = .invalidType15 h

/-- A header byte that decodes is the byte of its row: at the port of the selected body rows, or at byte 0 of `IB` for an
invalid code. -/
theorem encodeAt_of_decodeHeader {sel : Tag → Hdr → Instr} {tc : List Tag} {p : Port} {b : Byte} {i : Instr}
    (table : typeCodeWf tc = true) (legal_iff : ∀ t h, (sel t h).wellFormed = h.legal)
    (enc : ∀ t h, encodeAt tc (sel t h) = some (p, headerByte (lookupCode tc t) h)) (dec : decodeHeader sel tc b = .ok i) :
    i.wellFormed = true ∧
      (encodeAt tc i = some (p, b) ∨ (encodeAt tc i = some (.inputByte, b) ∧ InvalidTypeCode i)) := by
  have halves := headerByte_of_halves b
  rcases (decodeHeader_eq_ok_iff table).1 dec with ⟨t, found, legal, rfl⟩ | ⟨code, rfl⟩ | ⟨code, rfl⟩
  · refine ⟨(legal_iff t _).trans legal, .inl ?_⟩
    rw [enc, lookupCode_of_lookupTag table found, halves]
  · rw [code] at halves
    exact ⟨rfl, .inr ⟨by rw [encodeAt, halves], .inl ⟨_, rfl⟩⟩⟩
  · rw [code] at halves
    exact ⟨rfl, .inr ⟨by rw [encodeAt, halves], .inr ⟨_, rfl⟩⟩⟩

/-- Settles O2, port by port; the two header ports share the argument. -/
theorem encodeOfDecodeIsTheByte : Obligations.EncodeOfDecodeIsTheByte := by
  intro tc p b i table dec
  cases p with
  | cmd =>
    obtain ⟨c, rfl, rfl⟩ := decodeAt_cmd_eq_ok_iff.1 dec
    exact ⟨wellFormed_decodeCmd c, .cmd, encodeAt_decodeCmd tc c, .inl rfl⟩
  | inputByte =>
    obtain ⟨wf, enc | ⟨enc, -⟩⟩ := encodeAt_of_decodeHeader table wellFormed_bdOf (encodeAt_bdOf tc) dec
    all_goals exact ⟨wf, .inputByte, enc, .inl rfl⟩
  | typeReg =>
    obtain ⟨wf, enc | ⟨enc, invalid⟩⟩ := encodeAt_of_decodeHeader table wellFormed_beOf (encodeAt_beOf tc) dec
    · exact ⟨wf, .typeReg, enc, .inl rfl⟩
    · exact ⟨wf, .inputByte, enc, .inr ⟨rfl, invalid⟩⟩

/-! ### Words of the tables -/

/-- Settles O3: eight bytes of the default table, each decoded by evaluation. -/
theorem tableWordsDecodeToTheirRows : Obligations.TableWordsDecodeToTheirRows :=
  ⟨rfl, rfl, rfl, rfl, rfl, rfl, rfl, rfl⟩

end Sys2Proof.Machine

/-! PROOFS. The primitives: the bit-field extractor, the UTF-8 test, the four field decoders and the four field encoders (R100 to R111). -/

namespace Sys2Proof.Machine

/-! ### The operations that only return a value (R100, R101, R106) -/

theorem exec_extract (b : Byte) (hi lo : Fin 8) (s : State) :
    exec (.extract b hi lo) s = .next { s with work := some { s.working with result := .byte (extractBits b hi.val lo.val) } } := rfl

theorem exec_insert (fs : List BitField) (s : State) :
    exec (.insert fs) s = .next { s with work := some { s.working with result := .byte (insertBits fs) } } := rfl

theorem exec_utf8Ok (t : Bytes) (s : State) :
    exec (.utf8Ok t) s = .next { s with work := some { s.working with result := .bool (utf8Ok t) } } := rfl

theorem insert_wellFormed_iff {fs : List BitField} :
    (Instr.insert fs).wellFormed = true ↔ (∀ f ∈ fs, f.fits = true) ∧ fieldsDisjoint fs = true := by
  rw [Instr.wellFormed, Bool.and_eq_true, List.all_eq_true]

/-- Settles O6: disjoint fields occupy different bits of the sum, so it fits a byte and each field is read back. -/
theorem extractAndInsertReturnTheirFields : Obligations.ExtractAndInsertReturnTheirFields := by
  intro s
  constructor
  · intro b hi lo _
    exact ⟨_, exec_extract b hi lo s, extractBits_toNat b hi.val lo.val⟩
  · intro fs wf
    obtain ⟨fit, apart⟩ := insert_wellFormed_iff.1 wf
    exact ⟨_, exec_insert fs s, insertBits_toNat fit apart, fun f mem => extractBits_insertBits fit apart mem⟩

/-- Settles O9: the value returned is the test's, and the test is the predicate of the table. -/
theorem utf8OkIffSequencesOfTheTable : Obligations.Utf8OkIffSequencesOfTheTable :=
  fun s t => ⟨utf8Ok t, exec_utf8Ok t s, utf8Ok_iff t⟩

/-! ### One field decoder run at the cursor (R102 to R105) -/

/-- A field decoder `dec` run on the working state: it reads from the cursor up to `lim` and returns its value as `val`. -/
def State.fieldStep {α : Type} (s : State) (dec : Bytes → Nat → Nat → Except Err (α × Nat)) (val : α → Val) :
    Host.Outcome State Fault Refusal :=
  s.decStep s.working.lim fun buf w => do
    let (v, cur) ← dec buf w.cur w.lim
    return { w with cur := cur, result := val v }

theorem exec_decByte (s : State) : exec .decByte s = s.fieldStep decByte .byte := rfl
theorem exec_decWord (s : State) : exec .decWord s = s.fieldStep decWord .word := rfl
theorem exec_decText (s : State) : exec .decText s = s.fieldStep decText .text := rfl
theorem exec_decRest (s : State) : exec .decRest s = s.fieldStep decRest .text := rfl

theorem State.InputAt.ok {s : State} {bs : Bytes} (h : s.InputAt bs) : s.inputOk s.working.lim = true := h.1

theorem State.InputAt.room {s : State} {bs : Bytes} (h : s.InputAt bs) : s.working.cur + bs.length ≤ s.working.lim := h.2.1

section
variable {α : Type} {s : State} {dec : Bytes → Nat → Nat → Except Err (α × Nat)}

theorem State.fieldStep_ok {v : α} {cur : Nat} (val : α → Val) (ok : s.inputOk s.working.lim = true)
    (read : dec s.input s.working.cur s.working.lim = .ok (v, cur)) :
    s.fieldStep dec val = .next { s with work := some { s.working with cur := cur, result := val v } } :=
  State.decStep_ok ok (by simp only [read, except_ok_bind, except_pure])

theorem State.fieldStep_error {e : Err} (val : α → Val) (ok : s.inputOk s.working.lim = true)
    (fails : dec s.input s.working.cur s.working.lim = .error e) : s.fieldStep dec val = .next (s.enterError true e) :=
  State.decStep_error ok (by simp only [fails, except_error_bind])

end

/-- Settles O10: the byte of the input at the cursor, or the bound at the cursor. -/
theorem decByteReadsAtTheCursor : Obligations.DecByteReadsAtTheCursor := by
  intro s
  rw [exec_decByte]
  constructor
  · intro v stands
    exact State.fieldStep_ok .byte stands.ok (decByte_at stands.drop stands.room)
  · intro ok short
    exact State.fieldStep_error .byte ok (decByte_fails (b := 0) ⟨rfl, short⟩)

/-- Settles O11: the two bytes are the encoding of the word that joins them. -/
theorem decWordIsBigEndian : Obligations.DecWordIsBigEndian := by
  intro s
  rw [exec_decWord]
  constructor
  · intro hi lo stands
    have word := stands.drop
    rw [← encWord_append] at word
    exact ⟨hi ++ lo, toNat_append_bytes hi lo, State.fieldStep_ok .word stands.ok (decWord_at word stands.room)⟩
  · intro ok short
    exact State.fieldStep_error .word ok (decWord_fails (w := 0) ⟨rfl, short⟩)

/-- Settles O12: the wire form of the text is what `ENC_TEXT` gives if it is well-formed; the errors are those of a text field. -/
theorem decTextReadsALengthPrefixedText : Obligations.DecTextReadsALengthPrefixedText := by
  intro s
  rw [exec_decText]
  refine ⟨fun t len stands => ⟨fun wf => ?text, fun ill => ?illFormed⟩, fun ok short => ?noLength,
    fun l stands short => ?noBytes⟩
  case text =>
    have read := decText_at (encText_eq_wire len wf) stands.drop stands.room
    rw [wireText_length, ← Nat.add_assoc] at read
    exact State.fieldStep_ok .text stands.ok read
  case illFormed =>
    have room := stands.room
    rw [wireText_length, ← Nat.add_assoc] at room
    exact State.fieldStep_error .text stands.ok (decText_fails (t := t) (.inr ⟨rfl, len, ill, room, _, stands.drop⟩))
  case noLength =>
    exact State.fieldStep_error .text ok (decText_fails (t := []) (.inl ⟨rfl, .inl short⟩))
  case noBytes =>
    exact State.fieldStep_error .text stands.ok (decText_fails (t := []) (.inl ⟨rfl, .inr ⟨l, _, stands.drop, short⟩⟩))

theorem decRest_ill_formed {buf r : Bytes} {cur lim : Nat} {t : Bytes} (ill : utf8Ok t = false)
    (h : buf.drop cur = t ++ r) (hl : lim = cur + t.length) : decRest buf cur lim = .error ⟨.invalidEncoding, cur⟩ := by
  subst hl
  simp [decRest, slice_of_drop h, ill]

/-- Settles O13: the slice from the cursor to the bound is the rest, and one test decides. -/
theorem decRestReadsToTheBound : Obligations.DecRestReadsToTheBound := by
  intro s t rest
  obtain ⟨stands, bound⟩ := rest
  rw [exec_decRest]
  exact ⟨fun wf => State.fieldStep_ok .text stands.ok (decRest_at wf stands.drop bound.symm),
    fun ill => State.fieldStep_error .text stands.ok (decRest_ill_formed ill stands.drop bound.symm)⟩

/-! ### The field encoders append to the image (R107 to R110) -/

theorem exec_encByte (v : Byte) (s : State) : exec (.encByte v) s = s.imageStep fun _ => .ok (encByte v) := rfl
theorem exec_encWord (w : Word) (s : State) : exec (.encWord w) s = s.imageStep fun _ => .ok (encWord w) := rfl
theorem exec_encText (t : Bytes) (s : State) : exec (.encText t) s = s.imageStep fun _ => encText t := rfl
theorem exec_encRest (t : Bytes) (s : State) : exec (.encRest t) s = s.imageStep fun _ => encRest t := rfl

theorem encText_too_long {t : Bytes} (long : textMax < t.length) : encText t = .error (.raise .lengthOutOfRange) := by
  rw [encText_refused (not_textOk_long long), textStop_long long]

theorem encText_ill_formed {t : Bytes} (len : t.length ≤ textMax) (ill : utf8Ok t = false) :
    encText t = .error (.raise .invalidEncoding) := by
  rw [encText_refused (not_textOk_bad ill), textStop_bad len]

theorem encRest_of_wf {t : Bytes} (wf : utf8Ok t = true) : encRest t = .ok t := if_pos wf

theorem encRest_ill_formed {t : Bytes} (ill : utf8Ok t = false) : encRest t = .error (.raise .invalidEncoding) :=
  if_neg (Bool.eq_false_iff.1 ill)

/-- Settles O14: each encoder is a step that appends to the image; a refused text or rest raises. -/
theorem encodersAppendTheirBytes : Obligations.EncodersAppendTheirBytes := by
  intro s
  refine ⟨fun v => ?byte, fun w => ?word, fun t len wf => ?text, fun t long => ?longText, fun t len ill => ?illText,
    fun t wf => ?rest, fun t ill => ?illRest⟩
  case byte => rw [exec_encByte]; exact State.imageStep_ok rfl
  case word => rw [exec_encWord]; exact State.imageStep_ok rfl
  case text => rw [exec_encText]; exact State.imageStep_ok (encText_eq_wire len wf)
  case longText => rw [exec_encText]; exact State.imageStep_raise (encText_too_long long)
  case illText => rw [exec_encText]; exact State.imageStep_raise (encText_ill_formed len ill)
  case rest => rw [exec_encRest]; exact State.imageStep_ok (encRest_of_wf wf)
  case illRest => rw [exec_encRest]; exact State.imageStep_raise (encRest_ill_formed ill)

/-! ### Round trips (R111) -/

/-- The bytes between two cursors are those that stand at the first and end at the second. -/
theorem slice_between {buf pre r : Bytes} {cur cur' : Nat} (h : buf.drop cur = pre ++ r) (hc : cur' = cur + pre.length) :
    slice buf cur (cur' - cur) = pre := by
  subst hc
  rw [Nat.add_sub_cancel_left, slice_of_drop h]

/-- Settles O15: a decoder reads back the image of its encoder, and what it has read is the encoder's image of its value. -/
theorem primitivesRoundTrip : Obligations.PrimitivesRoundTrip := by
  refine ⟨fun v => ?byte, fun w => ?word, fun t len wf => ?text, fun t wf => ?rest, fun buf cur lim cur' le bound => ?back⟩
  case byte => exact decByte_at (List.append_nil _).symm le_rfl
  case word => exact decWord_at (List.append_nil _).symm le_rfl
  case text =>
    have read := decText_at (encText_eq_wire len wf) (List.append_nil _).symm
      (show 0 + (wireText t).length ≤ 2 + t.length by simp)
    rw [Nat.zero_add, wireText_length] at read
    exact ⟨wireText t, encText_eq_wire len wf, read⟩
  case rest => exact ⟨t, encRest_of_wf wf, decRest_at wf (List.append_nil t).symm (Nat.zero_add _).symm⟩
  case back =>
    refine ⟨fun v read => ?_, fun w read => ?_, fun t read => ?_, fun t read => ?_⟩
    · obtain ⟨next, _, _, stands⟩ := decByte_ok bound read
      exact (slice_between stands next).symm
    · obtain ⟨next, _, _, stands⟩ := decWord_ok bound read
      exact (slice_between stands next).symm
    · obtain ⟨next, _, _, _, _, bs, enc, size, stands⟩ := decText_ok bound read
      rw [enc, slice_between stands (by omega)]
    · obtain ⟨next, size, _, wf, stands⟩ := decRest_ok bound le read
      rw [encRest_of_wf wf, slice_between stands (by omega)]

end Sys2Proof.Machine

/-! PROOFS. The remaining length: what `RL_DEC`, `RL_DEC_STRICT` and `RL_ENC` answer, and which fields survive the way back (R74, R120 to R125). -/

namespace Sys2Proof.Machine

/-! ### The decoder run at the cursor (R120, R121) -/

/-- `RL_DEC` with the given strictness, run on the working state: it reads from the cursor up to `lim`. -/
def State.rlStep (s : State) (strict : Bool) : Host.Outcome State Fault Refusal :=
  s.decStep s.working.lim fun buf w => do
    let st ← rlDec buf w.cur w.lim strict
    return w.withRl st

theorem exec_rlDec (s : State) : exec .rlDec s = s.rlStep s.strict := rfl
theorem exec_rlDecStrict (s : State) : exec .rlDecStrict s = s.rlStep true := rfl

/-- What `RL_DEC` does with either strictness, both operations do. -/
theorem exec_eq_of_rlStep {s : State} {o : Host.Outcome State Fault Refusal} (h : ∀ strict, s.rlStep strict = o) :
    ∀ i ∈ [Instr.rlDec, .rlDecStrict], exec i s = o := by
  intro i mem
  rw [List.mem_pair] at mem
  rcases mem with rfl | rfl
  · exact h s.strict
  · exact h true

section
variable {s : State} {strict : Bool}

theorem State.rlStep_ok {st : RlState} (ok : s.inputOk s.working.lim = true)
    (read : rlDec s.input s.working.cur s.working.lim strict = .ok st) :
    s.rlStep strict = .next { s with work := some (s.working.withRl st) } :=
  State.decStep_ok ok (by simp only [read, except_ok_bind, except_pure])

theorem State.rlStep_error {e : Err} (ok : s.inputOk s.working.lim = true)
    (fails : rlDec s.input s.working.cur s.working.lim strict = .error e) :
    s.rlStep strict = .next (s.enterError true e) :=
  State.decStep_error ok (by simp only [fails, except_error_bind])

end

/-- Settles O16: a field that ends within 4 bytes is read to its end, whatever the strictness. -/
theorem remainingLengthDecodesItsField : Obligations.RemainingLengthDecodesItsField := by
  intro s f ends size stands
  exact exec_eq_of_rlStep fun _ => State.rlStep_ok stands.ok (rlDec_ends ends size stands.drop stands.room)

/-- Settles O17: strictness decides at the 4th byte; the bound cuts a shorter field off before strictness plays a part. -/
theorem remainingLengthOverlongOrCut : Obligations.RemainingLengthOverlongOrCut := by
  intro s f continues stands
  refine ⟨fun four => ?overlong, fun short bound => ?cut⟩
  case overlong =>
    have read := fun strict => rlDec_overlong (strict := strict) continues four stands.drop (four ▸ stands.room)
    have malformed := State.rlStep_error stands.ok (read true)
    refine ⟨fun lax => ?_, fun isStrict => ?_, malformed⟩
    · rw [exec_rlDec, lax]
      exact State.rlStep_ok stands.ok (read false)
    · rw [exec_rlDec, isStrict]
      exact malformed
  case cut =>
    exact exec_eq_of_rlStep fun _ => State.rlStep_error stands.ok (rlDec_cut continues short stands.drop bound)

/-! ### The encoder appends to the image (R122) -/

theorem exec_rlEnc (x : Nat) (s : State) : exec (.rlEnc x) s = s.imageStep fun _ => rlEnc x := rfl

/-- Settles O18: the field appended is the encoder's; above `RL_MAX` it raises. -/
theorem remainingLengthEncodesShortest : Obligations.RemainingLengthEncodesShortest := by
  intro s x
  rw [exec_rlEnc]
  refine ⟨fun small => ?_, fun large => State.imageStep_raise (rlEnc_raise large)⟩
  have enc := rlEnc_ok small
  obtain ⟨-, ends, value, -⟩ := rlEnc_spec enc
  exact ⟨rlDigits 3 x, State.imageStep_ok enc, ends, value, rlDigits_length x small⟩

/-! ### Round trips (R124, R125) -/

/-- Settles O19: the encoder's field ends within 4 bytes and holds the operand, so it is read to its end. -/
theorem remainingLengthRoundTrip : Obligations.RemainingLengthRoundTrip := by
  intro x strict small
  have enc := rlEnc_ok small
  obtain ⟨-, ends, value, size, -⟩ := rlEnc_spec enc
  exact ⟨rlDigits 3 x, enc, rlDigits_length x small, _,
    rlDec_ends ends size (List.append_nil _).symm (Nat.zero_add _).le, value, Nat.zero_add _⟩

/-- The encoder's field is no longer than any other field of its value. -/
theorem rlEnc_length_le {f g : Bytes} (enc : rlEnc (rlValue f) = .ok g) (nonempty : f ≠ []) : g.length ≤ f.length := by
  obtain ⟨-, -, -, -, -, shortest⟩ := rlEnc_spec enc
  exact shortest f.length (List.length_pos_of_ne_nil nonempty) (rlValue_lt f)

theorem rlEnds_ne_nil {f : Bytes} (ends : rlEnds f = true) : f ≠ [] := by
  rintro rfl
  cases ends

/-- A field that ends is the encoder's iff no shorter field holds its value, that is, unless it ends in `00` after another byte. -/
theorem rlEnc_rlValue_iff {f : Bytes} (ends : rlEnds f = true) (size : f.length ≤ 4) :
    rlEnc (rlValue f) = .ok f ↔ f.length = 1 ∨ f.getD (f.length - 1) 0 ≠ 0 := by
  have pos := List.length_pos_of_ne_nil (rlEnds_ne_nil ends)
  obtain ⟨-, large_of_ne, small_of_eq⟩ := rlEnds_last ends
  constructor
  · intro enc
    obtain ⟨-, -, -, -, -, shortest⟩ := rlEnc_spec enc
    by_contra padded
    obtain ⟨long, zero⟩ := not_or.1 padded
    have := shortest (f.length - 1) (by omega) (small_of_eq (not_not.1 zero))
    omega
  · intro canonical
    have enc := rlEnc_ok (rlValue_le f size)
    obtain ⟨-, ends', value, -⟩ := rlEnc_spec enc
    have upper := rlEnc_length_le enc (rlEnds_ne_nil ends)
    have lower : f.length ≤ (rlDigits 3 (rlValue f)).length := by
      rcases canonical with one | last
      · rw [one]
        exact List.length_pos_of_ne_nil (rlEnds_ne_nil ends')
      · have : 128 ^ (f.length - 1) < 128 ^ (rlDigits 3 (rlValue f)).length :=
          calc 128 ^ (f.length - 1) ≤ rlValue f := large_of_ne last
            _ = rlValue (rlDigits 3 (rlValue f)) := value.symm
            _ < _ := rlValue_lt _
        have := (Nat.pow_lt_pow_iff_right (by omega)).1 this
        omega
    rw [enc, rlEnds_inj ends' ends (upper.antisymm lower) value]

/-- A field without an end is never the encoder's. -/
theorem rlEnc_ne_of_allContinue {x : Nat} {f : Bytes} (continues : allContinue f = true) (nonempty : f ≠ []) :
    rlEnc x ≠ .ok f := by
  intro enc
  obtain ⟨-, ends, -⟩ := rlEnc_spec enc
  have low := (rlEnds_last ends).1
  have high := allContinue_last continues nonempty
  omega

theorem byteAt_of_drop_append {buf f r : Bytes} {cur i : Nat} (h : buf.drop cur = f ++ r) (hi : i < f.length) :
    byteAt buf (cur + i) = f.getD i 0 := by
  rw [byteAt, List.getD_eq_getElem?_getD, ← List.getElem?_drop, h, List.getElem?_append_left hi,
    List.getD_eq_getElem?_getD]

/-- Settles O20: the field read is the slice between the cursors; one that ends is judged by its last byte, one that does
not end never comes back. -/
theorem remainingLengthReencodesCanonicalFields : Obligations.RemainingLengthReencodesCanonicalFields := by
  intro buf cur lim strict st bound read
  obtain ⟨f, nonempty, size, next, acc, inside, stands, kind⟩ := rlDec_ok bound read
  have pos := List.length_pos_of_ne_nil nonempty
  have last : byteAt buf (st.cur - 1) = f.getD (f.length - 1) 0 := by
    rw [next, Nat.add_sub_assoc pos, byteAt_of_drop_append stands (by omega)]
  have one : st.cur = cur + 1 ↔ f.length = 1 := by omega
  refine ⟨acc ▸ rlValue_le f size, by omega, by omega, inside, ?_⟩
  rw [slice_between stands next, last, one, acc]
  rcases kind with ends | ⟨continues, -, -⟩
  · rw [rlEnc_rlValue_iff ends size, and_iff_right (rlEnds_last ends).1]
  · have high := allContinue_last continues nonempty
    exact iff_of_false (rlEnc_ne_of_allContinue continues nonempty) fun ⟨low, _⟩ => by omega

end Sys2Proof.Machine

/-! PROOFS. The fixed header: the header byte, the type-code lookups, and what `FH_DEC` and `FH_ENC` answer (R73, R130 to R133). -/

namespace Sys2Proof.Machine

/-! ### The header byte as a number (R73) -/

theorem bitOf_toNat (b : Bool) : (bitOf b).toNat = b.toNat := by cases b <;> rfl

/-- The four fields lie in disjoint ranges of the byte, so none carries into another. -/
theorem headerByte_toNat (c : BitVec 4) (h : Hdr) :
    (headerByte c h).toNat = c.toNat * 16 + h.dup.toNat * 8 + h.qos.toNat * 2 + h.retain.toNat := by
  have code : c.toNat < 16 := c.isLt
  have qos : h.qos.toNat < 4 := h.qos.isLt
  have widened : c.toNat % 256 = c.toNat ∧ h.qos.toNat % 256 = h.qos.toNat := by omega
  rw [headerByte, insertBits_toNat _ rfl]
  · simp [fieldSum, bitOf_toNat, widened, add_assoc]
  · simp [BitField.fits_iff, bitOf_toNat, widened, code, qos, Bool.toNat_le]

/-! ### The codes with a tag (R130) -/

theorem exists_lookupTag {tc : List Tag} (table : typeCodeWf tc = true) {c : BitVec 4} (ne0 : c ≠ 0) (ne15 : c ≠ 15) :
    ∃ t, lookupTag tc c = some t :=
  Option.ne_none_iff_exists'.1 fun missing => ((lookupTag_eq_none table c).1 missing).elim ne0 ne15

theorem isNone_lookupTag {tc : List Tag} (table : typeCodeWf tc = true) (c : BitVec 4) :
    (lookupTag tc c).isNone = (c == 0 || c == 15) := by
  rw [Bool.eq_iff_iff, Option.isNone_iff_eq_none, lookupTag_eq_none table]
  simp

theorem isSome_lookupTag {tc : List Tag} (table : typeCodeWf tc = true) (c : BitVec 4) :
    (lookupTag tc c).isSome = !(c == 0 || c == 15) := by
  rw [← isNone_lookupTag table, Option.not_isNone]

/-- Settles O4: the two halves of the byte are read back, and a table's lookups are inverse; the counts are those of the
bytes by their codes, since every lawful table gives a tag to the same codes. -/
theorem headerByteRoundTrip : Obligations.HeaderByteRoundTrip := by
  intro tc table
  refine ⟨fun t h _ => ⟨headerByte_toNat _ h, ?_, headerFlags_headerByte _ h⟩, fun b t found _ => ?_, ?counts⟩
  · rw [headerCode_headerByte, lookupTag_lookupCode table]
  · rw [lookupCode_of_lookupTag table found, headerByte_of_halves]
  case counts =>
    simp only [isSome_lookupTag table, isNone_lookupTag table]
    decide +kernel

theorem exec_codeOf (t : Tag) (s : State) : exec (.codeOf t) s =
    .next { s with work := some { s.working with result := .code (lookupCode s.build.typeCode t) } } := rfl

theorem exec_tagOf {s : State} {c : BitVec 4} {t : Tag} (found : lookupTag s.build.typeCode c = some t) :
    exec (.tagOf c) s = .next { s with work := some { s.working with result := .tag t } } := by
  simp only [exec, execTagOf, found]
  rfl

/-- Settles O5: the lookups of a lawful table are inverse, and each operation returns its lookup. -/
theorem typeCodeLookupsAreInverse : Obligations.TypeCodeLookupsAreInverse := by
  intro s table
  refine ⟨fun t => ⟨lookupTag_lookupCode table t, exec_codeOf t s⟩, fun c ne0 ne15 => ?_,
    (lookupTag_eq_none table 0).2 (.inl rfl), (lookupTag_eq_none table 15).2 (.inr rfl)⟩
  obtain ⟨t, found⟩ := exists_lookupTag table ne0 ne15
  exact ⟨t, found, lookupCode_of_lookupTag table found, exec_tagOf found⟩

/-! ### The fixed-header decoder (R131) and a DECODE without a body (R162) -/

theorem exec_fhDec_ok {s : State} {hd : Header} (cap : s.ibLen.toNat ≤ s.build.ibCap)
    (header : fhDec s.build.typeCode s.strict s.input = .ok hd) :
    exec .fhDec s = .next { s with work := some { s.working with cur := hd.h, result := .header hd } } := by
  rw [exec, execFhDec]
  exact State.decStep_ok (State.inputOk_iff.2 ⟨le_rfl, cap⟩) (by simp only [header, except_ok_bind, except_pure])

theorem exec_decode_ok {s : State} {p : Pkt} {n : Nat} (idle : s.busy = false) (cap : s.ibLen.toNat ≤ s.build.ibCap)
    (packet : decodePacket s.build s.strict s.input = .ok (p, n)) : exec .decode s = .next (s.commitDecode p n) := by
  have inside := State.inputOk_iff.2 ⟨le_rfl, cap⟩
  simp [exec, execDecode, idle, inside, State.runDecode, packet]

/-- A type without a body reads nothing and writes no register (R162). -/
theorem bodyDec_of_bodiless {t : Tag} (bodiless : t ∈ [Tag.pingreq, .pingresp, .disconnect]) (b : Build) (buf : Bytes)
    (cur lim : Nat) (qos : BitVec 2) (p : Pkt) : bodyDec b t buf cur lim qos p = .ok (cur, p) := by
  simp only [List.mem_cons, List.not_mem_nil, or_false] at bodiless
  rcases bodiless with rfl | rfl | rfl <;> rfl

/-- Of a packet without a body the type and the flags are all there is; the `n` bytes behind its header are skipped (R192). -/
theorem decodePacket_of_bodiless {b : Build} {strict : Bool} {buf : Bytes} {hd : Header}
    (bodiless : hd.tag ∈ [Tag.pingreq, .pingresp, .disconnect]) (header : fhDec b.typeCode strict buf = .ok hd) :
    decodePacket b strict buf = .ok (shadowOf b.typeCode hd, hd.h + hd.n) := by
  simp only [decodePacket, header, bodyDec_of_bodiless bodiless, except_ok_bind, except_pure]

/-- Settles O21: the input is the header byte, the field and a rest as long as the field says. -/
theorem fixedHeaderDecodes : Obligations.FixedHeaderDecodes := by
  intro s b0 f t stands cap found legal field room
  have size : 0 + (b0 :: f).length ≤ s.ibLen.toNat := by
    rw [List.length_cons]
    omega
  have input : s.input = b0 :: (f ++ s.input.drop (0 + (b0 :: f).length)) := State.input_drop_of_holds stands size
  have rest : rlValue f ≤ (s.input.drop (0 + (b0 :: f).length)).length := by
    rw [List.length_drop, State.input_length, List.length_cons]
    omega
  have header := fhDec_of input found legal field rest
  exact ⟨exec_fhDec_ok cap header, fun idle bodiless => exec_decode_ok idle cap (decodePacket_of_bodiless bodiless header)⟩

/-! ### The fixed-header encoder (R132) -/

theorem exec_fhEnc_ok {s : State} {t : Tag} {h : Hdr} {image : Bytes}
    (enc : fhEnc s.build.typeCode t h s.working.image = .ok image) :
    exec (.fhEnc t h) s = .next { s with work := some { s.working with image := image } } := by
  rw [exec, execFhEnc]
  exact State.encStep_ok (by simp only [enc, except_ok_bind, except_pure])

theorem exec_fhEnc_raise {s : State} {t : Tag} {h : Hdr} {k : ErrKind}
    (enc : fhEnc s.build.typeCode t h s.working.image = .error (.raise k)) :
    exec (.fhEnc t h) s = .next (s.enterError false ⟨k, 0⟩) := by
  rw [exec, execFhEnc]
  exact State.encStep_raise (by simp only [enc, except_error_bind])

theorem fhEnc_raise {tc : List Tag} {t : Tag} {fl : Hdr} {body : Bytes} (large : rlMax < body.length) :
    fhEnc tc t fl body = .error (.raise .lengthOutOfRange) := by
  rw [fhEnc, rlEnc_raise large, except_error_bind]

/-- Settles O22: the field is that of the body's length, which `RL_ENC` refuses above `RL_MAX`. -/
theorem fixedHeaderEncodes : Obligations.FixedHeaderEncodes := by
  intro s t h
  refine ⟨fun small => ?_, fun large => exec_fhEnc_raise (fhEnc_raise large)⟩
  have enc := rlEnc_ok small
  obtain ⟨-, ends, value, size, -⟩ := rlEnc_spec enc
  exact ⟨_, enc, ends, value, size, exec_fhEnc_ok (fhEnc_of_le small)⟩

end Sys2Proof.Machine

/-! PROOFS. The connect-flags byte: `CF_DEC` and `CF_ENC` bit by bit, and what `CF_DERIVE` computes from `PKT` (R78, R140 to R146). -/

namespace Sys2Proof.Machine

/-! ### The flags byte (R140, R141) -/

theorem exec_cfDec (f : Byte) (s : State) :
    exec (.cfDec f) s = .next { s with work := some { s.working with result := .flags (cfDec f) } } := rfl

theorem exec_cfEnc (fl : ConnFlags) (s : State) :
    exec (.cfEnc fl) s = .next { s with work := some { s.working with result := .byte (cfEnc fl) } } := rfl

/-- The six fields lie in disjoint ranges of the byte, so none carries into another. -/
theorem cfEnc_toNat (fl : ConnFlags) : (cfEnc fl).toNat =
    fl.uf.toNat * 128 + fl.pf.toNat * 64 + fl.wr.toNat * 32 + fl.wq.toNat * 8 + fl.wf.toNat * 4 + fl.cs.toNat * 2 := by
  have qos : fl.wq.toNat < 4 := fl.wq.isLt
  have widened : fl.wq.toNat % 256 = fl.wq.toNat := by omega
  rw [cfEnc, insertBits_toNat _ rfl]
  · simp [fieldSum, bitOf_toNat, widened, add_assoc]
  · simp [BitField.fits_iff, bitOf_toNat, widened, qos, Bool.toNat_le]

theorem cfDec_cfEnc (fl : ConnFlags) : cfDec (cfEnc fl) = fl := (eq_cfEnc_iff.1 rfl).2

/-- Only bit 0 is lost by decoding (R143). -/
theorem cfEnc_cfDec_iff (f : Byte) : cfEnc (cfDec f) = f ↔ f.getLsbD 0 = false := by
  rw [eq_comm, eq_cfEnc_iff, and_iff_left rfl]

/-- Settles O7: each flag decoded is its bit, the byte encoded is the sum of its fields, and the two are inverse by their bits. -/
theorem connectFlagsRoundTrip : Obligations.ConnectFlagsRoundTrip := by
  intro s
  constructor
  · intro f
    obtain ⟨uf, pf, wr, wq, wf, cs⟩ := cfDec_bits f
    have qos : (cfDec f).wq.toNat = f.toNat / 8 % 4 := by rw [wq, BitVec.toNat_ofNat]
    exact ⟨_, exec_cfDec f s, uf, pf, wr, qos, wf, cs, cfEnc_cfDec_iff f⟩
  · intro fl
    exact ⟨_, exec_cfEnc fl s, cfEnc_toNat fl, cfDec_cfEnc fl⟩

/-! ### The flags derived from the registers (R142) -/

theorem exec_cfDerive_ok {s : State} {fl : ConnFlags} (flags : cfDerive s.pkt = .ok fl) :
    exec .cfDerive s = .next { s with work := some { s.working with result := .flags fl } } := by
  rw [exec, execCfDerive]
  exact State.encStep_ok (by simp only [flags, except_ok_bind, except_pure])

theorem nonEmpty_iff {r : Option Text} : nonEmpty r = true ↔ ∃ b t, r = some (b :: t) := by
  rcases r with _ | _ | ⟨b, t⟩ <;> simp [nonEmpty]

theorem willPresent_iff {p : Pkt} : willPresent p = true ↔ p.willTopic ≠ none ∧ p.willMessage ≠ none := by
  rw [willPresent, Bool.and_eq_true, Option.isSome_iff_ne_none, Option.isSome_iff_ne_none]

/-- Settles O8: the check makes valid every register that is read, and each flag is its test of the registers. -/
theorem connectFlagsAreDerived : Obligations.ConnectFlagsAreDerived := by
  intro s checked
  obtain ⟨cs, session, fl, derived, uf, pf, wf, held, will, noWill⟩ := cfDerive_of_req checked
  refine ⟨fl, exec_cfDerive_ok derived, uf ▸ nonEmpty_iff, pf ▸ nonEmpty_iff, wf ▸ willPresent_iff, ?_, fun present => ?_,
    fun absent => noWill (wf ▸ absent)⟩
  · rw [session, held]
  · obtain ⟨retain, qos⟩ := will (wf ▸ present)
    exact ⟨retain.symm, qos.symm⟩

end Sys2Proof.Machine

/-! PROOFS. The body decoders run as instructions: each body decodes the bytes of its layout, raises at the first field that does not decode, and never leaves its slice (R150 to R166, R208). -/

namespace Sys2Proof.Machine

/-! ### A body decoder as its own row and through BODY_DEC (R150) -/

/-- Both ways to run the decoder of `t` are one step of it; they differ only in the qos it is given. -/
theorem exec_bodyRow {s : State} {t : Tag} {h : Hdr} {q : BitVec 2} {i : Instr} (row : i ∈ [bdOf t h, .bodyDec t q]) :
    ∃ qos ∈ [h.qos, q], exec i s = s.bodyStep fun buf cur lim p => bodyDec s.build t buf cur lim qos p := by
  simp only [List.mem_cons, List.not_mem_nil, or_false] at row
  rcases row with rfl | rfl
  · exact ⟨h.qos, by simp, exec_bdOf t h s⟩
  · exact ⟨q, by simp, rfl⟩

section
variable {s : State} {t : Tag} {h : Hdr} {q : BitVec 2} {i : Instr}

theorem exec_body_next {cur : Nat} {p : Pkt} (row : i ∈ [bdOf t h, .bodyDec t q]) (ok : s.inputOk s.working.lim = true)
    (reads : ∀ qos ∈ [h.qos, q],
      bodyDec s.build t s.input s.working.cur s.working.lim qos s.working.shadow = .ok (cur, p)) :
    exec i s = .next { s with work := some { s.working with cur := cur, shadow := p } } := by
  obtain ⟨qos, given, run⟩ := exec_bodyRow row
  rw [run]
  exact State.bodyStep_ok ok (reads qos given)

theorem exec_body_raise {e : Err} (row : i ∈ [bdOf t h, .bodyDec t q]) (ok : s.inputOk s.working.lim = true)
    (fails : ∀ qos ∈ [h.qos, q],
      bodyDec s.build t s.input s.working.cur s.working.lim qos s.working.shadow = .error e) :
    exec i s = .next (s.enterError true e) := by
  obtain ⟨qos, given, run⟩ := exec_bodyRow row
  rw [run]
  exact State.bodyStep_error ok (fails qos given)

/-- A list of own rows followed by the dispatches of the same tags is a list of the two ways to run each tag. -/
theorem exists_bodyRow {ts : List Tag} (row : i ∈ ts.map (bdOf · h) ++ ts.map (Instr.bodyDec · q)) :
    ∃ t ∈ ts, i ∈ [bdOf t h, .bodyDec t q] := by
  rcases List.mem_append.1 row with own | dispatch
  · obtain ⟨t, mem, rfl⟩ := List.mem_map.1 own
    exact ⟨t, mem, .head _⟩
  · obtain ⟨t, mem, rfl⟩ := List.mem_map.1 dispatch
    exact ⟨t, mem, .tail _ (.head _)⟩

end

/-! ### Bodies without fields and of one message-id (R154 to R157, R161 to R164) -/

/-- Settles O25: the decoder of a type without a body returns cursor and shadow as they are. -/
theorem emptyBodiesDecode : Obligations.EmptyBodiesDecode := by
  intro s h q ok i row
  obtain ⟨t, bodiless, row⟩ := exists_bodyRow (ts := [.pingreq, .pingresp, .disconnect]) row
  exact exec_body_next row ok fun qos _ => bodyDec_of_bodiless bodiless s.build _ _ _ qos _

theorem bodyDec_of_msgId {t : Tag} (only : t ∈ [Tag.puback, .pubrec, .pubrel, .pubcomp, .unsuback]) (b : Build) (buf : Bytes)
    (cur lim : Nat) (qos : BitVec 2) (p : Pkt) : bodyDec b t buf cur lim qos p = decMsgId buf cur lim p := by
  simp only [List.mem_cons, List.not_mem_nil, or_false] at only
  rcases only with rfl | rfl | rfl | rfl | rfl <;> rfl

theorem decMsgId_at {buf r : Bytes} {cur lim : Nat} {m : Word} {p : Pkt} (h : buf.drop cur = encWord m ++ r)
    (room : cur + 2 ≤ lim) : decMsgId buf cur lim p = .ok (cur + 2, { p with msgId := some m }) := by
  rw [decMsgId, decWord_at h room]
  rfl

theorem decWord_short {buf : Bytes} {cur lim : Nat} (short : lim < cur + 2) :
    decWord buf cur lim = .error ⟨.truncatedInput, cur⟩ := decWord_fails (w := 0) ⟨rfl, short⟩

theorem decMsgId_short {buf : Bytes} {cur lim : Nat} {p : Pkt} (short : lim < cur + 2) :
    decMsgId buf cur lim p = .error ⟨.truncatedInput, cur⟩ := by
  rw [decMsgId, decWord_short short, except_error_bind]

/-- Settles O24: the five bodies share the decoder of one word. -/
theorem messageIdBodiesDecode : Obligations.MessageIdBodiesDecode := by
  intro s h q i row
  obtain ⟨t, only, row⟩ := exists_bodyRow (ts := [.puback, .pubrec, .pubrel, .pubcomp, .unsuback]) row
  constructor
  · intro m stands
    exact exec_body_next row stands.ok fun qos _ => by rw [bodyDec_of_msgId only, decMsgId_at stands.drop stands.room]
  · intro ok short
    exact exec_body_raise row ok fun qos _ => by rw [bodyDec_of_msgId only, decMsgId_short short]

/-! ### CONNACK (R152) -/

theorem bdConnack_at {pad : Fin 2} {buf r reserved : Bytes} {cur lim : Nat} {rc : Byte} {p : Pkt} (size : reserved.length = pad.val)
    (h : buf.drop cur = reserved ++ (encByte rc ++ r)) (room : cur + reserved.length + 1 ≤ lim) :
    bdConnack pad buf cur lim p = .ok (cur + reserved.length + 1, { p with returnCode := some rc }) := by
  rw [bdConnack, decSkip_at size h (by omega), except_ok_bind, ← size, decByte_at (drop_add_of_drop h) room]
  rfl

/-- Where `n` reserved bytes and one more do not fit, the bytes of the slice are read and the error stands at its end. -/
theorem decSkip_decByte_short {α : Type} {buf : Bytes} {n cur lim : Nat} (le : cur ≤ lim) (short : lim < cur + n + 1)
    (f : Byte × Nat → Except Err α) :
    (decSkip buf lim n cur >>= fun c => decByte buf c lim >>= f) = .error ⟨.truncatedInput, lim⟩ := by
  induction n generalizing cur with
  | zero =>
    obtain rfl : cur = lim := by omega
    rw [decSkip, except_ok_bind, decByte_fails (b := 0) ⟨rfl, short⟩, except_error_bind]
  | succ n ih =>
    rw [decSkip, bind_assoc]
    rcases Nat.eq_or_lt_of_le le with rfl | lt
    · rw [decByte_fails (b := 0) ⟨rfl, Nat.lt_succ_self _⟩, except_error_bind]
    · rw [decByte, if_neg (by omega), except_ok_bind]
      exact ih lt (by omega)

/-- Settles O26: the reserved bytes are skipped, and the first byte that is missing stands at the bound. -/
theorem connackBodyDecodes : Obligations.ConnackBodyDecodes := by
  intro s h q i row
  constructor
  · intro pad rc size stands
    have bytes := stands.drop
    have room := stands.room
    rw [List.append_assoc] at bytes
    rw [List.length_append, List.length_singleton, ← Nat.add_assoc] at room
    exact exec_body_next (t := .connack) row stands.ok fun _ _ => bdConnack_at size bytes room
  · intro ok le short
    exact exec_body_raise (t := .connack) row ok fun _ _ => decSkip_decByte_short le short _

/-! ### PUBLISH (R153) -/

theorem wireFields_publishFields (q : BitVec 2) (t : Text) (m : Word) :
    wireFields (publishFields q t m) = wireText t ++ if q = 0 then [] else encWord m := by
  unfold publishFields
  split <;> simp [WireField.bytes, wireWord_eq]

theorem decPublishId_at {q : BitVec 2} {buf r : Bytes} {cur lim : Nat} {m : Word} {p : Pkt}
    (h : buf.drop cur = (if q = 0 then [] else encWord m) ++ r)
    (room : cur + (if q = 0 then [] else encWord m).length ≤ lim) :
    decPublishId q buf cur lim p = .ok (cur + (if q = 0 then [] else encWord m).length,
      { p with msgId := if q = 0 then p.msgId else some m }) := by
  unfold decPublishId
  by_cases qos : q = 0
  · simp [qos]
  · simp only [if_neg qos] at h room ⊢
    rw [if_pos (by simpa using qos), decWord_at h room]
    rfl

/-- Behind the topic and the message-id a publish is its payload. -/
theorem bdPublish_of_fields {q : BitVec 2} {buf r : Bytes} {cur lim : Nat} {t : Text} {m : Word} {p : Pkt}
    (len : t.length ≤ textMax) (wf : utf8Ok t = true) (h : buf.drop cur = wireFields (publishFields q t m) ++ r)
    (room : cur + (wireFields (publishFields q t m)).length ≤ lim) :
    bdPublish q buf cur lim p = (decRest buf (cur + (wireFields (publishFields q t m)).length) lim >>= fun x =>
      .ok (x.2, { p with topic := some t, payload := some x.1, msgId := if q = 0 then p.msgId else some m })) := by
  rw [wireFields_publishFields] at h room ⊢
  rw [List.append_assoc] at h
  rw [List.length_append, ← Nat.add_assoc] at room ⊢
  rw [bdPublish, decText_at (lim := lim) (encText_eq_wire len wf) h (by omega), except_ok_bind]
  dsimp only
  rw [decPublishId_at (drop_add_of_drop h) room]
  rfl

/-- Settles O27: the fields in front of the payload, then the rest of the slice; the errors are those of the fields in order. -/
theorem publishBodyDecodes : Obligations.PublishBodyDecodes := by
  intro s h t m pl i row
  have given : ∀ {qos}, qos ∈ [h.qos, h.qos] → qos = h.qos := by simp
  refine ⟨fun len wf ⟨stands, bound⟩ => ?_, fun pre x k fails => ?fields⟩
  case fields =>
    obtain ⟨ok, fails⟩ := fails.fields
    exact exec_body_raise (t := .publish) row ok fun _ hq => bdPublish_fails (given hq ▸ fails)
  have bytes := stands.drop
  rw [List.append_assoc] at bytes
  rw [List.length_append, ← Nat.add_assoc] at bound
  have fields := bdPublish_of_fields (p := s.working.shadow) len wf bytes (bound ▸ Nat.le_add_right _ _)
  constructor
  · intro payload
    rw [decRest_at payload (drop_add_of_drop bytes) bound.symm] at fields
    exact exec_body_next (t := .publish) row stands.ok fun _ hq => given hq ▸ fields
  · intro payload
    rw [decRest_ill_formed payload (drop_add_of_drop bytes) bound.symm] at fields
    exact exec_body_raise (t := .publish) row stands.ok fun _ hq => given hq ▸ fields

/-! ### The bodies with a list (R158 to R160, R208) -/

section
variable {cap : Option Nat} {buf r : Bytes} {cur lim : Nat} {m : Word} {p : Pkt}

/-- Behind its message-id a subscribe is the loop over its entries. -/
theorem bdSubscribe_of_id (h : buf.drop cur = encWord m ++ r) (room : cur + 2 ≤ lim) :
    bdSubscribe cap buf cur lim p = (decSubs cap buf lim (lim - (cur + 2)) (cur + 2) [] >>= fun x =>
      .ok (x.2, { p with msgId := some m, subs := some x.1 })) := by
  rw [bdSubscribe, decWord_at h room]
  rfl

theorem bdSuback_of_id (h : buf.drop cur = encWord m ++ r) (room : cur + 2 ≤ lim) :
    bdSuback cap buf cur lim p = (decGranted cap buf lim (lim - (cur + 2)) (cur + 2) [] >>= fun x =>
      .ok (x.2, { p with msgId := some m, granted := some x.1 })) := by
  rw [bdSuback, decWord_at h room]
  rfl

theorem bdUnsubscribe_of_id (h : buf.drop cur = encWord m ++ r) (room : cur + 2 ≤ lim) :
    bdUnsubscribe cap buf cur lim p = (decTopics cap buf lim (lim - (cur + 2)) (cur + 2) [] >>= fun x =>
      .ok (x.2, { p with msgId := some m, topics := some x.1 })) := by
  rw [bdUnsubscribe, decWord_at h room]
  rfl

theorem bdSuback_short (short : lim < cur + 2) : bdSuback cap buf cur lim p = .error ⟨.truncatedInput, cur⟩ := by
  rw [bdSuback, decWord_short short, except_error_bind]

end

/-- Where a message-id and the bytes behind it stand in the input: the word, the bytes behind it, and where they end. -/
theorem State.InputAt.id_then {s : State} {m : Word} {bs : Bytes} (stands : s.InputAt (wireWord m ++ bs)) :
    ∃ r r', s.input.drop s.working.cur = encWord m ++ r ∧ s.input.drop (s.working.cur + 2) = bs ++ r' ∧
      s.working.cur + 2 + bs.length ≤ s.working.lim := by
  have bytes := stands.drop
  have room := stands.room
  rw [List.append_assoc] at bytes
  rw [List.length_append, wireWord_length, ← Nat.add_assoc] at room
  exact ⟨_, _, bytes, drop_add_of_drop bytes, room⟩

/-- With one byte more the bytes behind the message-id end below the bound. -/
theorem State.InputAt.id_then_more {s : State} {m : Word} {bs : Bytes} {g : Byte} (stands : s.InputAt (wireWord m ++ bs ++ [g])) :
    ∃ r r', s.input.drop s.working.cur = encWord m ++ r ∧ s.input.drop (s.working.cur + 2) = bs ++ r' ∧
      s.working.cur + 2 + bs.length < s.working.lim := by
  rw [List.append_assoc] at stands
  obtain ⟨r, r', id, entries, room⟩ := stands.id_then
  rw [List.append_assoc] at entries
  rw [List.length_append, List.length_singleton] at room
  exact ⟨r, _, id, entries, room⟩

/-- At the end of the slice they end at the bound. -/
theorem State.InputRest.id_then {s : State} {m : Word} {bs : Bytes} (rest : s.InputRest (wireWord m ++ bs)) :
    ∃ r r', s.input.drop s.working.cur = encWord m ++ r ∧ s.input.drop (s.working.cur + 2) = bs ++ r' ∧
      s.working.cur + 2 + bs.length = s.working.lim := by
  obtain ⟨stands, bound⟩ := rest
  obtain ⟨r, r', id, entries, -⟩ := stands.id_then
  rw [List.length_append, wireWord_length, ← Nat.add_assoc] at bound
  exact ⟨r, r', id, entries, bound⟩

/-- Settles O28: the message-id, then the loop over the entries to the bound; the errors are those of the fields in order. -/
theorem listBodiesDecode : Obligations.ListBodiesDecode := by
  intro s h q m
  refine ⟨fun l count i row => ⟨fun wf rest => ?subs, fun pre x k fails inside => ?subsFail⟩,
    fun i row => ⟨fun l count rest => ?granted, fun ok short => ?grantedFail⟩,
    fun l count i row => ⟨fun wf rest => ?topics, fun pre x k fails inside => ?topicsFail⟩⟩
  case subs =>
    obtain ⟨_, _, id, entries, bound⟩ := rest.id_then
    refine exec_body_next (t := .subscribe) row rest.1.ok fun _ _ => (bdSubscribe_of_id id (by omega)).trans ?_
    rw [decSubs_at wf (by simpa using count) entries bound le_rfl]
    rfl
  case granted =>
    obtain ⟨_, _, id, entries, bound⟩ := rest.id_then
    refine exec_body_next (t := .suback) row rest.1.ok fun _ _ => (bdSuback_of_id id (by omega)).trans ?_
    rw [decGranted_at (by simpa using count) entries bound le_rfl]
    rfl
  case topics =>
    obtain ⟨_, _, id, entries, bound⟩ := rest.id_then
    refine exec_body_next (t := .unsubscribe) row rest.1.ok fun _ _ => (bdUnsubscribe_of_id id (by omega)).trans ?_
    rw [decTopics_at wf (by simpa using count) entries bound le_rfl]
    rfl
  case subsFail =>
    obtain ⟨ok, fails⟩ := fails.fields
    exact exec_body_raise (t := .subscribe) row ok fun _ _ => bdSubscribe_fails count fails inside
  case grantedFail =>
    exact exec_body_raise (t := .suback) row ok fun _ _ => bdSuback_short short
  case topicsFail =>
    obtain ⟨ok, fails⟩ := fails.fields
    exact exec_body_raise (t := .unsubscribe) row ok fun _ _ => bdUnsubscribe_fails count fails inside

/-- Settles O29: the entries fill the list below the bound, so the loop meets the full list at the byte behind them. -/
theorem fullListRaisesCapacityExceeded : Obligations.FullListRaisesCapacityExceeded := by
  intro s h q m g
  refine ⟨fun l cap wf stands i row => ?subs, fun l cap stands i row => ?granted, fun l cap wf stands i row => ?topics⟩
  case subs =>
    obtain ⟨_, _, id, entries, room⟩ := stands.id_then_more
    refine exec_body_raise (t := .subscribe) row stands.ok fun _ _ => (bdSubscribe_of_id id (by omega)).trans ?_
    rw [cap, decSubs_full wf (by simp) entries room le_rfl, except_error_bind]
  case granted =>
    obtain ⟨_, _, id, entries, room⟩ := stands.id_then_more
    refine exec_body_raise (t := .suback) row stands.ok fun _ _ => (bdSuback_of_id id (by omega)).trans ?_
    rw [cap, decGranted_full (by simp) entries room le_rfl, except_error_bind]
  case topics =>
    obtain ⟨_, _, id, entries, room⟩ := stands.id_then_more
    refine exec_body_raise (t := .unsubscribe) row stands.ok fun _ _ => (bdUnsubscribe_of_id id (by omega)).trans ?_
    rw [cap, decTopics_full wf (by simp) entries room le_rfl, except_error_bind]

/-! ### CONNECT (R151) -/

/-- Settles O30: the flags that select the optional fields are the named bits of the flags byte. -/
theorem connectBodyDecodes : Obligations.ConnectBodyDecodes := by
  intro s h q name ver f ka cid wt wm un pw i row
  constructor
  · intro wf stands
    have encoded : ∀ t ∈ [name, cid, wt, wm, un, pw], encText t = .ok (wireText t) := fun t mem =>
      encText_eq_wire (wf t mem).1 (wf t mem).2
    have reads := bdConnect_at (p := s.working.shadow) encoded stands.drop stands.room
    obtain ⟨uf, pf, wr, wq, will, cs⟩ := cfDec_bits f
    rw [uf, pf, wr, wq, will, cs] at reads
    exact exec_body_next (t := .connect) row stands.ok fun _ _ => reads
  · intro pre x k fails
    obtain ⟨ok, fails⟩ := fails.fields
    exact exec_body_raise (t := .connect) row ok fun _ _ => bdConnect_fails fails

/-! ### Every body decoder ends within its slice (R28, R37, R150, R166) -/

/-- A decoder started at `cur` ends within the slice: it answers a cursor (`pos` of its answer) between `cur` and `lim`, or
raises one of the three kinds of the body decoders at a position there. -/
def EndsWithin {α : Type} (cur lim : Nat) (pos : α → Nat) : Except Err α → Prop
  | .ok a => cur ≤ pos a ∧ pos a ≤ lim
  | .error e => cur ≤ e.pos ∧ e.pos ≤ lim ∧ e.kind ∈ [ErrKind.truncatedInput, .invalidEncoding, .capacityExceeded]

section
variable {α β : Type} {cur lim : Nat} {buf : Bytes}

/-- A sequence of decoders ends within the slice if its first does, and its rest does from where the first has ended. -/
theorem EndsWithin.bind {pos : α → Nat} {pos' : β → Nat} {x : Except Err α} {f : α → Except Err β}
    (first : EndsWithin cur lim pos x) (rest : ∀ a, pos a ≤ lim → EndsWithin (pos a) lim pos' (f a)) :
    EndsWithin cur lim pos' (x >>= f) := by
  cases x with
  | error e => exact first
  | ok a =>
    obtain ⟨lo, hi⟩ := first
    have inner := rest a hi
    rw [except_ok_bind]
    revert inner
    cases f a with
    | error e => exact fun ⟨elo, ehi, kind⟩ => ⟨lo.trans elo, ehi, kind⟩
    | ok b => exact fun ⟨blo, bhi⟩ => ⟨lo.trans blo, bhi⟩

/-- A decoder that stops at once, at the cursor it is given. -/
theorem EndsWithin.here {pos : α → Nat} {a : α} (at_cur : pos a = cur) (le : cur ≤ lim) :
    EndsWithin cur lim pos (.ok a) := ⟨at_cur.ge, at_cur ▸ le⟩

theorem decByte_endsWithin (le : cur ≤ lim) : EndsWithin cur lim Prod.snd (decByte buf cur lim) := by
  unfold decByte
  split
  · exact ⟨le_rfl, le, by simp⟩
  · exact ⟨Nat.le_succ _, by dsimp only; omega⟩

theorem decWord_endsWithin (le : cur ≤ lim) : EndsWithin cur lim Prod.snd (decWord buf cur lim) := by
  unfold decWord
  split
  · exact ⟨le_rfl, le, by simp⟩
  · exact ⟨Nat.le_add_right _ _, by dsimp only; omega⟩

theorem decText_endsWithin (inside : lim ≤ buf.length) (le : cur ≤ lim) :
    EndsWithin cur lim Prod.snd (decText buf cur lim) := by
  cases read : decText buf cur lim with
  | error e => rcases decText_error read with rfl | rfl <;> exact ⟨le_rfl, le, by simp⟩
  | ok x =>
    obtain ⟨next, bound, -⟩ := decText_ok inside read
    exact ⟨by omega, bound⟩

theorem decRest_endsWithin (inside : lim ≤ buf.length) (le : cur ≤ lim) :
    EndsWithin cur lim Prod.snd (decRest buf cur lim) := by
  cases read : decRest buf cur lim with
  | error e =>
    rw [decRest_error read]
    exact ⟨le_rfl, le, by simp⟩
  | ok x =>
    obtain ⟨next, -⟩ := decRest_ok inside le read
    exact ⟨by omega, by omega⟩

theorem decSkip_endsWithin (n : Nat) (le : cur ≤ lim) : EndsWithin cur lim id (decSkip buf lim n cur) := by
  induction n generalizing cur with
  | zero => exact .here rfl le
  | succ n ih => exact (decByte_endsWithin le).bind fun _ le => ih le

/-- One pass of a list loop: it ends the list, refuses a further entry, or reads one and goes on. -/
theorem endsWithin_pass {pos : α → Nat} {a : α} {full : Bool} {entry : Except Err α} (at_cur : pos a = cur) (le : cur ≤ lim)
    (reads : EndsWithin cur lim pos entry) :
    EndsWithin cur lim pos (if cur < lim then if full then .error ⟨.capacityExceeded, cur⟩ else entry else .ok a) := by
  split
  · split
    · exact ⟨le_rfl, le, by simp⟩
    · exact reads
  · exact .here at_cur le

variable {cap : Option Nat}

theorem decSubs_endsWithin (inside : lim ≤ buf.length) (passes : Nat) (l : List (Text × Byte)) (le : cur ≤ lim) :
    EndsWithin cur lim Prod.snd (decSubs cap buf lim passes cur l) := by
  induction passes generalizing cur l with
  | zero => exact .here rfl le
  | succ passes ih =>
    exact endsWithin_pass rfl le ((decText_endsWithin inside le).bind fun _ le => (decByte_endsWithin le).bind fun _ le => ih _ le)

theorem decGranted_endsWithin (passes : Nat) (l : List Byte) (le : cur ≤ lim) :
    EndsWithin cur lim Prod.snd (decGranted cap buf lim passes cur l) := by
  induction passes generalizing cur l with
  | zero => exact .here rfl le
  | succ passes ih => exact endsWithin_pass rfl le ((decByte_endsWithin le).bind fun _ le => ih _ le)

theorem decTopics_endsWithin (inside : lim ≤ buf.length) (passes : Nat) (l : List Text) (le : cur ≤ lim) :
    EndsWithin cur lim Prod.snd (decTopics cap buf lim passes cur l) := by
  induction passes generalizing cur l with
  | zero => exact .here rfl le
  | succ passes ih => exact endsWithin_pass rfl le ((decText_endsWithin inside le).bind fun _ le => ih _ le)

variable {p : Pkt}

/-- A field that is read only if a flag is set. -/
theorem endsWithin_optional {c : Prop} [Decidable c] {read : BodyResult} (le : cur ≤ lim)
    (reads : EndsWithin cur lim Prod.fst read) : EndsWithin cur lim Prod.fst (if c then read else .ok (cur, p)) := by
  split
  · exact reads
  · exact .here rfl le

theorem bdConnect_endsWithin (inside : lim ≤ buf.length) (le : cur ≤ lim) :
    EndsWithin cur lim Prod.fst (bdConnect buf cur lim p) := by
  have text {cur : Nat} := decText_endsWithin (cur := cur) inside
  refine (text le).bind fun _ le => (decByte_endsWithin le).bind fun _ le => (decByte_endsWithin le).bind fun _ le =>
    (decWord_endsWithin le).bind fun _ le => (text le).bind fun _ le => ?_
  refine .bind (pos := Prod.fst) (endsWithin_optional le ?will) fun _ le =>
    .bind (pos := Prod.fst) (endsWithin_optional le ?username) fun _ le => endsWithin_optional le ?password
  case will => exact (text le).bind fun _ le => (text le).bind fun _ le => .here rfl le
  case username => exact (text le).bind fun _ le => .here rfl le
  case password => exact (text le).bind fun _ le => .here rfl le

theorem decMsgId_endsWithin (le : cur ≤ lim) : EndsWithin cur lim Prod.fst (decMsgId buf cur lim p) :=
  (decWord_endsWithin le).bind fun _ le => .here rfl le

theorem bodyDec_endsWithin (b : Build) (t : Tag) (q : BitVec 2) (inside : lim ≤ buf.length) (le : cur ≤ lim) :
    EndsWithin cur lim Prod.fst (bodyDec b t buf cur lim q p) := by
  cases t with
  | connect => exact bdConnect_endsWithin inside le
  | connack => exact (decSkip_endsWithin _ le).bind fun _ le => (decByte_endsWithin le).bind fun _ le => .here rfl le
  | publish =>
    exact (decText_endsWithin inside le).bind fun _ le =>
      .bind (pos := Prod.fst) (endsWithin_optional le (decMsgId_endsWithin le)) fun _ le =>
        (decRest_endsWithin inside le).bind fun _ le => .here rfl le
  | puback | pubrec | pubrel | pubcomp | unsuback => exact decMsgId_endsWithin le
  | subscribe =>
    exact (decWord_endsWithin le).bind fun _ le => (decSubs_endsWithin inside _ _ le).bind fun _ le => .here rfl le
  | suback => exact (decWord_endsWithin le).bind fun _ le => (decGranted_endsWithin _ _ le).bind fun _ le => .here rfl le
  | unsubscribe =>
    exact (decWord_endsWithin le).bind fun _ le => (decTopics_endsWithin inside _ _ le).bind fun _ le => .here rfl le
  | pingreq | pingresp | disconnect => exact .here rfl le

end

/-- Settles O31: the decoder run ends within its slice, and the step keeps what it answers or raises. -/
theorem bodyDecodersCompleteOrRaise : Obligations.BodyDecodersCompleteOrRaise := by
  intro s t h q ok le i row
  obtain ⟨qos, -, run⟩ := exec_bodyRow row
  have inside : s.working.lim ≤ s.input.length := s.input_length ▸ (State.inputOk_iff.1 ok).1
  have ends := bodyDec_endsWithin (p := s.working.shadow) s.build t qos inside le
  rw [run]
  cases decoded : bodyDec s.build t s.input s.working.cur s.working.lim qos s.working.shadow with
  | ok x =>
    rw [decoded] at ends
    obtain ⟨lo, hi⟩ := ends
    exact .inl ⟨x.1, x.2, lo, hi, State.bodyStep_ok ok decoded⟩
  | error e =>
    rw [decoded] at ends
    obtain ⟨lo, hi, kind⟩ := ends
    exact .inr ⟨e, lo, hi, kind, State.bodyStep_error ok decoded⟩

end Sys2Proof.Machine

/-! PROOFS. The required-field check and the body encoders run as instructions: the check is the table of R171, each encoder appends its layout to the image or raises at the first text it refuses, and none of them meets an invalid register behind the check (R170 to R185). -/

namespace Sys2Proof.Machine

/-! ### A body encoder as its own row and through BODY_ENC (R170) -/

section
variable {s : State} {t : Tag} {h : Hdr} {i : Instr}

/-- Both ways to run the encoder of `t` are the same step. -/
theorem exec_encodeRow (row : i ∈ [beOf t h, .bodyEnc t]) : exec i s = s.imageStep (bodyEnc s.build t) := by
  simp only [List.mem_cons, List.not_mem_nil, or_false] at row
  rcases row with rfl | rfl
  · exact exec_beOf t h s
  · rfl

theorem exec_encodeRow_appends {body : Bytes} (row : i ∈ [beOf t h, .bodyEnc t]) (gives : bodyEnc s.build t s.pkt = .ok body) :
    exec i s = .next { s with work := some { s.working with image := s.working.image ++ body } } := by
  rw [exec_encodeRow row]
  exact State.imageStep_ok gives

theorem exec_encodeRow_raises {k : ErrKind} (row : i ∈ [beOf t h, .bodyEnc t])
    (stops : bodyEnc s.build t s.pkt = .error (.raise k)) : exec i s = .next (s.enterError false ⟨k, 0⟩) := by
  rw [exec_encodeRow row]
  exact State.imageStep_raise stops

/-- An encoder that stops at the text `u` if `u` is refused raises the error of `ENC_TEXT`, the length test first (R109). -/
theorem exec_encodeRow_refuses {u : Text} (row : i ∈ [beOf t h, .bodyEnc t])
    (stops : ¬ TextOk u → bodyEnc s.build t s.pkt = .error (textStop u)) :
    (textMax < u.length → exec i s = .next (s.enterError false ⟨.lengthOutOfRange, 0⟩)) ∧
    (u.length ≤ textMax → utf8Ok u = false → exec i s = .next (s.enterError false ⟨.invalidEncoding, 0⟩)) :=
  ⟨fun long => exec_encodeRow_raises row (textStop_long long ▸ stops (not_textOk_long long)),
    fun len ill => exec_encodeRow_raises row (textStop_bad len ▸ stops (not_textOk_bad ill))⟩

/-- A list of own rows followed by the dispatches of the same tags is a list of the two ways to run each tag. -/
theorem exists_encodeRow {ts : List Tag} (row : i ∈ ts.map (beOf · h) ++ ts.map Instr.bodyEnc) :
    ∃ t ∈ ts, i ∈ [beOf t h, .bodyEnc t] := by
  rcases List.mem_append.1 row with own | dispatch
  · obtain ⟨t, mem, rfl⟩ := List.mem_map.1 own
    exact ⟨t, mem, .head _⟩
  · obtain ⟨t, mem, rfl⟩ := List.mem_map.1 dispatch
    exact ⟨t, mem, .tail _ (.head _)⟩

end

/-! ### The required-field check (R171) -/

/-- A condition that says when the registers of a type are valid says when `REQ_CHECK` changes nothing. -/
theorem exec_reqCheck_of_iff {s : State} {t : Tag} {ok : Prop} (valid : reqOk t s.pkt = true ↔ ok) :
    (ok → exec (.reqCheck t) s = .next s) ∧
    (¬ ok → exec (.reqCheck t) s = .next (s.enterError false ⟨.missingRequiredField, 0⟩)) :=
  ⟨fun holds => if_pos (valid.2 holds), fun fails => if_neg fun passes => fails (valid.1 passes)⟩

theorem willAllOrNone_iff {p : Pkt} : willAllOrNone p = true ↔
    (p.willTopic ≠ none ∧ p.willMessage ≠ none ∧ p.willQos ≠ none ∧ p.willRetain ≠ none) ∨
    (p.willTopic = none ∧ p.willMessage = none ∧ p.willQos = none ∧ p.willRetain = none) := by
  simp [willAllOrNone, Option.isSome_iff_ne_none, and_assoc]

theorem reqOk_publish_iff {p : Pkt} :
    reqOk .publish p = true ↔ p.topic ≠ none ∧ p.payload ≠ none ∧ (p.qos ≠ 0 → p.msgId ≠ none) := by
  simp only [reqOk, Bool.and_eq_true, Bool.or_eq_true, beq_iff_eq, Option.isSome_iff_ne_none, and_assoc, or_iff_not_imp_left]

/-- Settles O32: for each tag, the test of the model is the row of the table. -/
theorem requiredFieldsAreChecked : Obligations.RequiredFieldsAreChecked := by
  intro s t
  refine exec_reqCheck_of_iff ?_
  cases t with
  | connect => simp only [reqOk, Bool.and_eq_true, willAllOrNone_iff, Option.isSome_iff_ne_none, and_assoc]
  | publish => exact reqOk_publish_iff
  | connack | puback | pubrec | pubrel | pubcomp | unsuback => exact Option.isSome_iff_ne_none
  | subscribe | suback | unsubscribe => simp only [reqOk, Bool.and_eq_true, Option.isSome_iff_ne_none]
  | pingreq | pingresp | disconnect => exact iff_of_true rfl trivial

/-! ### Bodies of one message-id, without fields, and CONNACK (R173, R175 to R178, R182 to R185) -/

theorem bodyEnc_of_msgId {t : Tag} (only : t ∈ [Tag.puback, .pubrec, .pubrel, .pubcomp, .unsuback]) (b : Build) (p : Pkt) :
    bodyEnc b t p = encMsgId p := by
  simp only [List.mem_cons, List.not_mem_nil, or_false] at only
  rcases only with rfl | rfl | rfl | rfl | rfl <;> rfl

theorem bodyEnc_of_bodiless {t : Tag} (bodiless : t ∈ [Tag.pingreq, .pingresp, .disconnect]) (b : Build) (p : Pkt) :
    bodyEnc b t p = .ok [] := by
  simp only [List.mem_cons, List.not_mem_nil, or_false] at bodiless
  rcases bodiless with rfl | rfl | rfl <;> rfl

theorem encMsgId_some {p : Pkt} {m : Word} (hm : p.msgId = some m) : encMsgId p = .ok (wireWord m) := by
  rw [encMsgId, hm]
  rfl

/-- Settles O33: five bodies share the encoder of one word, and three append nothing. -/
theorem plainBodiesEncode : Obligations.PlainBodiesEncode := by
  refine fun s h => ⟨fun m hm i row => ?word, fun i row => ?nothing⟩
  case word =>
    obtain ⟨t, only, row⟩ := exists_encodeRow (ts := [.puback, .pubrec, .pubrel, .pubcomp, .unsuback]) row
    exact exec_encodeRow_appends row (by rw [bodyEnc_of_msgId only, encMsgId_some hm])
  case nothing =>
    obtain ⟨t, bodiless, row⟩ := exists_encodeRow (ts := [.pingreq, .pingresp, .disconnect]) row
    rw [exec_encodeRow_appends row (bodyEnc_of_bodiless bodiless _ _), List.append_nil]

theorem beConnack_some {pad : Fin 2} {p : Pkt} {rc : Byte} (hr : p.returnCode = some rc) :
    beConnack pad p = .ok (if pad = 0 then [rc] else [0, rc]) := by
  rw [beConnack, hr]
  fin_cases pad <;> rfl

/-- Settles O34: the reserved byte is there iff the build has one. -/
theorem connackBodyEncodes : Obligations.ConnackBodyEncodes := fun _ _ _ hr _ row =>
  exec_encodeRow_appends (t := .connack) row (beConnack_some hr)

/-! ### PUBLISH (R174) -/

theorem encPublishId_of_qos_zero {p : Pkt} (qos : p.qos = 0) : encPublishId p = .ok [] :=
  if_neg (by simp [qos])

theorem encPublishId_some {p : Pkt} {m : Word} (qos : p.qos ≠ 0) (hm : p.msgId = some m) : encPublishId p = .ok (wireWord m) := by
  rw [encPublishId, if_pos (by simpa using qos), hm]
  rfl

/-- The message-id stops a publish only where it is needed and invalid. -/
theorem encPublishId_readable {p : Pkt} (readable : p.qos = 0 ∨ p.msgId ≠ none) : ∃ mid, encPublishId p = .ok mid := by
  by_cases qos : p.qos = 0
  · exact ⟨_, encPublishId_of_qos_zero qos⟩
  · obtain ⟨m, hm⟩ := Option.ne_none_iff_exists'.1 (readable.resolve_left qos)
    exact ⟨_, encPublishId_some qos hm⟩

theorem bePublish_refused_topic {p : Pkt} {t : Text} (ht : p.topic = some t) (refused : ¬ TextOk t) :
    bePublish p = .error (textStop t) := by
  rw [bePublish, ht, encTextReg, readReg_some, except_ok_bind, encText_refused refused, except_error_bind]

/-- Behind an accepted topic and a message-id that can be read a publish is its payload. -/
theorem bePublish_of_topic {p : Pkt} {t : Text} {pl mid : Bytes} (ht : p.topic = some t) (len : t.length ≤ textMax)
    (wf : utf8Ok t = true) (id : encPublishId p = .ok mid) (hp : p.payload = some pl) :
    bePublish p = (encRest pl >>= fun rest => .ok (wireText t ++ mid ++ rest)) := by
  rw [bePublish, encTextReg_wf_bind ht len wf, id, except_ok_bind, hp, readReg_some, except_ok_bind]
  rfl

/-- Settles O35: topic, message-id and payload in the order of the layout; the first of the two texts that is refused raises. -/
theorem publishBodyEncodes : Obligations.PublishBodyEncodes := by
  intro s h t pl ht hp i row
  have refuses := exec_encodeRow_refuses (t := .publish) row (bePublish_refused_topic ht)
  have appends {mid : Bytes} (len : t.length ≤ textMax) (wf : utf8Ok t = true) (wfPl : utf8Ok pl = true)
      (id : encPublishId s.pkt = .ok mid) := exec_encodeRow_appends (t := .publish) row
    ((bePublish_of_topic ht len wf id hp).trans (by rw [encRest_of_wf wfPl, except_ok_bind]))
  refine ⟨fun len wf wfPl qos => ?plain, fun m len wf wfPl qos hm => ?withId, refuses.1, fun len readable ill => ?ill⟩
  case plain => rw [appends len wf wfPl (encPublishId_of_qos_zero qos), List.append_nil, List.append_assoc]
  case withId => simp only [appends len wf wfPl (encPublishId_some qos hm), List.append_assoc]
  case ill =>
    cases wf : utf8Ok t with
    | false => exact refuses.2 len wf
    | true =>
      obtain ⟨mid, id⟩ := encPublishId_readable readable
      have illPl : utf8Ok pl = false := ill.resolve_left (by simp [wf])
      refine exec_encodeRow_raises (t := .publish) row ((bePublish_of_topic ht len wf id hp).trans ?_)
      rw [encRest_ill_formed illPl, except_error_bind]

/-! ### The bodies with a list (R179 to R181) -/

section
variable {p : Pkt} {m : Word}

/-- Behind its message-id a subscribe is the loop over its entries. -/
theorem beSubscribe_of_regs {l : List (Text × Byte)} (hm : p.msgId = some m) (hl : p.subs = some l) :
    beSubscribe p = (encSubs l >>= fun rest => .ok (wireWord m ++ rest)) := by
  rw [beSubscribe, hm, hl]
  rfl

theorem beSuback_of_regs {l : List Byte} (hm : p.msgId = some m) (hl : p.granted = some l) :
    beSuback p = .ok (wireWord m ++ l) := by
  rw [beSuback, hm, hl]
  exact congrArg (fun entries => Except.ok (wireWord m ++ entries)) (List.flatMap_singleton' l)

theorem beUnsubscribe_of_regs {l : List Text} (hm : p.msgId = some m) (hl : p.topics = some l) :
    beUnsubscribe p = (encTopics l >>= fun rest => .ok (wireWord m ++ rest)) := by
  rw [beUnsubscribe, hm, hl]
  rfl

end

/-- Settles O36: the message-id, then the loop over the entries, which stops at the first topic that is refused. -/
theorem listBodiesEncode : Obligations.ListBodiesEncode := by
  intro s h m hm
  refine ⟨fun l hl i row => ⟨fun wf => ?subs, fun t first => ?subsRefuse⟩, fun l hl i row => ?granted,
    fun l hl i row => ⟨fun wf => ?topics, fun t first => ?topicsRefuse⟩⟩
  case subs =>
    rw [List.append_assoc]
    refine exec_encodeRow_appends (t := .subscribe) row ((beSubscribe_of_regs hm hl).trans ?_)
    rw [encSubs_of_wf wf, except_ok_bind]
  case subsRefuse =>
    refine exec_encodeRow_refuses (t := .subscribe) row fun refused => (beSubscribe_of_regs hm hl).trans ?_
    rw [encSubs_fails first refused, except_error_bind]
  case granted =>
    rw [List.append_assoc]
    exact exec_encodeRow_appends (t := .suback) row (beSuback_of_regs hm hl)
  case topics =>
    rw [List.append_assoc]
    refine exec_encodeRow_appends (t := .unsubscribe) row ((beUnsubscribe_of_regs hm hl).trans ?_)
    rw [encTopics_of_wf wf, except_ok_bind]
  case topicsRefuse =>
    refine exec_encodeRow_refuses (t := .unsubscribe) row fun refused => (beUnsubscribe_of_regs hm hl).trans ?_
    rw [encTopics_fails first refused, except_error_bind]

/-! ### CONNECT (R172) -/

/-- The connect flags of a Packet's fields: will-retain and will-qos are 0 without a will (R142, R145). -/
def connectFlags (cs : Bool) (will : Option Will) (un pw : Option Text) : ConnFlags where
  uf := nonEmpty un
  pf := nonEmpty pw
  wr := (will.map (·.retain)).getD false
  wq := (will.map (·.qos)).getD 0
  wf := will.isSome
  cs := cs

theorem textWf_iff {t : Text} : textWf t = true ↔ TextOk t := by simp [textWf, TextOk]

/-- An optional text that is well-formed where it is present is accepted, and so is the empty one in its place. -/
theorem textOk_getD_of_all {o : Option Text} (wf : o.all textWf = true) : TextOk (o.getD []) :=
  textOk_getD fun t ht => textWf_iff.1 (by simpa [ht] using wf)

section
variable {b : Build} {d r cs : Bool} {q : BitVec 2} {name cid : Text} {ver : Byte} {ka : Word} {will : Option Will}
  {un pw : Option Text}

/-- The registers of a connect Packet pass the required-field check, with a will or without (R26, R171). -/
theorem reqOk_connect_regs : reqOk .connect (Packet.regs b ⟨.connect, d, q, r, .connect name ver cs ka cid will un pw⟩) = true := by
  cases will <;> rfl

/-- The texts of a well-formed connect Packet are accepted by the encoder (R27). -/
theorem textOk_of_connect_wf (wf : Packet.wf ⟨.connect, d, q, r, .connect name ver cs ka cid will un pw⟩ = true) :
    ∀ t ∈ [name, cid, (will.map (·.topic)).getD [], (will.map (·.message)).getD [], un.getD [], pw.getD []], TextOk t := by
  simp only [Packet.wf, Bool.and_eq_true] at wf
  obtain ⟨-, ⟨⟨⟨wfName, wfCid⟩, wfWill⟩, wfUn⟩, wfPw⟩ := wf
  have wfWillTexts : TextOk ((will.map (·.topic)).getD []) ∧ TextOk ((will.map (·.message)).getD []) := by
    cases will with
    | none => exact ⟨textOk_nil, textOk_nil⟩
    | some w =>
      obtain ⟨topic, message⟩ := (Bool.and_eq_true _ _).mp wfWill
      exact ⟨textWf_iff.1 topic, textWf_iff.1 message⟩
  simp only [List.mem_cons, List.not_mem_nil, or_false, forall_eq_or_imp, forall_eq]
  exact ⟨textWf_iff.1 wfName, textWf_iff.1 wfCid, wfWillTexts.1, wfWillTexts.2, textOk_getD_of_all wfUn, textOk_getD_of_all wfPw⟩

/-- On the registers of a connect Packet `CF_DERIVE` answers the flags of its fields (R142). -/
theorem cfDerive_connect_regs : cfDerive (Packet.regs b ⟨.connect, d, q, r, .connect name ver cs ka cid will un pw⟩) =
    .ok (connectFlags cs will un pw) := by
  cases will <;> rfl

/-- `BE_CONNECT` on the registers of a well-formed connect Packet (R172). -/
theorem beConnect_regs (wf : Packet.wf ⟨.connect, d, q, r, .connect name ver cs ka cid will un pw⟩ = true) :
    beConnect (Packet.regs b ⟨.connect, d, q, r, .connect name ver cs ka cid will un pw⟩) =
      .ok (wireConnect name ver (cfEnc (connectFlags cs will un pw)) ka cid ((will.map (·.topic)).getD [])
        ((will.map (·.message)).getD []) (un.getD []) (pw.getD [])) :=
  beConnect_of reqOk_connect_regs cfDerive_connect_regs rfl rfl rfl rfl (textOk_of_connect_wf wf)

end

/-- Settles O37: the flags byte is the encoding of the flags derived from the registers; the first text that is refused raises. -/
theorem connectBodyEncodes : Obligations.ConnectBodyEncodes := by
  intro s h name ver cs ka cid will un pw d r q regs
  refine ⟨fun wf => ?layout, fun t first i row => ?refuse⟩
  case layout =>
    obtain ⟨uf, pf, retain, qos, present, session, reserved, -⟩ := cfEnc_bits (connectFlags cs will un pw)
    refine ⟨_, uf.trans (nonEmpty_eq un), pf.trans (nonEmpty_eq pw), present, session, reserved, ?_, ?_, fun i row =>
      exec_encodeRow_appends (t := .connect) row (regs ▸ beConnect_regs wf)⟩
    · rintro rfl
      exact ⟨retain, qos⟩
    · rintro w rfl
      exact ⟨retain, qos⟩
  case refuse =>
    refine exec_encodeRow_refuses (t := .connect) row fun refused => ?_
    rw [regs]
    exact beConnect_fails reqOk_connect_regs rfl rfl rfl rfl first refused

/-! ### Every body encoder ends (R109, R110, R170) -/

/-- An encoder stops, if it does, at a text or a rest that it refuses or at a register whose valid bit is 0. -/
def StopsAsBody {α : Type} (x : Except EncStop α) : Prop :=
  ∀ e, x = .error e → e ∈ [.raise .lengthOutOfRange, .raise .invalidEncoding, EncStop.invalidRegister]

section
variable {α β : Type}

theorem StopsAsBody.ok (a : α) : StopsAsBody (.ok a) := fun _ h => nomatch h

theorem StopsAsBody.of_invalidRegister {x : Except EncStop α} (only : ∀ e, x = .error e → e = .invalidRegister) :
    StopsAsBody x := fun e h => by simp [only e h]

/-- A sequence stops where its first part does or where its rest does. -/
theorem StopsAsBody.bind {x : Except EncStop α} {f : α → Except EncStop β} (first : StopsAsBody x)
    (rest : ∀ a, StopsAsBody (f a)) : StopsAsBody (x >>= f) := by
  intro e h
  rcases except_bind_error.1 h with h | ⟨a, _, h⟩
  · exact first e h
  · exact rest a e h

theorem readReg_stopsAsBody (r : Option α) : StopsAsBody (readReg r) := .of_invalidRegister fun _ => readReg_error

end

theorem encText_stopsAsBody (t : Text) : StopsAsBody (encText t) := by
  intro e h
  by_cases accepted : TextOk t
  · rw [encText_eq_wire accepted.1 accepted.2] at h
    cases h
  · rw [encText_refused accepted, textStop] at h
    cases h
    split <;> simp

theorem encRest_stopsAsBody (t : Bytes) : StopsAsBody (encRest t) := by
  intro e h
  cases wf : utf8Ok t with
  | true =>
    rw [encRest_of_wf wf] at h
    cases h
  | false =>
    rw [encRest_ill_formed wf] at h
    cases h
    simp

theorem encTextReg_stopsAsBody (r : Option Text) : StopsAsBody (encTextReg r) :=
  (readReg_stopsAsBody r).bind encText_stopsAsBody

theorem encTextIf_stopsAsBody (present : Bool) (r : Option Text) : StopsAsBody (encTextIf present r) := by
  cases present with
  | false => exact .ok []
  | true => exact encTextReg_stopsAsBody r

theorem encMsgId_stopsAsBody (p : Pkt) : StopsAsBody (encMsgId p) := (readReg_stopsAsBody _).bind fun _ => .ok _

theorem encSubs_stopsAsBody (l : List (Text × Byte)) : StopsAsBody (encSubs l) := by
  induction l with
  | nil => exact .ok []
  | cons e l ih => exact (encText_stopsAsBody _).bind fun _ => ih.bind fun _ => .ok _

theorem encTopics_stopsAsBody (l : List Text) : StopsAsBody (encTopics l) := by
  induction l with
  | nil => exact .ok []
  | cons t l ih => exact (encText_stopsAsBody _).bind fun _ => ih.bind fun _ => .ok _

theorem beConnect_stopsAsBody (p : Pkt) : StopsAsBody (beConnect p) :=
  (StopsAsBody.of_invalidRegister fun _ => cfDerive_error).bind fun _ => (encTextReg_stopsAsBody _).bind fun _ =>
    (readReg_stopsAsBody _).bind fun _ => (readReg_stopsAsBody _).bind fun _ => (encTextReg_stopsAsBody _).bind fun _ =>
    (encTextIf_stopsAsBody _ _).bind fun _ => (encTextIf_stopsAsBody _ _).bind fun _ =>
    (encTextIf_stopsAsBody _ _).bind fun _ => (encTextIf_stopsAsBody _ _).bind fun _ => .ok _

theorem bePublish_stopsAsBody (p : Pkt) : StopsAsBody (bePublish p) :=
  (encTextReg_stopsAsBody _).bind fun _ => (StopsAsBody.of_invalidRegister fun _ => encPublishId_error).bind fun _ =>
    (readReg_stopsAsBody _).bind fun _ => (encRest_stopsAsBody _).bind fun _ => .ok _

theorem bodyEnc_stopsAsBody (b : Build) (t : Tag) (p : Pkt) : StopsAsBody (bodyEnc b t p) := by
  cases t with
  | connect => exact beConnect_stopsAsBody p
  | connack => exact (readReg_stopsAsBody _).bind fun _ => .ok _
  | publish => exact bePublish_stopsAsBody p
  | puback | pubrec | pubrel | pubcomp | unsuback => exact encMsgId_stopsAsBody p
  | subscribe =>
    exact (readReg_stopsAsBody _).bind fun _ => (readReg_stopsAsBody _).bind fun _ => (encSubs_stopsAsBody _).bind fun _ => .ok _
  | suback => exact (readReg_stopsAsBody _).bind fun _ => (readReg_stopsAsBody _).bind fun _ => .ok _
  | unsubscribe =>
    exact (readReg_stopsAsBody _).bind fun _ => (readReg_stopsAsBody _).bind fun _ => (encTopics_stopsAsBody _).bind fun _ => .ok _
  | pingreq | pingresp | disconnect => exact .ok []

/-- Settles O38: an encoder stops at a refused field or an invalid register, and behind the check there is none of the latter. -/
theorem bodyEncodersCompleteOrRaise : Obligations.BodyEncodersCompleteOrRaise := by
  intro s t h checked i row
  cases encoded : bodyEnc s.build t s.pkt with
  | ok body => exact .inl ⟨body, exec_encodeRow_appends row encoded⟩
  | error e =>
    have stop := bodyEnc_stopsAsBody s.build t s.pkt e encoded
    cases e with
    | raise k => exact .inr ⟨k, by simpa using stop, exec_encodeRow_raises row encoded⟩
    | invalidRegister => exact absurd encoded (bodyEnc_not_invalid checked)

end Sys2Proof.Machine

/-! PROOFS. The commands: what an image decodes to, what a decoded packet encodes to, and which bytes are canonical (R194, R195, R197); each command as one update of the state and as its internal operations in sequence (R190 to R193, R196). -/

namespace Sys2Proof.Machine

/-! ### The Packet behind a successful encode is well-formed (R27) -/

theorem all_textWf_iff {o : Option Text} : o.all textWf = true ↔ TextOk (o.getD []) := by
  cases o <;> simp [textWf_iff, textOk_nil]

theorem encRest_ok {t bs : Bytes} (h : encRest t = .ok bs) : utf8Ok t = true ∧ bs = t := by
  unfold encRest at h
  split at h
  next wf => exact ⟨wf, (Except.ok.inj h).symm⟩
  next => cases h

/-! What a body built from registers says about them (R26). -/

section
variable {p : Pkt} {body : Body}

theorem bodyOf_connect (h : bodyOf .connect p = some body) : ∃ name ver cs ka cid,
    p.protoName = some name ∧ p.protoVer = some ver ∧ p.cleanSession = some cs ∧ p.keepAlive = some ka ∧ p.clientId = some cid ∧
    body = .connect name ver cs ka cid (willOf p) p.username p.password := by
  simp only [bodyOf, Option.bind_eq_bind, Option.bind_eq_some_iff] at h
  obtain ⟨name, hn, ver, hv, cs, hc, ka, hk, cid, hi, h⟩ := h
  exact ⟨name, ver, cs, ka, cid, hn, hv, hc, hk, hi, (Option.some.inj h).symm⟩

theorem bodyOf_publish (h : bodyOf .publish p = some body) : ∃ topic pl,
    p.topic = some topic ∧ p.payload = some pl ∧ body = .publish topic (if p.qos = 0 then none else p.msgId) pl := by
  simp only [bodyOf, Option.bind_eq_bind, Option.bind_eq_some_iff] at h
  obtain ⟨topic, ht, pl, hp, h⟩ := h
  exact ⟨topic, pl, ht, hp, (Option.some.inj h).symm⟩

theorem bodyOf_subscribe (h : bodyOf .subscribe p = some body) :
    ∃ m l, p.msgId = some m ∧ p.subs = some l ∧ body = .subscribe m l := by
  simp only [bodyOf, Option.bind_eq_bind, Option.bind_eq_some_iff] at h
  obtain ⟨m, hm, l, hl, h⟩ := h
  exact ⟨m, l, hm, hl, (Option.some.inj h).symm⟩

theorem bodyOf_suback (h : bodyOf .suback p = some body) :
    ∃ m l, p.msgId = some m ∧ p.granted = some l ∧ body = .suback m l := by
  simp only [bodyOf, Option.bind_eq_bind, Option.bind_eq_some_iff] at h
  obtain ⟨m, hm, l, hl, h⟩ := h
  exact ⟨m, l, hm, hl, (Option.some.inj h).symm⟩

theorem bodyOf_unsubscribe (h : bodyOf .unsubscribe p = some body) :
    ∃ m l, p.msgId = some m ∧ p.topics = some l ∧ body = .unsubscribe m l := by
  simp only [bodyOf, Option.bind_eq_bind, Option.bind_eq_some_iff] at h
  obtain ⟨m, hm, l, hl, h⟩ := h
  exact ⟨m, l, hm, hl, (Option.some.inj h).symm⟩

end

/-- The encoders accept only well-formed fields (R27, R109, R110). -/
theorem wf_of_bodyEnc {b : Build} {p : Pkt} {q : Packet} {bs : Bytes} (held : packetOf b p = some q)
    (enc : bodyEnc b q.tag p = .ok bs) (size : bs.length ≤ rlMax) : q.wf = true := by
  obtain ⟨c, body, -, -, legal, req, fields, shape⟩ := packetOf_iff.1 held
  obtain ⟨t, d, qos, r, body'⟩ := q
  cases shape
  dsimp only at enc req fields
  have hq : (p.qos != 3) = true := by simpa using legal
  unfold Packet.wf
  rw [hq, Bool.true_and]
  cases t
  case connect =>
    obtain ⟨name, ver, cs, ka, cid, hn, -, -, -, hi, rfl⟩ := bodyOf_connect fields
    obtain ⟨name', ver', ka', cid', fl, hn', -, -, hi', -, texts, -⟩ := beConnect_ok req enc
    cases hn.symm.trans hn'
    cases hi.symm.trans hi'
    simp only [List.forall_mem_cons] at texts
    obtain ⟨tn, ti, tt, tm, tu, tp, -⟩ := texts
    simp only [reqOk, Bool.and_eq_true] at req
    obtain ⟨wt, wm, -, -⟩ := willOf_regs req.2
    rw [wt] at tt
    rw [wm] at tm
    simp only [Bool.and_eq_true, all_textWf_iff, textWf_iff]
    refine ⟨⟨⟨⟨tn, ti⟩, ?_⟩, tu⟩, tp⟩
    cases hw : willOf p with
    | none => rfl
    | some w =>
      rw [hw] at tt tm
      simpa [textWf_iff] using And.intro tt tm
  case publish =>
    obtain ⟨topic, pl, ht, hp, rfl⟩ := bodyOf_publish fields
    obtain ⟨topicBytes, h1, enc⟩ := except_bind_ok.1 enc
    obtain ⟨mid, -, enc⟩ := except_bind_ok.1 enc
    obtain ⟨pl', h3, enc⟩ := except_bind_ok.1 enc
    obtain ⟨rest, h4, enc⟩ := except_bind_ok.1 enc
    cases enc
    obtain ⟨topic', ht', topicOk, -⟩ := encTextReg_ok h1
    cases ht.symm.trans ht'
    cases hp.symm.trans (readReg_eq_ok.1 h3)
    obtain ⟨payloadOk, rfl⟩ := encRest_ok h4
    have room : rest.length ≤ rlMax := by
      simp only [List.length_append] at size
      omega
    obtain ⟨-, -, present⟩ := reqOk_publish_iff.1 req
    have idValid : (if p.qos = 0 then none else p.msgId).isSome = (p.qos != 0) := by
      by_cases zero : p.qos = 0
      · rw [if_pos zero, zero]
        rfl
      · rw [if_neg zero, bne_iff_ne.2 zero]
        exact Option.isSome_iff_ne_none.2 (present zero)
    simp only [Bool.and_eq_true, textWf_iff, decide_eq_true_eq, beq_iff_eq]
    exact ⟨⟨⟨topicOk, payloadOk⟩, room⟩, idValid⟩
  case subscribe =>
    obtain ⟨m, l, hm, hl, rfl⟩ := bodyOf_subscribe fields
    simp only [bodyEnc, beSubscribe_of_regs hm hl] at enc
    obtain ⟨rest, h1, -⟩ := except_bind_ok.1 enc
    exact List.all_eq_true.2 fun e he => textWf_iff.2 ((encSubs_ok h1).1 e he)
  case unsubscribe =>
    obtain ⟨m, l, hm, hl, rfl⟩ := bodyOf_unsubscribe fields
    simp only [bodyEnc, beUnsubscribe_of_regs hm hl] at enc
    obtain ⟨rest, h1, -⟩ := except_bind_ok.1 enc
    exact List.all_eq_true.2 fun t ht => textWf_iff.2 ((encTopics_ok h1).1 t ht)
  case suback =>
    obtain ⟨m, l, hm, hl, rfl⟩ := bodyOf_suback fields
    rfl
  case pingreq | pingresp | disconnect =>
    cases fields
    rfl
  all_goals
    obtain ⟨v, hv, rfl⟩ := Option.map_eq_some_iff.1 fields
    rfl

/-- The registers of the Packet in a register file are as wide as that register file's (R23, R26). -/
theorem regs_fits_of_packetOf {b : Build} {p : Pkt} {q : Packet} {cap : Option Nat} (held : packetOf b p = some q)
    (fits : p.fits cap = true) : (q.regs b).fits cap = true := by
  obtain ⟨c, body, -, -, -, req, fields, shape⟩ := packetOf_iff.1 held
  obtain ⟨t, d, qos, r, body'⟩ := q
  cases shape
  dsimp only at req fields
  rw [pkt_fits_iff] at fits ⊢
  obtain ⟨fname, fcid, fwt, fwm, fuser, fpass, ftopic, fpl, fsubs, fgranted, ftopics⟩ := fits
  cases t
  case connect =>
    obtain ⟨name, ver, cs, ka, cid, hn, -, -, -, hi, rfl⟩ := bodyOf_connect fields
    simp only [reqOk, Bool.and_eq_true] at req
    obtain ⟨wt, wm, -⟩ := willOf_regs req.2
    rw [hn] at fname
    rw [hi] at fcid
    rw [wt] at fwt
    rw [wm] at fwm
    exact ⟨fname, fcid, fwt, fwm, fuser, fpass, rfl, rfl, rfl, rfl, rfl⟩
  case publish =>
    obtain ⟨topic, pl, ht, hp, rfl⟩ := bodyOf_publish fields
    rw [ht] at ftopic
    rw [hp] at fpl
    exact ⟨rfl, rfl, rfl, rfl, rfl, rfl, ftopic, fpl, rfl, rfl, rfl⟩
  case subscribe =>
    obtain ⟨m, l, hm, hl, rfl⟩ := bodyOf_subscribe fields
    rw [hl] at fsubs
    exact ⟨rfl, rfl, rfl, rfl, rfl, rfl, rfl, rfl, fsubs, rfl, rfl⟩
  case suback =>
    obtain ⟨m, l, hm, hl, rfl⟩ := bodyOf_suback fields
    rw [hl] at fgranted
    exact ⟨rfl, rfl, rfl, rfl, rfl, rfl, rfl, rfl, rfl, fgranted, rfl⟩
  case unsubscribe =>
    obtain ⟨m, l, hm, hl, rfl⟩ := bodyOf_unsubscribe fields
    rw [hl] at ftopics
    exact ⟨rfl, rfl, rfl, rfl, rfl, rfl, rfl, rfl, rfl, rfl, ftopics⟩
  case pingreq | pingresp | disconnect =>
    cases fields
    exact ⟨rfl, rfl, rfl, rfl, rfl, rfl, rfl, rfl, rfl, rfl, rfl⟩
  all_goals
    obtain ⟨v, hv, rfl⟩ := Option.map_eq_some_iff.1 fields
    exact ⟨rfl, rfl, rfl, rfl, rfl, rfl, rfl, rfl, rfl, rfl, rfl⟩

/-- An encode that succeeds is the encode of the registers of one well-formed Packet (R26, R27). -/
theorem encodePacket_packet {b : Build} {p : Pkt} {im : Bytes} (lawful : b.wf = true) (enc : encodePacket b p = .ok im) :
    ∃ q, packetOf b p = some q ∧ q.wf = true ∧ encodePacket b (q.regs b) = .ok im := by
  obtain ⟨defined, same⟩ := encodeDependsOnlyOnThePacket b p
  obtain ⟨q, held⟩ := Option.ne_none_iff_exists'.1 (defined im enc)
  have wf : q.wf = true := by
    obtain ⟨c, t, code, tag, -, -, checked⟩ := encodePacket_ok enc
    obtain ⟨c', -, code', tag', -⟩ := packetOf_iff.1 held
    cases code.symm.trans code'
    cases tag.symm.trans tag'
    obtain ⟨body, benc, size, -⟩ := encodeChecked_ok checked
    exact wf_of_bodyEnc held benc size
  exact ⟨q, held, wf, same _ q held (packetOf_regs lawful wf) ▸ enc⟩

/-! ### A body that was encoded decodes to `canon` of its Packet (R194) -/

theorem canon_tag (q : Packet) : q.canon.tag = q.tag := by
  obtain ⟨t, d, qos, r, body⟩ := q
  cases body <;> rfl

theorem dropEmpty_eq (o : Option Text) : dropEmpty o = if nonEmpty o then some (o.getD []) else none := by
  rcases o with _ | _ | ⟨x, t⟩ <;> rfl

theorem all_dropEmpty {o : Option Text} {f : Text → Bool} (h : o.all f = true) : (dropEmpty o).all f = true := by
  rcases o with _ | _ | ⟨x, t⟩
  · rfl
  · rfl
  · exact h

/-- Dropping an empty username or password keeps a Packet well-formed. -/
theorem canon_wf {q : Packet} (wf : q.wf = true) : q.canon.wf = true := by
  obtain ⟨t, d, qos, r, body⟩ := q
  cases body with
  | connect =>
    cases t <;> simp only [Packet.wf, Bool.and_false, Bool.and_eq_true, Bool.false_eq_true, Packet.canon] at wf ⊢
    obtain ⟨legal, texts, pw⟩ := wf
    exact ⟨legal, ⟨texts.1, all_dropEmpty texts.2⟩, all_dropEmpty pw⟩
  | _ => exact wf

/-- The connect body of a Packet decodes to the Packet without its empty username and password (R142, R194). -/
theorem bdConnect_of_beConnect {b : Build} {d r cs : Bool} {qos : BitVec 2} {name cid : Text} {ver : Byte} {ka : Word}
    {will : Option Will} {un pw : Option Text} {buf bs rest : Bytes} {cur lim h n : Nat}
    (wf : Packet.wf ⟨.connect, d, qos, r, .connect name ver cs ka cid will un pw⟩ = true)
    (enc : beConnect (Packet.regs b ⟨.connect, d, qos, r, .connect name ver cs ka cid will un pw⟩) = .ok bs)
    (stands : buf.drop cur = bs ++ rest) (whole : lim = cur + bs.length) :
    bdConnect buf cur lim (shadowOf b.typeCode ⟨.connect, ⟨d, qos, r⟩, h, n⟩) =
      .ok (lim, Packet.regs b ⟨.connect, d, qos, r, .connect name ver cs ka cid will (dropEmpty un) (dropEmpty pw)⟩) := by
  rw [beConnect_regs wf] at enc
  cases enc
  have texts : ∀ t ∈ [name, cid, (will.map (·.topic)).getD [], (will.map (·.message)).getD [], un.getD [], pw.getD []],
      encText t = .ok (wireText t) := fun t ht => by
    obtain ⟨len, utf8⟩ := textOk_of_connect_wf wf t ht
    exact encText_eq_wire len utf8
  rw [bdConnect_at texts stands whole.ge, cfDec_cfEnc, ← whole, dropEmpty_eq, dropEmpty_eq]
  cases will <;> rfl

/-- The publish body of a Packet decodes to the Packet (R153, R174). -/
theorem bdPublish_of_bePublish {b : Build} {d r : Bool} {qos : BitVec 2} {topic : Text} {m : Option Word} {pl : Bytes}
    {buf bs rest : Bytes} {cur lim h n : Nat} (wf : Packet.wf ⟨.publish, d, qos, r, .publish topic m pl⟩ = true)
    (enc : bePublish (Packet.regs b ⟨.publish, d, qos, r, .publish topic m pl⟩) = .ok bs)
    (stands : buf.drop cur = bs ++ rest) (whole : lim = cur + bs.length) :
    bdPublish qos buf cur lim (shadowOf b.typeCode ⟨.publish, ⟨d, qos, r⟩, h, n⟩) =
      .ok (lim, Packet.regs b ⟨.publish, d, qos, r, .publish topic m pl⟩) := by
  simp only [Packet.wf, Bool.and_eq_true, textWf_iff, beq_iff_eq] at wf
  obtain ⟨-, ⟨⟨⟨len, utf8⟩, payload⟩, -⟩, valid⟩ := wf
  have idField : encPublishId (Packet.regs b ⟨.publish, d, qos, r, .publish topic m pl⟩) =
      .ok (if qos = 0 then [] else encWord (m.getD 0)) ∧ (if qos = 0 then none else some (m.getD 0)) = m := by
    cases m with
    | none =>
      have zero : qos = 0 := by simpa using valid
      exact ⟨by rw [if_pos zero]; exact encPublishId_of_qos_zero zero, if_pos zero⟩
    | some w =>
      have nonzero : qos ≠ 0 := by simpa using valid
      exact ⟨by rw [if_neg nonzero, ← wireWord_eq]; exact encPublishId_some nonzero rfl, if_neg nonzero⟩
  obtain ⟨idBytes, idReg⟩ := idField
  rw [bePublish_of_topic rfl len utf8 idBytes rfl, encRest_of_wf payload, ← wireFields_publishFields] at enc
  cases enc
  rw [List.append_assoc] at stands
  rw [List.length_append, ← Nat.add_assoc] at whole
  rw [bdPublish_of_fields len utf8 stands (by omega), decRest_at payload (drop_add_of_drop stands) whole]
  exact congrArg (fun m => Except.ok (lim, Packet.regs b ⟨.publish, d, qos, r, .publish topic m pl⟩)) idReg

/-- A body decoder gives back, up to `canon`, the registers that its encoder was run on (R194). -/
theorem bodyDec_of_bodyEnc {b : Build} {q : Packet} {buf bs rest : Bytes} {cur lim h n : Nat} (wf : q.wf = true)
    (fits : (q.regs b).fits b.listCap = true) (enc : bodyEnc b q.tag (q.regs b) = .ok bs)
    (stands : buf.drop cur = bs ++ rest) (whole : lim = cur + bs.length) :
    bodyDec b q.tag buf cur lim q.qos (shadowOf b.typeCode ⟨q.tag, ⟨q.dup, q.qos, q.retain⟩, h, n⟩) =
      .ok (lim, q.canon.regs b) := by
  obtain ⟨t, d, qos, r, body⟩ := q
  obtain ⟨-, -, -, -, -, -, -, -, subs, granted, topics⟩ := pkt_fits_iff.1 fits
  cases t <;> cases body <;> simp only [Packet.wf, Bool.and_false, Bool.false_eq_true] at wf
  case connect.connect => exact bdConnect_of_beConnect wf enc stands whole
  case publish.publish topic m pl => exact bdPublish_of_bePublish wf enc stands whole
  case connack.connack rc =>
    cases enc
    rw [List.append_assoc] at stands
    rw [List.length_append, ← Nat.add_assoc] at whole
    exact whole ▸ bdConnack_at List.length_replicate stands (Nat.le_refl _)
  case subscribe.subscribe m l =>
    obtain ⟨entries, hl, enc⟩ := except_bind_ok.1 ((beSubscribe_of_regs rfl rfl).symm.trans enc)
    cases enc
    obtain ⟨texts, rfl⟩ := encSubs_ok hl
    simp only [Packet.regs, Option.all_some, Bool.and_eq_true] at subs
    rw [List.append_assoc, wireWord_eq] at stands
    rw [List.length_append, wireWord_length, ← Nat.add_assoc] at whole
    have list := decSubs_at (acc := []) texts (by simpa using subs.1) (drop_add_of_drop stands) whole.symm (Nat.le_refl _)
    rw [bodyDec, bdSubscribe_of_id stands (by omega), ← encWord_length m, list]
    rfl
  case suback.suback m l =>
    cases (beSuback_of_regs rfl rfl).symm.trans enc
    simp only [Packet.regs, Option.all_some] at granted
    rw [List.append_assoc, wireWord_eq] at stands
    rw [List.length_append, wireWord_length, ← Nat.add_assoc] at whole
    have list := decGranted_at (acc := []) (by simpa using granted) (drop_add_of_drop stands) whole.symm (Nat.le_refl _)
    rw [bodyDec, bdSuback_of_id stands (by omega), ← encWord_length m, list]
    rfl
  case unsubscribe.unsubscribe m l =>
    obtain ⟨entries, hl, enc⟩ := except_bind_ok.1 ((beUnsubscribe_of_regs rfl rfl).symm.trans enc)
    cases enc
    obtain ⟨texts, rfl⟩ := encTopics_ok hl
    simp only [Packet.regs, Option.all_some, Bool.and_eq_true] at topics
    rw [List.append_assoc, wireWord_eq] at stands
    rw [List.length_append, wireWord_length, ← Nat.add_assoc] at whole
    have list := decTopics_at (acc := []) texts (by simpa using topics.1) (drop_add_of_drop stands) whole.symm (Nat.le_refl _)
    rw [bodyDec, bdUnsubscribe_of_id stands (by omega), ← encWord_length m, list]
    rfl
  case pingreq.empty | pingresp.empty | disconnect.empty =>
    cases enc
    cases whole
    rfl
  all_goals
    cases enc
    rw [encWord_length] at whole
    exact whole ▸ decMsgId_at stands (Nat.le_refl _)

/-- The header of an image is read back in either mode: its field is minimal, so never overlong (R124, R131, R132). -/
theorem fhDec_of_image {tc : List Tag} (table : typeCodeWf tc = true) (strict : Bool) (t : Tag) {fl : Hdr} (legal : fl.qos ≠ 3)
    {body : Bytes} (size : body.length ≤ rlMax) :
    fhDec tc strict (headerByte (lookupCode tc t) fl :: (rlDigits 3 body.length ++ body)) =
      .ok ⟨t, fl, 1 + (rlDigits 3 body.length).length, body.length⟩ := by
  obtain ⟨-, ends, value, short, -⟩ := rlEnc_spec (rlEnc_ok size)
  have header := fhDec_at (strict := strict) (b0 := headerByte (lookupCode tc t) fl) rfl
    (by rw [headerCode_headerByte]; exact lookupTag_lookupCode table t) (by rwa [headerFlags_headerByte]) ends short value.le
  rwa [headerFlags_headerByte, value] at header

/-- Decode after encode on the registers of a well-formed Packet: the registers of `canon`, and the whole image is consumed (R194). -/
theorem decodePacket_of_encodePacket {b : Build} {q : Packet} {im : Bytes} (lawful : b.wf = true) (wf : q.wf = true)
    (fits : (q.regs b).fits b.listCap = true) (enc : encodePacket b (q.regs b) = .ok im) (strict : Bool) :
    decodePacket b strict im = .ok (q.canon.regs b, im.length) := by
  obtain ⟨table, -⟩ := build_wf_iff.1 lawful
  have held := packetOf_regs lawful wf
  obtain ⟨-, -, -, -, legal, -⟩ := packetOf_iff.1 held
  obtain ⟨dup, qos, retain⟩ := regs_flags b q
  rw [encodePacket_of_packetOf held] at enc
  obtain ⟨body, benc, size, -, rfl⟩ := encodeChecked_ok enc
  rw [dup, qos, retain]
  rw [qos] at legal
  rw [decodePacket, fhDec_of_image table strict q.tag legal size, except_ok_bind]
  dsimp only
  rw [bodyDec_of_bodyEnc wf fits benc (rest := []) (by rw [Nat.add_comm, List.drop_succ_cons, List.drop_left, List.append_nil]) rfl]
  simp only [except_ok_bind, except_pure, List.length_cons, List.length_append]
  congr 2
  omega

/-- Settles O51: the register file holds a well-formed Packet, and encode depends on that Packet alone. -/
theorem decodeAfterEncodeIsCanon : Obligations.DecodeAfterEncodeIsCanon := by
  intro b p im strict lawful fits enc
  obtain ⟨q, held, wf, enc'⟩ := encodePacket_packet lawful enc
  have dec := decodePacket_of_encodePacket lawful wf (regs_fits_of_packetOf held fits) enc' strict
  exact ⟨q, held, by simp only [decodedPacket, dec, packetOf_regs lawful (canon_wf wf), Option.map_some]⟩

/-! ### Encoding again what was decoded (R195) -/

theorem nonEmpty_dropEmpty (o : Option Text) : nonEmpty (dropEmpty o) = nonEmpty o := by
  rcases o with _ | _ | ⟨x, t⟩ <;> rfl

theorem getD_dropEmpty (o : Option Text) : (dropEmpty o).getD [] = o.getD [] := by
  rcases o with _ | _ | ⟨x, t⟩ <;> rfl

/-- An empty username or password is not sent (R142). -/
theorem bodyEnc_canon {b : Build} {q : Packet} (wf : q.wf = true) :
    bodyEnc b q.tag (q.canon.regs b) = bodyEnc b q.tag (q.regs b) := by
  have wf' := canon_wf wf
  obtain ⟨t, d, qos, r, body⟩ := q
  cases body with
  | connect name ver cs ka cid will un pw =>
    cases t <;> simp only [Packet.wf, Bool.and_false, Bool.false_eq_true] at wf
    simp only [bodyEnc, beConnect_regs wf]
    simp only [Packet.canon, beConnect_regs wf', connectFlags, nonEmpty_dropEmpty, getD_dropEmpty]
  | _ => rfl

/-- A Packet and its `canon` have one image. -/
theorem encodePacket_canon {b : Build} {q : Packet} (lawful : b.wf = true) (wf : q.wf = true) :
    encodePacket b (q.canon.regs b) = encodePacket b (q.regs b) := by
  have flags : q.canon.dup = q.dup ∧ q.canon.qos = q.qos ∧ q.canon.retain = q.retain := by
    obtain ⟨t, d, qos, r, body⟩ := q
    cases body <;> exact ⟨rfl, rfl, rfl⟩
  obtain ⟨dup, qos, retain⟩ := regs_flags b q
  obtain ⟨dup', qos', retain'⟩ := regs_flags b q.canon
  obtain ⟨d, qq, r⟩ := flags
  rw [encodePacket_of_packetOf (packetOf_regs lawful wf), encodePacket_of_packetOf (packetOf_regs lawful (canon_wf wf)), canon_tag]
  exact encodeChecked_congr (bodyEnc_canon wf) (by rw [dup', d, dup]) (by rw [qos', qq, qos]) (by rw [retain', r, retain])

theorem encodeChecked_of_body {b : Build} {t : Tag} {p : Pkt} {body : Bytes} (enc : bodyEnc b t p = .ok body)
    (size : body.length ≤ rlMax) (room : 1 + (rlDigits 3 body.length).length + body.length ≤ b.obCap) :
    encodeChecked b t p =
      .ok (headerByte (lookupCode b.typeCode t) ⟨p.dup, p.qos, p.retain⟩ :: (rlDigits 3 body.length ++ body)) := by
  rw [encodeChecked, enc, except_ok_bind, if_neg (by omega), fhEnc_of_le size, except_ok_bind, if_neg]
  simp only [List.length_cons, List.length_append]
  omega

section
variable {b : Build} {strict : Bool} {buf : Bytes} {hd : Header} {cur : Nat} {p : Pkt}

/-- A decoded packet is encoded again: the header byte is the one read, and neither the field nor the body grows (R195). -/
theorem encodePacket_of_decode (lawful : b.wf = true) (header : fhDec b.typeCode strict buf = .ok hd)
    (body : bodyDec b hd.tag buf hd.h (hd.h + hd.n) hd.flags.qos (shadowOf b.typeCode hd) = .ok (cur, p))
    (room : hd.h + hd.n ≤ b.obCap) :
    ∃ bs, bodyEnc b hd.tag p = .ok bs ∧ hd.h + bs.length ≤ cur ∧ cur ≤ hd.h + hd.n ∧
      1 + (rlDigits 3 bs.length).length ≤ hd.h ∧
      encodePacket b p = .ok (byteAt buf 0 :: (rlDigits 3 bs.length ++ bs)) := by
  obtain ⟨table, -⟩ := build_wf_iff.1 lawful
  obtain ⟨-, -, small, inside⟩ := fhDec_bounds header
  obtain ⟨b0, f, r, rfl, tag, flags, legal, h, n, -, nonempty, -⟩ := fhDec_ok header
  obtain ⟨fields, le, wf, rfl, -, bs, enc, fit⟩ := bodyDec_ok inside (Nat.le_add_right _ _) legal (by omega) body
  have size : bs.length ≤ rlMax := by omega
  obtain ⟨-, -, -, -, -, shortest⟩ := rlEnc_spec (rlEnc_ok size)
  have field : (rlDigits 3 bs.length).length ≤ f.length :=
    shortest _ (List.length_pos_of_ne_nil nonempty) (Nat.lt_of_le_of_lt (by omega) (rlValue_lt f))
  refine ⟨bs, enc, fit, le, by omega, ?_⟩
  obtain ⟨dup, qos, retain⟩ := regs_flags b ⟨hd.tag, hd.flags.dup, hd.flags.qos, hd.flags.retain, fields⟩
  rw [encodePacket_of_packetOf (packetOf_regs lawful wf), encodeChecked_of_body enc size (by omega), dup, qos, retain,
    lookupCode_of_lookupTag table tag]
  have byte : headerByte (headerCode b0) hd.flags = b0 := flags ▸ headerByte_of_halves b0
  rw [byte]
  rfl

end

/-! ### Canonical bytes (R197) -/

/-- The last byte of the remaining-length field, where (a) of R197 looks for it. -/
theorem byteAt_field_last {b0 : Byte} {f r : Bytes} (nonempty : f ≠ []) :
    byteAt (b0 :: (f ++ r)) (1 + f.length - 1) = f.getD (f.length - 1) 0 := by
  have := List.length_pos_of_ne_nil nonempty
  rw [show 1 + f.length - 1 = 1 + (f.length - 1) by omega]
  exact byteAt_of_drop_append (f := f) (r := r) rfl (by omega)

/-- A field is the one written for its value iff it ends within its bytes and its last byte is needed: (a) of R197. -/
theorem rlDigits_rlValue_iff {f : Bytes} (nonempty : f ≠ []) (size : f.length ≤ 4) (field : rlEnds f = true ∨ allContinue f = true) :
    rlDigits 3 (rlValue f) = f ↔
      (f.getD (f.length - 1) 0).toNat < 128 ∧ (1 + f.length = 2 ∨ f.getD (f.length - 1) 0 ≠ 0) := by
  have small := rlValue_le f size
  have one : 1 + f.length = 2 ↔ f.length = 1 := by omega
  rw [one]
  rcases field with ends | continues
  · obtain ⟨last, -⟩ := rlEnds_last ends
    rw [and_iff_right last, ← rlEnc_rlValue_iff ends size, rlEnc_ok small, Except.ok.injEq]
  · have last := allContinue_last continues nonempty
    refine ⟨fun same => absurd ?_ (rlEnc_ne_of_allContinue (x := rlValue f) continues nonempty), fun h => absurd h.1 (by omega)⟩
    rw [rlEnc_ok small, same]

section
variable {b : Build} {strict : Bool} {bs : Bytes}

/-- Bytes in the form of R197 decode whole, and the encode of what they decode to gives them back. -/
theorem CanonicalForm.encodes (lawful : b.wf = true) (room : bs.length ≤ b.obCap) (form : CanonicalForm b strict bs) :
    ∃ p, decodePacket b strict bs = .ok (p, bs.length) ∧ encodePacket b p = .ok bs := by
  obtain ⟨hd, cur, p, header, body, minimal, flags, rfl, whole, reserved⟩ := form
  refine ⟨p, by rw [decodePacket, header, except_ok_bind, body, whole]; rfl, ?_⟩
  obtain ⟨bs', enc, -, -, -, enc'⟩ := encodePacket_of_decode lawful header body (whole ▸ room)
  have again := (bodyDec_canonical whole.ge (Nat.le_add_right _ _) body enc).2 ⟨flags, reserved⟩
  rw [Nat.add_sub_cancel_left] at again
  obtain ⟨b0, f, r, rfl, -, -, -, h, n, -, nonempty, size, field⟩ := fhDec_ok header
  rw [h, byteAt_field_last nonempty] at minimal
  have digits := (rlDigits_rlValue_iff nonempty size (field.imp_right fun h => h.1)).2 minimal
  have rest : bs' = r := by
    have stands : (b0 :: (f ++ r)).drop hd.h = r ++ [] := by
      rw [h, Nat.add_comm, List.drop_succ_cons, List.drop_left, List.append_nil]
    have length : r.length = hd.n := by
      simp only [List.length_cons, List.length_append] at whole
      omega
    rw [again, ← length, slice_of_drop stands]
  have length : bs'.length = rlValue f := by
    rw [again, slice_length whole.ge, n]
  rw [enc', length, digits, rest]
  rfl

/-- Bytes that the encode of what they decode to gives back have the form of R197. -/
theorem canonicalForm_of_encodes {p : Pkt} {n : Nat} (lawful : b.wf = true) (dec : decodePacket b strict bs = .ok (p, n))
    (enc : encodePacket b p = .ok bs) : CanonicalForm b strict bs := by
  obtain ⟨hd, cur, header, body, rfl, inside⟩ := decodePacket_ok dec
  obtain ⟨room, -⟩ := encodePacket_length enc
  obtain ⟨bs', benc, low, high, field, enc'⟩ := encodePacket_of_decode lawful header body (inside.trans room)
  have image := Except.ok.inj (enc.symm.trans enc')
  have length := congrArg List.length image
  simp only [List.length_cons, List.length_append] at length
  obtain rfl : cur = hd.h + hd.n := by omega
  have whole : bs.length = hd.h + hd.n := by omega
  obtain ⟨b0, f, r, split, -, -, -, h, n, -, nonempty, size, ends⟩ := fhDec_ok header
  obtain ⟨digits, rest⟩ := List.append_inj (List.cons.inj (split.symm.trans image)).2 (by omega)
  have value : bs'.length = rlValue f := by omega
  have minimal := (rlDigits_rlValue_iff nonempty size (ends.imp_right fun h => h.1)).1 (by rw [← value, digits])
  have stands : bs.drop hd.h = bs' ++ [] := by
    rw [split, h, Nat.add_comm, List.drop_succ_cons, List.drop_left, List.append_nil, rest]
  obtain ⟨flags, reserved⟩ := (bodyDec_canonical inside (Nat.le_add_right _ _) body benc).1
    (by rw [show hd.h + hd.n - hd.h = bs'.length by omega, slice_of_drop stands])
  refine ⟨hd, _, p, header, body, ?_, flags, rfl, whole, reserved⟩
  rw [h, split, byteAt_field_last nonempty]
  exact minimal

/-- Canonical bytes are those that the encode of what they decode to gives back. -/
theorem canonical_iff (lawful : b.wf = true) :
    Canonical b bs ↔ ∃ p, decodePacket b strict bs = .ok (p, bs.length) ∧ encodePacket b p = .ok bs := by
  constructor
  · rintro ⟨q, wf, fits, enc⟩
    exact ⟨_, decodePacket_of_encodePacket lawful wf fits enc strict, (encodePacket_canon lawful wf).trans enc⟩
  · rintro ⟨p, dec, enc⟩
    obtain ⟨q, wf, rfl, fits⟩ := decodePacket_regs dec
    exact ⟨q, wf, fits, enc⟩

end

/-- Settles O52: a decoded packet is a well-formed one, its image is no longer than the bytes read, and it is those bytes iff the form of R197 holds. -/
theorem encodeAfterDecodeSucceeds : Obligations.EncodeAfterDecodeSucceeds := by
  refine fun b strict lawful => ⟨fun strict' buf p n dec room => ⟨?_, ?_⟩, fun bs room => ?_⟩
  · obtain ⟨hd, cur, header, body, rfl, -⟩ := decodePacket_ok dec
    obtain ⟨bs, -, low, high, field, enc⟩ := encodePacket_of_decode lawful header body room
    obtain ⟨q, wf, rfl, fits⟩ := decodePacket_regs dec
    have again := decodePacket_of_encodePacket lawful wf fits enc strict'
    refine ⟨q, _, packetOf_regs lawful wf, enc, ?_, ?_⟩
    · simp only [List.length_cons, List.length_append]
      omega
    · simp only [decodedPacket, again, packetOf_regs lawful (canon_wf wf), Option.map_some]
  · have taken := decodePacket_take (buf' := buf.take n) dec (by rw [List.take_take, Nat.min_self])
    obtain ⟨hd, cur, -, -, -, inside⟩ := decodePacket_ok dec
    rw [canonical_iff (strict := strict) lawful, taken]
    constructor
    · exact fun enc => ⟨p, by rw [List.length_take_of_le inside], enc⟩
    · rintro ⟨p', same, enc⟩
      obtain ⟨rfl, -⟩ := Prod.mk.inj (Except.ok.inj same)
      exact enc
  · rw [canonical_iff (strict := strict) lawful]
    exact ⟨fun ⟨_, dec, enc⟩ => canonicalForm_of_encodes lawful dec enc, fun form => form.encodes lawful room⟩

/-! ### A command as one update of the state (R193) -/

/-- A length or a position of at most `IB_LEN` is held in an offset register. -/
theorem offset_ofNat_of_le {n : Nat} {len : Offset} (h : n ≤ len.toNat) : (BitVec.ofNat 29 n).toNat = n :=
  Nat.mod_eq_of_lt (Nat.lt_of_le_of_lt h len.isLt)

theorem exec_encode_ok {s : State} {im : Bytes} (idle : s.busy = false) (enc : encodePacket s.build s.pkt = .ok im) :
    exec .encode s = .next (s.commitEncode im) := by
  simp [exec, execEncode, idle, State.runEncode, enc]

/-- Settles O42: the commit or the error entry, whose offsets do not exceed `IB_LEN` and so do not wrap. -/
theorem decodeCommitsOrEntersError : Obligations.DecodeCommitsOrEntersError := by
  refine fun s idle cap => ⟨fun p n dec => ?_, fun e fails => ?_⟩
  · obtain ⟨hd, cur, -, -, -, inside⟩ := decodePacket_ok dec
    rw [State.input_length] at inside
    exact ⟨inside, _, offset_ofNat_of_le inside, exec_decode_ok idle cap dec⟩
  · have inside := decodePacket_error fails
    rw [State.input_length] at inside
    exact ⟨inside, _, offset_ofNat_of_le inside, execDecode_error idle cap fails⟩

/-- Settles O47: an image fits the output buffer and its length register, and no error is a read of an invalid register. -/
theorem encodeCommitsOrEntersError : Obligations.EncodeCommitsOrEntersError := by
  refine fun s idle lawful canonical => ⟨fun im enc => ?_, fun e stops => ?_⟩
  · obtain ⟨room, small⟩ := encodePacket_length enc
    have length : (s.commitEncode im).obLen.toNat = im.length := offset_ofNat_toNat small
    refine ⟨_, exec_encode_ok idle enc, rfl, length, ?_, fun a beyond => ?_⟩
    · rw [State.output, length]
      exact Mem.readBytes_writeBytes canonical 0 im (by omega)
    · rw [State.commitEncode_ob, Mem.read_writeBytes canonical 0 im (by omega), if_neg (by omega)]
  · cases e with
    | raise k => exact ⟨k, rfl, execEncode_error idle stops⟩
    | invalidRegister => exact absurd stops (encodePacket_not_invalid _ _)

theorem Mem.readBytes_take (m : Mem) (a : Nat) {n k : Nat} (h : n ≤ k) : (m.readBytes a k).take n = m.readBytes a n := by
  induction n generalizing a k with
  | zero => rfl
  | succ n ih =>
    obtain ⟨k, rfl⟩ := Nat.exists_eq_add_of_lt h
    simp [Mem.readBytes, ih]

/-- Settles O45: the two inputs begin with the same packet, and a decode that answers reads no more. -/
theorem decodeReadsOnlyThePacket : Obligations.DecodeReadsOnlyThePacket := by
  intro s t s' idle idle' build cfg run success cap' room same
  rcases execDecode_cases s with ⟨busy, -⟩ | ⟨-, -, fault⟩ | ⟨-, -, ⟨p, n, dec, next⟩ | ⟨e, -, next⟩⟩
  · rw [idle] at busy
    cases busy
  · cases fault.symm.trans run
  · cases next.symm.trans run
    obtain ⟨hd, cur, -, -, -, inside⟩ := decodePacket_ok dec
    rw [State.input_length] at inside
    have consumed : (s.commitDecode p n).consumed.toNat = n := offset_ofNat_of_le inside
    rw [consumed] at room same
    have packet : s.input.take n = s'.input.take n := by
      rw [State.input, State.input, Mem.readBytes_take _ _ inside, Mem.readBytes_take _ _ room]
      exact Mem.readBytes_congr _ _ _ _ fun i hi => by simpa using same i hi
    have dec' : decodePacket s'.build s'.strict s'.input = .ok (p, n) := by
      rw [← build, State.strict, ← cfg]
      exact decodePacket_take dec packet
    exact ⟨_, exec_decode_ok idle' cap' dec', State.commitDecode_err s' p n, rfl, rfl⟩
  · cases next.symm.trans run
    rw [State.enterError_err] at success
    cases success

/-! ### A command as its internal operations run one after the other (R86, R190, R191) -/

theorem exec_fhDec_error {s : State} {e : Err} (cap : s.ibLen.toNat ≤ s.build.ibCap)
    (header : fhDec s.build.typeCode s.strict s.input = .error e) : exec .fhDec s = .next (s.enterError true e) := by
  rw [exec, execFhDec]
  exact State.decStep_error (State.inputOk_iff.2 ⟨le_rfl, cap⟩) (by simp only [header, except_error_bind])

/-- Settles O44: the header decoder and the body decoder read the same input as the command, and each error is the command's. -/
theorem decodeIsHeaderThenBodyThenCommit : Obligations.DecodeIsHeaderThenBodyThenCommit := by
  intro s idle cap
  cases header : fhDec s.build.typeCode s.strict s.input with
  | error e =>
    have fails : decodePacket s.build s.strict s.input = .error e := by rw [decodePacket, header, except_error_bind]
    refine ⟨_, exec_fhDec_error cap header, fun _ => execDecode_error idle cap fails, fun w hd running => ?_⟩
    cases running
  | ok hd =>
    refine ⟨_, exec_fhDec_ok cap header, nofun, fun w hd' running result => ?_⟩
    cases running
    cases result
    obtain ⟨-, -, -, inside⟩ := fhDec_bounds header
    rw [State.input_length] at inside
    have within : s.inputOk (hd.h + hd.n) = true := State.inputOk_iff.2 ⟨inside, cap⟩
    rw [exec_bdOf]
    cases body : bodyDec s.build hd.tag s.input hd.h (hd.h + hd.n) hd.flags.qos (shadowOf s.build.typeCode hd) with
    | error e =>
      have fails : decodePacket s.build s.strict s.input = .error e := by
        rw [decodePacket, header, except_ok_bind, body, except_error_bind]
      exact ⟨_, State.bodyStep_error within body, fun _ => execDecode_error idle cap fails, fun _ running => absurd running (by simp)⟩
    | ok after =>
      have dec : decodePacket s.build s.strict s.input = .ok (after.2, hd.h + hd.n) := by
        rw [decodePacket, header, except_ok_bind, body, except_ok_bind]
        rfl
      refine ⟨_, State.bodyStep_ok within body, nofun, fun x running => ?_⟩
      cases running
      exact exec_decode_ok idle cap dec

/-- Settles O49: the required-field check has passed, so the body encoder reads valid registers only, and each error is the command's. -/
theorem encodeIsCheckThenBodyThenHeaderThenCommit : Obligations.EncodeIsCheckThenBodyThenHeaderThenCommit := by
  intro s c t idle fresh code tag legal req
  have whole := encodePacket_eq code tag legal req
  refine ⟨(exec_reqCheck_of_iff Iff.rfl).1 req, ?_⟩
  rw [exec_beOf]
  cases benc : bodyEnc s.build t s.pkt with
  | error stop =>
    cases stop with
    | invalidRegister => exact absurd benc (bodyEnc_not_invalid req)
    | raise k =>
      have stops : encodePacket s.build s.pkt = .error (.raise k) := by
        rw [whole, encodeChecked, benc, except_error_bind]
      exact ⟨_, State.imageStep_raise benc, fun _ => execEncode_error idle stops, fun _ running => absurd running (by simp)⟩
  | ok body =>
    refine ⟨_, State.imageStep_ok benc, nofun, fun w running => ?_⟩
    cases running
    rw [State.working_none s fresh]
    by_cases large : rlMax < body.length
    · have stops : encodePacket s.build s.pkt = .error (.raise .lengthOutOfRange) := by
        rw [whole, encodeChecked, benc, except_ok_bind, if_pos large]
      exact ⟨_, exec_fhEnc_raise (fhEnc_raise large), fun _ => execEncode_error idle stops, fun _ running => absurd running (by simp)⟩
    · have size : body.length ≤ rlMax := Nat.le_of_not_lt large
      have header := fhEnc_of_le (tc := s.build.typeCode) (t := t) (fl := ⟨s.pkt.dup, s.pkt.qos, s.pkt.retain⟩) size
      refine ⟨_, exec_fhEnc_ok header, nofun, fun x running room => ?_⟩
      cases running
      simp only [List.length_cons, List.length_append] at room
      exact exec_encode_ok idle (whole.trans (encodeChecked_of_body benc size (by omega)))

end Sys2Proof.Machine

/-! PROOFS. Exceptions: the tests of each command in their order, the entry of an error, and that an earlier error leaves no trace (R131, R191, R201, R202, R209 to R212). -/

namespace Sys2Proof.Machine

/-! ### The tests of the fixed header, each behind the ones before it (R131, R209) -/

section
variable {tc : List Tag} {strict : Bool} {buf : Bytes} {t : Tag}

theorem fhDec_of_empty (empty : buf.length = 0) : fhDec tc strict buf = .error ⟨.truncatedInput, 0⟩ := by
  rw [fhDec, if_pos (by omega)]

theorem fhDec_of_untagged (nonempty : buf.length ≠ 0) (untagged : lookupTag tc (headerCode (byteAt buf 0)) = none) :
    fhDec tc strict buf = .error ⟨.unknownPacketType, 0⟩ := by
  rw [fhDec, if_neg (by omega)]
  simp only [untagged]

theorem fhDec_of_reservedQoS (nonempty : buf.length ≠ 0) (found : lookupTag tc (headerCode (byteAt buf 0)) = some t)
    (reserved : (headerFlags (byteAt buf 0)).qos = 3) : fhDec tc strict buf = .error ⟨.reservedQoS, 0⟩ := by
  rw [fhDec, if_neg (by omega)]
  simp only [found, reserved, if_true]

theorem fhDec_of_rlDec_error {e : Err} (nonempty : buf.length ≠ 0)
    (found : lookupTag tc (headerCode (byteAt buf 0)) = some t) (legal : (headerFlags (byteAt buf 0)).qos ≠ 3)
    (field : rlDec buf 1 buf.length strict = .error e) : fhDec tc strict buf = .error e := by
  rw [fhDec, if_neg (by omega)]
  simp only [found, legal, if_false, field]

theorem fhDec_of_short_body {cur acc mult count : Nat} (nonempty : buf.length ≠ 0)
    (found : lookupTag tc (headerCode (byteAt buf 0)) = some t) (legal : (headerFlags (byteAt buf 0)).qos ≠ 3)
    (field : rlDec buf 1 buf.length strict = .ok ⟨cur, acc, mult, count⟩) (short : buf.length - cur < acc) :
    fhDec tc strict buf = .error ⟨.truncatedInput, cur⟩ := by
  rw [fhDec, if_neg (by omega)]
  simp only [found, legal, if_false, field, short, if_true]

end

/-- An error of the header is the error of the DECODE (R190). -/
theorem exec_decode_of_fhDec_error {s : State} {e : Err} (idle : s.busy = false) (cap : s.ibLen.toNat ≤ s.build.ibCap)
    (header : fhDec s.build.typeCode s.strict s.input = .error e) : exec .decode s = .next (s.enterError true e) :=
  execDecode_error idle cap (by rw [decodePacket, header, except_error_bind])

/-- Settles O43: each test of `FH_DEC` is reached once the ones before it are passed; the field is read where it stands in `IB`. -/
theorem decodeHeaderErrorsInOrder : Obligations.DecodeHeaderErrorsInOrder := by
  intro s idle cap
  have raises {e : Err} := exec_decode_of_fhDec_error (e := e) idle cap
  have length := s.input_length
  have nonempty (filled : s.ibLen ≠ 0) : s.input.length ≠ 0 := fun empty => filled (BitVec.eq_of_toNat_eq (length ▸ empty))
  have first (nonempty : s.input.length ≠ 0) : byteAt s.input 0 = s.ib.read 0 := s.byteAt_input 0 (by omega)
  refine ⟨fun empty => raises (fhDec_of_empty (by rw [length, empty]; rfl)), fun filled untagged => ?untagged,
    fun filled tagged reserved => ?reserved, fun f tagged legal continues stands => ?unended,
    fun f tagged legal ends size stands room short => ?ended⟩
  case untagged =>
    rw [← first (nonempty filled)] at untagged
    exact raises (fhDec_of_untagged (nonempty filled) untagged)
  case reserved =>
    obtain ⟨t, found⟩ := Option.ne_none_iff_exists'.1 tagged
    rw [← first (nonempty filled)] at found reserved
    exact raises (fhDec_of_reservedQoS (nonempty filled) found reserved)
  case unended =>
    obtain ⟨t, found⟩ := Option.ne_none_iff_exists'.1 tagged
    refine ⟨fun size cut => ?cut, fun size room strict => ?strict, fun size room lax short => ?lax⟩
    all_goals
      have nonempty : s.input.length ≠ 0 := by omega
      have field := State.input_drop_of_holds stands (by omega)
      rw [← first nonempty] at found legal
    case cut => exact raises (fhDec_of_rlDec_error nonempty found legal (rlDec_cut continues size field (by omega)))
    all_goals have read := rlDec_overlong (strict := s.strict) (lim := s.input.length) continues size field (by omega)
    case strict => exact raises (fhDec_of_rlDec_error nonempty found legal (read.trans (if_pos strict)))
    case lax => exact raises (fhDec_of_short_body nonempty found legal (read.trans (if_neg (by simp [lax]))) (by omega))
  case ended =>
    obtain ⟨t, found⟩ := Option.ne_none_iff_exists'.1 tagged
    have nonempty : s.input.length ≠ 0 := by omega
    have field := State.input_drop_of_holds stands room
    rw [← first nonempty] at found legal
    exact raises (fhDec_of_short_body nonempty found legal (rlDec_ends ends size field (by omega)) (by omega))

/-! ### The tests of an encode, each behind the ones before it (R191, R209) -/

section
variable {b : Build} {p : Pkt} {c : BitVec 4} {t : Tag} {body : Bytes}

theorem encodePacket_untagged (code : p.ptype = some c) (untagged : lookupTag b.typeCode c = none) :
    encodePacket b p = .error (.raise .unknownPacketType) := by
  simp only [encodePacket, code, untagged]

theorem encodePacket_reservedQoS (code : p.ptype = some c) (tag : lookupTag b.typeCode c = some t) (reserved : p.qos = 3) :
    encodePacket b p = .error (.raise .reservedQoS) := by
  simp only [encodePacket, code, tag, reserved, if_true]

theorem encodePacket_unchecked (code : p.ptype = some c) (tag : lookupTag b.typeCode c = some t) (legal : p.qos ≠ 3)
    (missing : reqOk t p = false) : encodePacket b p = .error (.raise .missingRequiredField) := by
  simp only [encodePacket, code, tag, legal, if_false, reqCheck, missing, Bool.false_eq_true, except_error_bind]

theorem encodeChecked_of_body_raises {k : ErrKind} (raises : bodyEnc b t p = .error (.raise k)) :
    encodeChecked b t p = .error (.raise k) := by
  rw [encodeChecked, raises, except_error_bind]

theorem encodeChecked_of_large_body (enc : bodyEnc b t p = .ok body) (large : rlMax < body.length) :
    encodeChecked b t p = .error (.raise .lengthOutOfRange) := by
  rw [encodeChecked, enc, except_ok_bind, if_pos large]

theorem encodeChecked_of_large_image {im : Bytes} (enc : bodyEnc b t p = .ok body) (size : body.length ≤ rlMax)
    (header : fhEnc b.typeCode t ⟨p.dup, p.qos, p.retain⟩ body = .ok im) (large : b.obCap < im.length) :
    encodeChecked b t p = .error (.raise .capacityExceeded) := by
  rw [encodeChecked, enc, except_ok_bind, if_neg (by omega), header, except_ok_bind, if_pos large]

end

/-- A body encoder that ends without a working state has raised, and its raise names the body's error. -/
theorem bodyEnc_raise_of_exec_beOf {s u : State} {t : Tag} {h : Hdr} (run : exec (beOf t h) s = .next u) (gone : u.work = none) :
    ∃ k, bodyEnc s.build t s.pkt = .error (.raise k) ∧ u = s.enterError false ⟨k, 0⟩ := by
  rw [exec_beOf] at run
  cases benc : bodyEnc s.build t s.pkt with
  | ok body =>
    cases (State.imageStep_ok benc).symm.trans run
    cases gone
  | error stop =>
    cases stop with
    | invalidRegister => cases (State.imageStep_refused benc).symm.trans run
    | raise k =>
      cases (State.imageStep_raise benc).symm.trans run
      exact ⟨k, rfl, rfl⟩

/-- Settles O48: each test of `encode` is reached once the ones before it are passed. Two kinds may share a number in a build, so
the body's error is carried over as the state it enters. -/
theorem encodeErrorsInOrder : Obligations.EncodeErrorsInOrder := by
  intro s idle
  have raises {k : ErrKind} := execEncode_error (k := k) idle
  refine ⟨fun untyped => raises (encodePacket_untyped untyped), fun c code untagged => raises (encodePacket_untagged code untagged),
    fun c t code tag => ⟨fun reserved => raises (encodePacket_reservedQoS code tag reserved),
      fun legal missing => raises (encodePacket_unchecked code tag legal missing), fun k h legal req run => ?body,
      fun body legal req enc large => ?length, fun body im legal req enc header large size => ?capacity⟩⟩
  case body =>
    obtain ⟨k', refused, entered⟩ := bodyEnc_raise_of_exec_beOf run (State.enterError_work s false ⟨k, 0⟩)
    rw [entered]
    exact raises ((encodePacket_eq code tag legal req).trans (encodeChecked_of_body_raises refused))
  case length => exact raises ((encodePacket_eq code tag legal req).trans (encodeChecked_of_large_body enc large))
  case capacity => exact raises ((encodePacket_eq code tag legal req).trans (encodeChecked_of_large_image enc size header large))

/-! ### The entry of an error (R202, R210) and what it leaves for the next command (R212) -/

/-- Settles O23: both rows take the one error entry, whatever the header's flags. -/
theorem invalidTypeRaisesUnknownPacketType : Obligations.InvalidTypeRaisesUnknownPacketType := by
  intro s h i row
  have entered : s.enterError true ⟨.unknownPacketType, 0⟩ = { s with
      status := 0b110, errcode := s.build.errNumbers.unknownPacketType, errpos := 0, work := none } := rfl
  rw [← entered]
  simp only [List.mem_cons, List.not_mem_nil, or_false] at row
  rcases row with rfl | rfl <;> rfl

/-- A DECODE reads `IB` and the build, and its end writes over what an earlier command left (R193, R210, R212). -/
theorem exec_decode_of_leftover {s : State} {st : BitVec 3} (ec : BitVec 4) (ep : Offset) (w : Option Work) (idle : s.busy = false)
    (idle' : st.getLsbD 0 = false) : exec .decode { s with status := st, errcode := ec, errpos := ep, work := w } = exec .decode s := by
  have started : ({ s with status := st, errcode := ec, errpos := ep, work := w } : State).busy = false := idle'
  rcases execDecode_cases s with ⟨busy, -⟩ | ⟨-, long, fault⟩ | ⟨-, cap, ⟨p, n, packet, next⟩ | ⟨e, fails, next⟩⟩
  · exact absurd busy (by simp [idle])
  · exact (exec_decode_fault (by exact long) started).trans fault.symm
  · exact (exec_decode_ok started cap packet).trans next.symm
  · exact (execDecode_error started cap fails).trans next.symm

/-- An ENCODE reads `PKT` and the build, and its end writes over what an earlier command left (R193, R210, R212). -/
theorem exec_encode_of_leftover {s : State} {st : BitVec 3} (ec : BitVec 4) (ep : Offset) (w : Option Work) (idle : s.busy = false)
    (idle' : st.getLsbD 0 = false) : exec .encode { s with status := st, errcode := ec, errpos := ep, work := w } = exec .encode s := by
  have started : ({ s with status := st, errcode := ec, errpos := ep, work := w } : State).busy = false := idle'
  rcases execEncode_cases s with ⟨busy, -⟩ | ⟨-, ⟨im, enc, next⟩ | ⟨k, stops, next⟩⟩
  · exact absurd busy (by simp [idle])
  · exact (exec_encode_ok started enc).trans next.symm
  · exact (execEncode_error started stops).trans next.symm

/-- Settles O53: neither command reads what an earlier one left. -/
theorem earlierErrorsLeaveNoTrace : Obligations.EarlierErrorsLeaveNoTrace := by
  intro s st ec ep w idle idle' i row
  simp only [List.mem_cons, List.not_mem_nil, or_false] at row
  rcases row with rfl | rfl
  · exact exec_decode_of_leftover ec ep w idle idle'
  · exact exec_encode_of_leftover ec ep w idle idle'

end Sys2Proof.Machine

/-! PROOFS. Reset and hazards: a command met while BUSY (R240). -/

namespace Sys2Proof.Machine

theorem execDecode_of_busy {s : State} (busy : s.busy = true) : execDecode s = .next s := by
  rcases execDecode_cases s with ⟨-, next⟩ | ⟨idle, -⟩ | ⟨idle, -⟩
  · exact next
  all_goals exact absurd busy (Bool.eq_false_iff.1 idle)

theorem execEncode_of_busy {s : State} (busy : s.busy = true) : execEncode s = .next s := by
  rcases execEncode_cases s with ⟨-, next⟩ | ⟨idle, -⟩
  · exact next
  · exact absurd busy (Bool.eq_false_iff.1 idle)

/-- Settles O54: of all that a command can do, BUSY leaves only the case without a start. -/
theorem busyCommandIsIgnored : Obligations.BusyCommandIsIgnored :=
  fun _ busy => ⟨execDecode_of_busy busy, execEncode_of_busy busy⟩

end Sys2Proof.Machine
